-- ==== Sys2Proof/Word.lean ====
section
/-! DEFINITION. The widths of the block's values (00_scope.md R9: every value is an unsigned integer of a stated width). -/

namespace Sys2Proof

/-- A byte is 8 bits (R9). -/
abbrev Byte := BitVec 8

/-- A 32-bit operand, result or header field (R75, R17, R68). -/
abbrev Word := BitVec 32

/-- An image memory address or length, 24 bits (R20, R40). -/
abbrev Address := BitVec 24

/-- A core id field, 4 bits (R76). -/
abbrev CoreId := BitVec 4

/-- A command word, 40 bits: opcode in bits 39:32, operand in bits 31:0 (R75). -/
abbrev CommandWord := BitVec 40

end Sys2Proof
end

