-- ==== Sys2Proof/Syntax.lean ====
section
/-! DEFINITION. The 27 commands of 30_encoding.md R77, one constructor per row of spec/opcode_table.json, each with the operand
fields of its form (R76). -/

namespace Sys2Proof

/-- A command of the block, with the operand fields its form names (R76). A field holds any value its width admits: a core id 0 or
9..15 is an out-of-range value of a legal command, not an illegal encoding (R76). -/
inductive Instr where
  /-- NOP (R93). -/
  | nop
  /-- RESET (R94). -/
  | reset
  /-- RDR r (R95). -/
  | rdr (r : Byte)
  /-- RX.FLUSH (R96). -/
  | rxFlush
  /-- TX.RAW b (R97). -/
  | txRaw (b : Byte)
  /-- RX.GET (R98). -/
  | rxGet
  /-- LFSR.SEED s (R104). -/
  | lfsrSeed (v : Byte)
  /-- LFSR.STEP (R105). -/
  | lfsrStep
  /-- LFSR.TX (R106). -/
  | lfsrTx
  /-- LFSR.CHK (R107). -/
  | lfsrChk
  /-- SUM.CLR (R122). -/
  | sumClr
  /-- SUM.ADD b (R123). -/
  | sumAdd (b : Byte)
  /-- SUM.IMG c (R124). -/
  | sumImg (c : CoreId)
  /-- SUM.MARK m (R125). -/
  | sumMark (m : Bool)
  /-- SUM.TEST (R126). -/
  | sumTest
  /-- LRC.CLR (R130). -/
  | lrcClr
  /-- LRC.XOR b (R131). -/
  | lrcXor (b : Byte)
  /-- ENC.WORD v (R142). -/
  | encWord (v : Word)
  /-- ENC.MEM a (R143). -/
  | encMem (a : Address)
  /-- FRM.SYNC p (R152). -/
  | frmSync (p : Byte)
  /-- FRM.BYTE b (R153). -/
  | frmByte (b : Byte)
  /-- FRM.FIELD w (R154). -/
  | frmField (w : Word)
  /-- PLAN.CLR (R161). -/
  | planClr
  /-- PLAN.PTR c, p (R162). -/
  | planPtr (c : CoreId) (p : Address)
  /-- PLAN.LEN c, l (R163). -/
  | planLen (c : CoreId) (l : Address)
  /-- PLAN.DEL c (R164). -/
  | planDel (c : CoreId)
  /-- SEQ.START f, f = (eeprom, run) (R165). -/
  | seqStart (run eeprom : Bool)
deriving DecidableEq, Repr

end Sys2Proof
end

