-- ==== Sys2Proof/Decode.lean ====
section
/-! DEFINITION. Decoding and encoding of the 40-bit command word, 30_encoding.md R75 to R78: opcode in bits 39:32, operand in bits
31:0, eight operand forms, reserved operand bits zero. -/

namespace Sys2Proof

/-- Why a word is illegal; either way the command faults ILL and does nothing else (R78, R203 checks 1 and 2). -/
inductive DecodeError where
  /-- `op` is not one of the 27 opcodes of R77. -/
  | unknownOpcode
  /-- A bit of `arg` that the opcode's form does not name is 1. -/
  | reservedBits
deriving DecidableEq, Repr

/-- The operand forms of R76. -/
inductive Form where
  | Z | B | C | M | F | W | A | P
deriving DecidableEq, Repr

/-- The bits of `arg` that a form does not name: reserved, must be 0 (R76, R205). -/
def Form.reserved : Form → Word
  | .Z => 0xFFFFFFFF
  | .B => 0xFFFFFF00
  | .C => 0xFFFFFFF0
  | .M => 0xFFFFFFFE
  | .F => 0xFFFFFFFC
  | .W => 0x00000000
  | .A => 0xFF000000
  | .P => 0xF0000000

/-- `op`, bits 39:32 of the command word (R75). -/
def opcodeField (w : CommandWord) : Byte := w.extractLsb' 32 8

/-- `arg`, bits 31:0 of the command word (R75). -/
def argField (w : CommandWord) : Word := w.extractLsb' 0 32

/-- The check of R78: the command, if no reserved bit of `arg` is 1. -/
def checkReserved (f : Form) (arg : Word) (i : Instr) : Except DecodeError Instr :=
  if arg &&& f.reserved = 0 then .ok i else .error .reservedBits

/-- The decoder: total, every 40-bit word names one command with clean reserved bits or is illegal by name (R78). The opcode
numbers are those of R77, the operand fields those of R76. -/
def decode (w : CommandWord) : Except DecodeError Instr :=
  let arg := argField w
  let b : Byte := arg.extractLsb' 0 8
  let c : CoreId := arg.extractLsb' 0 4
  let a : Address := arg.extractLsb' 0 24
  let pc : CoreId := arg.extractLsb' 24 4
  match (opcodeField w).toNat with
  | 0x00 => checkReserved .Z arg .nop
  | 0x01 => checkReserved .Z arg .reset
  | 0x02 => checkReserved .B arg (.rdr b)
  | 0x03 => checkReserved .Z arg .rxFlush
  | 0x04 => checkReserved .B arg (.txRaw b)
  | 0x05 => checkReserved .Z arg .rxGet
  | 0x10 => checkReserved .B arg (.lfsrSeed b)
  | 0x11 => checkReserved .Z arg .lfsrStep
  | 0x12 => checkReserved .Z arg .lfsrTx
  | 0x13 => checkReserved .Z arg .lfsrChk
  | 0x20 => checkReserved .Z arg .sumClr
  | 0x21 => checkReserved .B arg (.sumAdd b)
  | 0x22 => checkReserved .C arg (.sumImg c)
  | 0x23 => checkReserved .M arg (.sumMark (arg.getLsbD 0))
  | 0x24 => checkReserved .Z arg .sumTest
  | 0x28 => checkReserved .Z arg .lrcClr
  | 0x29 => checkReserved .B arg (.lrcXor b)
  | 0x30 => checkReserved .W arg (.encWord arg)
  | 0x31 => checkReserved .A arg (.encMem a)
  | 0x40 => checkReserved .B arg (.frmSync b)
  | 0x41 => checkReserved .B arg (.frmByte b)
  | 0x42 => checkReserved .W arg (.frmField arg)
  | 0x50 => checkReserved .Z arg .planClr
  | 0x51 => checkReserved .P arg (.planPtr pc a)
  | 0x52 => checkReserved .P arg (.planLen pc a)
  | 0x53 => checkReserved .C arg (.planDel c)
  | 0x58 => checkReserved .F arg (.seqStart (arg.getLsbD 0) (arg.getLsbD 1))
  | _ => .error .unknownOpcode

/-- The opcode of each command (R77). -/
def Instr.opcode : Instr → Byte
  | .nop => 0x00
  | .reset => 0x01
  | .rdr _ => 0x02
  | .rxFlush => 0x03
  | .txRaw _ => 0x04
  | .rxGet => 0x05
  | .lfsrSeed _ => 0x10
  | .lfsrStep => 0x11
  | .lfsrTx => 0x12
  | .lfsrChk => 0x13
  | .sumClr => 0x20
  | .sumAdd _ => 0x21
  | .sumImg _ => 0x22
  | .sumMark _ => 0x23
  | .sumTest => 0x24
  | .lrcClr => 0x28
  | .lrcXor _ => 0x29
  | .encWord _ => 0x30
  | .encMem _ => 0x31
  | .frmSync _ => 0x40
  | .frmByte _ => 0x41
  | .frmField _ => 0x42
  | .planClr => 0x50
  | .planPtr _ _ => 0x51
  | .planLen _ _ => 0x52
  | .planDel _ => 0x53
  | .seqStart _ _ => 0x58

/-- The operand form of each command (R76). -/
def Instr.form : Instr → Form
  | .nop => .Z
  | .reset => .Z
  | .rdr _ => .B
  | .rxFlush => .Z
  | .txRaw _ => .B
  | .rxGet => .Z
  | .lfsrSeed _ => .B
  | .lfsrStep => .Z
  | .lfsrTx => .Z
  | .lfsrChk => .Z
  | .sumClr => .Z
  | .sumAdd _ => .B
  | .sumImg _ => .C
  | .sumMark _ => .M
  | .sumTest => .Z
  | .lrcClr => .Z
  | .lrcXor _ => .B
  | .encWord _ => .W
  | .encMem _ => .A
  | .frmSync _ => .B
  | .frmByte _ => .B
  | .frmField _ => .W
  | .planClr => .Z
  | .planPtr _ _ => .P
  | .planLen _ _ => .P
  | .planDel _ => .C
  | .seqStart _ _ => .F

/-- The operand `arg` of each command, assembled by its form with every reserved bit 0 (R76, R79). -/
def Instr.arg : Instr → Word
  | .nop => 0
  | .reset => 0
  | .rdr r => r.setWidth 32
  | .rxFlush => 0
  | .txRaw b => b.setWidth 32
  | .rxGet => 0
  | .lfsrSeed v => v.setWidth 32
  | .lfsrStep => 0
  | .lfsrTx => 0
  | .lfsrChk => 0
  | .sumClr => 0
  | .sumAdd b => b.setWidth 32
  | .sumImg c => c.setWidth 32
  | .sumMark m => (BitVec.ofBool m).setWidth 32
  | .sumTest => 0
  | .lrcClr => 0
  | .lrcXor b => b.setWidth 32
  | .encWord v => v
  | .encMem a => a.setWidth 32
  | .frmSync p => p.setWidth 32
  | .frmByte b => b.setWidth 32
  | .frmField w => w
  | .planClr => 0
  | .planPtr c p => (c ++ p).setWidth 32
  | .planLen c l => (c ++ l).setWidth 32
  | .planDel c => c.setWidth 32
  | .seqStart run eeprom => (BitVec.ofBool eeprom ++ BitVec.ofBool run).setWidth 32

/-- The encoder: `op` above `arg` (R75, R79). -/
def encode (i : Instr) : CommandWord := i.opcode ++ i.arg

/-- The opcode map of R77 as the spec lists it: mnemonic, opcode, operand form. -/
def opcodeTable : List (String × Byte × Form) :=
  [("NOP", 0x00, .Z), ("RESET", 0x01, .Z), ("RDR", 0x02, .B), ("RX.FLUSH", 0x03, .Z), ("TX.RAW", 0x04, .B),
   ("RX.GET", 0x05, .Z), ("LFSR.SEED", 0x10, .B), ("LFSR.STEP", 0x11, .Z), ("LFSR.TX", 0x12, .Z)] ++
  [("LFSR.CHK", 0x13, .Z), ("SUM.CLR", 0x20, .Z), ("SUM.ADD", 0x21, .B), ("SUM.IMG", 0x22, .C), ("SUM.MARK", 0x23, .M),
   ("SUM.TEST", 0x24, .Z), ("LRC.CLR", 0x28, .Z), ("LRC.XOR", 0x29, .B), ("ENC.WORD", 0x30, .W)] ++
  [("ENC.MEM", 0x31, .A), ("FRM.SYNC", 0x40, .B), ("FRM.BYTE", 0x41, .B), ("FRM.FIELD", 0x42, .W), ("PLAN.CLR", 0x50, .Z),
   ("PLAN.PTR", 0x51, .P), ("PLAN.LEN", 0x52, .P), ("PLAN.DEL", 0x53, .C), ("SEQ.START", 0x58, .F)]

/-- A row's `match` is `op << 32` (R77). -/
def rowMatch (op : Byte) : CommandWord := op ++ (0 : Word)

/-- A row's `mask` covers the opcode bits and every reserved bit of the form (R77). -/
def rowMask (f : Form) : CommandWord := (0xFF : Byte) ++ f.reserved

/-- The command that the decoder reads from a table row's word: the one 40-bit word whose bits are `w`, bit 0 the least significant
(R75). A row gives `nbits` = 40 bits, and a number that does not fit in 40 bits is no command word. -/
def decodeTableWord (nbits w : Nat) : Option Instr :=
  if nbits ≤ 40 ∧ w < 2 ^ 40 then
    match decode (BitVec.ofNat 40 w) with
    | .ok i => some i
    | .error _ => none
  else none

end Sys2Proof
end

