-- ==== Sys2Proof/Config.lean ====
section
/-! DEFINITION. What the spec leaves to the model as parameters (00_scope.md R6) and as the order of the agents' steps (R7): the types
of those values, and one opaque constant for each, which nothing can evaluate. -/

namespace Sys2Proof

/-- `MARKER_ACK_LEN` is 1 or 2 (R6, R180): the device acknowledges a marker page with the one byte `cogid`, or with the two bytes
`0xFF, cogid`. -/
inductive MarkerAckLen where
  | one
  | two
deriving DecidableEq, Repr, Inhabited

/-- `IMEM_SIZE`, a natural number from 0 to 2^24 (R6). -/
abbrev ImemSize := Fin (2 ^ 24 + 1)

/-- One step of an agent as the outside world decides it (00_scope.md R7): which agent acts next, and with what input. -/
inductive Event where
  /-- Agent H puts this word on the command port (R75, R90). -/
  | command (w : CommandWord)
  /-- Agent H asserts the hardware reset input (70_reset_and_hazards.md R230). -/
  | hardwareReset
  /-- Agent S has the turn; it holds if it has no enabled step (R167). -/
  | sequencer
  /-- Agent E appends one byte to RX (R28). -/
  | deliver (b : Byte)
deriving DecidableEq, Repr, Inhabited

/-- FREE: `IMEM_SIZE` of the machine right after reset (R6; notes/assumptions/4.md). -/
opaque Config.imemSize : ImemSize

/-- FREE: `MARKER_ACK_LEN` of the machine right after reset (R6, U6; notes/assumptions/4.md). -/
opaque Config.markerAckLen : MarkerAckLen

/-- FREE: who acts next, and with what input, once the events a state lists are used up; applied to the state's counter `turn`
(R7, "any enabled agent may take the next step"; notes/assumptions/1.md). -/
opaque Config.freeEvent : Nat → Event

end Sys2Proof
end

