-- ==== Sys2Proof/Machine/State.lean ====
section
/-! DEFINITION. The state of the block, 10_state.md R10 to R32, with its parameters (00_scope.md R6) and the model's own bookkeeping of
who acts next; the reasons a step can stop; the state after reset. Plain data throughout. -/

namespace Sys2Proof.Machine

/-- `ST`, the session state (R21). -/
inductive SessionState where
  | idle
  | run
  | success
  | aborted
deriving DecidableEq, Repr

/-- `PH`, the sequencer's phase (R22); code 7 is reserved, never taken, and no value here stands for it. -/
inductive Phase where
  | none
  | ssync
  | csync
  | hdr
  | pay
  | ack
  | next
deriving DecidableEq, Repr

/-- `REASON`, why the last session aborted (R23); codes 4 to 7 are reserved, never taken, and no value here stands for them. -/
inductive Reason where
  | none
  | missingSyncByte
  | cogMismatch
  | checksumMismatch
deriving DecidableEq, Repr

/-- One plan entry `PLAN[c]` (R20). -/
structure PlanEntry where
  /-- 1 when core c has an image in the plan. -/
  valid : Bool
  /-- Byte address in image memory of the image's byte 0. -/
  ptr : Address
  /-- Byte length of the image. -/
  len : Address
deriving DecidableEq, Repr

/-- The plan table `PLAN[1]` to `PLAN[8]` (R19); index k holds the entry of core k + 1. -/
abbrev Plan := Vector PlanEntry 8

/-- The sequencer registers (R21 to R25). -/
structure SeqRegs where
  /-- `ST` (R21). -/
  st : SessionState
  /-- `PH` (R22). -/
  ph : Phase
  /-- `REASON` (R23). -/
  reason : Reason
  /-- `N`, number of images in the session (R24). -/
  n : BitVec 4
  /-- `COG`, core id of the image being sent (R24). -/
  cog : CoreId
  /-- `SCAN`, least core id not yet considered (R24). -/
  scan : CoreId
  /-- `MK`, 1 while the page in progress is the marker page (R24). -/
  marker : Bool
  /-- `BASE`, the running base offset (R24). -/
  base : BitVec 32
  /-- `OFF`, offset in the image of the first byte of the page in progress (R24). -/
  off : Address
  /-- `CHUNK`, payload length of the page in progress (R24). -/
  chunk : BitVec 10
  /-- `IDX`, index of the next header or payload byte (R24). -/
  idx : BitVec 10
  /-- `FLAGS`, bit 0 `run`, bit 1 `eeprom` (R24). -/
  flags : BitVec 2
  /-- `ACKB[0..2]`, the acknowledgment bytes received (R25). -/
  ackb : Vector Byte 3
  /-- `ACKN`, how many of them (R25). -/
  ackn : BitVec 2
deriving DecidableEq, Repr

/-- Image memory (20_memory.md R40): its size and its contents, the parameters `IMEM_SIZE` and `imem` of R6, as plain data. `cells` lists
address and byte in one canonical form (`Memory.wf`); an address it does not list reads as `Memory.unlisted`. -/
structure Memory where
  /-- `IMEM_SIZE`: addresses 0 to size - 1 exist (R40). -/
  size : ImemSize
  /-- The listed bytes. -/
  cells : List Host.Cell
deriving DecidableEq, Repr

/-- What an existing address that is not listed reads as. DESIGN CHOICE (unsafe of the reset state alone, whose contents the spec leaves
to a parameter; every contents can be listed): notes/assumptions/3.md. -/
def Memory.unlisted : Byte := 0x00

/-- The canonical form: addresses strictly rising, each inside image memory, and no entry equal to what an unlisted address reads as. -/
abbrev Memory.wf (m : Memory) : Prop :=
  m.cells.Pairwise (fun x y => x.1 < y.1) ∧ (∀ x ∈ m.cells, x.1 < m.size.val ∧ x.2 ≠ Memory.unlisted)

/-- The whole state: the block's registers, plan table, TX and RX (R10), its parameters (R6), and the model's own `ci`, `pending`, `turn`. -/
structure State where
  /-- `LFSR` (R13). -/
  lfsr : Byte
  /-- `SUM` (R14). -/
  sum : Byte
  /-- `LRC` (R15). -/
  lrc : Byte
  /-- `RES` (R17). -/
  res : Word
  /-- `FLT` (R18). -/
  flt : Word
  /-- `PLAN[1..8]` (R19, R20). -/
  plan : Plan
  /-- The sequencer registers (R21 to R25). -/
  seq : SeqRegs
  /-- `TX`, every byte sent, oldest first (R27). -/
  tx : List Byte
  /-- `RX`, bytes delivered and not yet consumed, oldest first (R28). -/
  rx : List Byte
  /-- Image memory, a parameter of the run (R6, R40). -/
  imem : Memory
  /-- `MARKER_ACK_LEN`, a parameter of the run (R6, R180). -/
  markerAckLen : MarkerAckLen
  /-- `ci`, the host's command index (R12). The model's own. -/
  ci : Nat
  /-- The events already decided, next first (R7; notes/assumptions/1.md). The model's own. -/
  pending : List Event
  /-- How many free events have been taken (notes/assumptions/1.md). The model's own. -/
  turn : Nat
deriving DecidableEq, Repr

/-- Why a turn of the sequencer cannot be taken: its rule names something that does not exist. Raised by a sequencer step only, never by a
command, and only in states that no run reaches (45_sequencer.md R184). All are safe: the model stops where the rules say nothing
(notes/assumptions/5.md). -/
inductive Fault where
  /-- Phase PAY: the payload byte's address is not below `IMEM_SIZE`, and such an address does not exist (R40, R41). Safe. -/
  | imageAddressAbsent
  /-- `PLAN[COG]` is named and `COG` is not in 1..8 (R19: there is no such entry). Safe. -/
  | planEntryAbsent
  /-- Phase CSYNC: `NextValid(SCAN)` is "none" (R171 says that it exists). Safe. -/
  | nextCoreAbsent
  /-- Phase HDR: `IDX` is above 7 and `h[IDX]` does not exist (R173, R174). Safe. -/
  | headerByteAbsent
  /-- Phase ACK: `ACKN` is 3 and `ACKB[3]` does not exist (R25, R178). Safe. -/
  | ackByteAbsent
  /-- `IDX + 1` or `OFF + CHUNK` does not fit its register, and no rule says what is stored (R24, R176, R179). Safe. -/
  | registerOverflow
deriving DecidableEq, Repr

/-- Why an instruction has no meaning. -/
inductive Refusal where
  /-- `exec` has no meaning for the command of this mnemonic. No arm of exec uses it: every command of the table is modelled. Safe. -/
  | notModelled (mnemonic : String)
deriving DecidableEq, Repr

/-- An entry of the empty plan (R20, R32). -/
def PlanEntry.reset : PlanEntry := { valid := false, ptr := 0, len := 0 }

/-- The empty plan (R32, R161). -/
def Plan.reset : Plan := #v[.reset, .reset, .reset, .reset, .reset, .reset, .reset, .reset]

/-- The reset values of the sequencer registers (R32). -/
def SeqRegs.reset : SeqRegs :=
  { st := .idle, ph := .none, reason := .none, n := 0, cog := 0, scan := 0, marker := false, base := 0, off := 0, chunk := 0, idx := 0,
    flags := 0, ackb := #v[0, 0, 0], ackn := 0 }

/-- The initial state of a machine whose parameters are `imem` and `markerAckLen`: the reset state with TX empty (70_reset_and_hazards.md
R231), every register at its value of R32, no command issued yet. -/
def State.initial (imem : Memory) (markerAckLen : MarkerAckLen) : State :=
  { lfsr := 0x50, sum := 0, lrc := 0, res := 0, flt := 0, plan := .reset, seq := .reset, tx := [], rx := [], imem := imem,
    markerAckLen := markerAckLen, ci := 0, pending := [], turn := 0 }

/-- The machine right after reset: the initial state (R231), its parameters `IMEM_SIZE` and `MARKER_ACK_LEN` free and nothing listed in image
memory (notes/assumptions/3.md, 4.md). -/
def State.reset : State := State.initial { size := Config.imemSize, cells := [] } Config.markerAckLen

end Sys2Proof.Machine
end

