-- ==== Sys2Proof/Machine/Flags.lean ====
section
/-! DEFINITION. The bits of the fault register, the codes of `ST`, `PH` and `REASON`, and the composite registers `STATUS`, `ACK` and the plan
length word that RDR reads (10_state.md R18, R21 to R26, R31). -/

namespace Sys2Proof.Machine

/-- The bits of `FLT` (R18). -/
inductive FltBit where
  | ill
  | busy
  | range
  | hsf
deriving DecidableEq, Repr

/-- The place of each bit of `FLT` (R18); bits 31:4 are reserved, never set. -/
def FltBit.mask : FltBit → Word
  | .ill => 0x1
  | .busy => 0x2
  | .range => 0x4
  | .hsf => 0x8

/-- The code of `ST` (R21). -/
def SessionState.code : SessionState → BitVec 2
  | .idle => 0
  | .run => 1
  | .success => 2
  | .aborted => 3

/-- The code of `PH` (R22). -/
def Phase.code : Phase → BitVec 3
  | .none => 0
  | .ssync => 1
  | .csync => 2
  | .hdr => 3
  | .pay => 4
  | .ack => 5
  | .next => 6

/-- The code of `REASON` (R23). -/
def Reason.code : Reason → BitVec 3
  | .none => 0
  | .missingSyncByte => 1
  | .cogMismatch => 2
  | .checksumMismatch => 3

/-- `STATUS`: `ST` in bits 1:0, `PH` 4:2, `REASON` 7:5, `COG` 11:8, `N` 15:12, `SCAN` 19:16, `MK` 20, `FLAGS` 22:21, zeros above (R26). -/
def statusWord (q : SeqRegs) : Word :=
  (q.flags ++ BitVec.ofBool q.marker ++ q.scan ++ q.n ++ q.cog ++ q.reason.code ++ q.ph.code ++ q.st.code).setWidth 32

/-- The `ACK` register: `ACKB[0]` in bits 7:0, `ACKB[1]` 15:8, `ACKB[2]` 23:16, `ACKN` 25:24, zeros above (R31). -/
def ackWord (q : SeqRegs) : Word := (q.ackn ++ q.ackb[2] ++ q.ackb[1] ++ q.ackb[0]).setWidth 32

/-- RDR's view of a plan entry's length: `len` in bits 23:0, `valid` in bit 31, zeros between (R31). -/
def planLenWord (e : PlanEntry) : Word := BitVec.ofBool e.valid ++ (0 : BitVec 7) ++ e.len

/-- `FLAGS <- arg[1:0]`: bit 0 `run`, bit 1 `eeprom` (R24, R165). -/
def sessionFlags (run eeprom : Bool) : BitVec 2 := BitVec.ofBool eeprom ++ BitVec.ofBool run

end Sys2Proof.Machine
end

