-- ==== Sys2Proof/Machine/Wire.lean ====
section
/-! DEFINITION. The functions from values to wire bytes that the spec settles: the LFSR (41_lfsr.md), the handshake byte, the encoder bytes,
the sync signal and byte stuffing (30_encoding.md part A, 43_encoder.md, 44_framing.md), and the reference decoders of R65 and R67, which
the block itself never uses. -/

namespace Sys2Proof.Machine

/-- The feedback bit `fb(s)`: taps at bits 7, 5, 4, 1 of the state before the shift (R100). -/
def lfsrFeedback (v : Byte) : Bool := v.getLsbD 7 ^^ v.getLsbD 5 ^^ v.getLsbD 4 ^^ v.getLsbD 1

/-- `next(s)`: shifted left, the feedback bit enters at bit 0 (R100). -/
def lfsrNext (v : Byte) : Byte := (v <<< 1) ||| (BitVec.ofBool (lfsrFeedback v)).setWidth 8

/-- `out(s)`, the output bit of a step: bit 0 of the state before it (R101). -/
def lfsrOut (v : Byte) : Bool := v.getLsbD 0

/-- The state after k steps (R102). -/
def lfsrIterate : Nat → Byte → Byte
  | 0, v => v
  | k + 1, v => lfsrIterate k (lfsrNext v)

/-- `bit_k`, the bit sequence from a seed (R102). -/
def lfsrBit (seed : Byte) (k : Nat) : Bool := lfsrOut (lfsrIterate k seed)

/-- `hs(b)`, the handshake byte that carries bit b (R61). -/
def handshakeByte (b : Bool) : Byte := 0xFE ||| (BitVec.ofBool b).setWidth 8

/-- The handshake check: y is `0xFE` or `0xFF` and its bit is the expected one (R61, R107). -/
def handshakePasses (y : Byte) (expected : Bool) : Bool := (y == 0xFE || y == 0xFF) && y.getLsbD 0 == expected

/-- `d(g)`, the encoder data byte of three bits (R62). -/
def encoderData (g : BitVec 3) : Byte :=
  0x92 ||| (BitVec.ofBool (g.getLsbD 0)).setWidth 8 ||| ((BitVec.ofBool (g.getLsbD 1)).setWidth 8 <<< 3) |||
    ((BitVec.ofBool (g.getLsbD 2)).setWidth 8 <<< 6)

/-- `f(g)`, the encoder final byte of two bits (R63). -/
def encoderFinal (g : BitVec 2) : Byte :=
  0xF2 ||| (BitVec.ofBool (g.getLsbD 0)).setWidth 8 ||| ((BitVec.ofBool (g.getLsbD 1)).setWidth 8 <<< 3)

/-- `enc(v)`: ten data bytes for bits 29:0, three at a time from the bottom, then the final byte for bits 31:30 (R64, R141). -/
def enc (v : Word) : List Byte :=
  (List.range 10).map (fun k => encoderData (v.extractLsb' (3 * k) 3)) ++ [encoderFinal (v.extractLsb' 30 2)]

/-- `unenc`, the reference decoder of eleven bytes: bit k of the value (R65). -/
def unencBit (e : List Byte) (k : Nat) : Bool := ((e[k / 3]?).getD 0).getLsbD (3 * (k % 3))

/-- `unenc(e)`: `v[3k]`, `v[3k+1]`, `v[3k+2]` are bits 0, 3, 6 of byte k, `v[30]`, `v[31]` bits 0, 3 of byte 10 (R65). -/
def unenc (e : List Byte) : Word := BitVec.ofFnLE (fun k : Fin 32 => unencBit e k.val)

/-- `sync(p)`, the sync signal, never stuffed (R66, R150). -/
def sync (p : Byte) : List Byte := [0xFF, p]

/-- `stuff1(b)`: a literal `0xFF` is followed by a synthetic `0x00` (R66, R150). -/
def stuff1 (b : Byte) : List Byte := if b = 0xFF then [0xFF, 0x00] else [b]

/-- `stuff(s)`: `stuff1` of each element in order (R66). -/
def stuff (bs : List Byte) : List Byte := bs.flatMap stuff1

/-- Reference `unstuff`, the device's side: `0xFF, 0x00` is read as `0xFF`, any other byte as itself; a `0xFF` followed by anything
else is no stuffed byte, and nothing is read (R67). -/
def unstuff : List Byte → Option (List Byte)
  | [] => some []
  | b :: rest =>
    if b = 0xFF then
      match rest with
      | z :: rest' => if z = 0x00 then (unstuff rest').map (0xFF :: ·) else none
      | [] => none
    else (unstuff rest).map (b :: ·)

/-- The four bytes of a field, most significant first (R44b, R68). -/
def be32 (w : Word) : List Byte := [w.extractLsb' 24 8, w.extractLsb' 16 8, w.extractLsb' 8 8, w.extractLsb' 0 8]

/-- `field(w)`: the four bytes of w, most significant first, each stuffed (R150). -/
def field (w : Word) : List Byte := stuff (be32 w)

/-- The XOR of a byte sequence, from 0 (R129). -/
def xorBytes (bs : List Byte) : Byte := bs.foldl (· ^^^ ·) 0

end Sys2Proof.Machine
end

