-- ==== Sys2Proof/Machine/Ops.lean ====
section
/-! DEFINITION. The named operations over image memory, TX, RX, the plan table and the registers; the two exceptional events of the block,
a command fault (60_exceptions.md R201) and a session abort (R210), each one shared operation. Neither has a return (R217). -/

namespace Sys2Proof.Machine

/-! ### Image memory (20_memory.md) -/

/-- `imem(a)`: the contents at an existing address (R40). -/
def Memory.byte (m : Memory) (a : Nat) : Byte := (m.cells.lookup a).getD Memory.unlisted

/-- `MemRead(a, 1)` with its domain: nothing where the address does not exist (R40, R41). -/
def Memory.byteAt? (m : Memory) (a : Nat) : Option Byte := if a < m.size.val then some (m.byte a) else none

/-- `MemRead(a, 4)`: little-endian, the byte at the lowest address in bits 7:0 (R41). Its users check the range first. -/
def Memory.word (m : Memory) (a : Nat) : Word := m.byte (a + 3) ++ m.byte (a + 2) ++ m.byte (a + 1) ++ m.byte a

/-- The listing with byte b at address a, in canonical form: the value an unlisted address reads as is not listed. -/
def cellsInsert (a : Nat) (b : Byte) : List Host.Cell → List Host.Cell
  | [] => if b = Memory.unlisted then [] else [(a, b)]
  | (a', b') :: rest =>
    if a < a' then (if b = Memory.unlisted then (a', b') :: rest else (a, b) :: (a', b') :: rest)
    else if a = a' then (if b = Memory.unlisted then rest else (a, b) :: rest)
    else (a', b') :: cellsInsert a b rest

/-- `MemWrite(a, 1, b)`, which R9 defines for completeness of the notation: no command and no sequencer step performs it (R43). It says which
image memory a run starts with. An address that does not exist is left alone. -/
def Memory.write (m : Memory) (a : Nat) (b : Byte) : Memory :=
  if a < m.size.val then { m with cells := cellsInsert a b m.cells } else m

/-- `MemWrite` of a byte sequence at ascending addresses from a (R9, R236: how a run's images come to be in image memory). -/
def Memory.writeBytes (m : Memory) (a : Nat) : List Byte → Memory
  | [] => m
  | b :: bs => (m.write a b).writeBytes (a + 1) bs

/-- The n bytes of image memory from address p, in ascending order (R40: byte k of an image is at `ptr + k`). -/
def Memory.bytes (m : Memory) (p n : Nat) : List Byte := (List.range n).map (fun k => m.byte (p + k))

/-! ### TX, RX, RES -/

/-- `TxPut` of each byte in order (R9, R27, R91). -/
def State.txPut (bs : List Byte) (s : State) : State := { s with tx := s.tx ++ bs }

/-- `StuffPut(b)` (R9, R66). -/
def State.stuffPut (b : Byte) (s : State) : State := s.txPut (stuff1 b)

/-- `RX <- []` (R96). -/
def State.rxClear (s : State) : State := { s with rx := [] }

/-- Agent E appends a byte at the back of RX (R28). -/
def State.rxPut (b : Byte) (s : State) : State := { s with rx := s.rx ++ [b] }

/-- `RES <- v` (R17). -/
def State.setRes (v : Word) (s : State) : State := { s with res := v }

/-! ### Taking a command fault, taking an abort -/

/-- Bit f of `FLT` is set, the others stay: bits are sticky, a later fault ORs its bit in (R201). -/
def State.raise (f : FltBit) (s : State) : State := { s with flt := s.flt ||| f.mask }

/-- `Abort(r)`: `ST <- ABORTED; PH <- NONE; REASON <- r` and nothing else (R210). -/
def State.abort (r : Reason) (s : State) : State :=
  { s with seq := { s.seq with st := .aborted, ph := .none, reason := r } }

/-- What a command does once its word is legal: BUSY while `ST = RUN`, RANGE if an operand value is outside its legal set, else its effect
(R203 checks 3, 4, 5; R92). -/
def accept (legal : Bool) (effect : State → State) (s : State) : State :=
  if s.seq.st = .run then s.raise .busy else if legal then effect s else s.raise .range

/-! ### Reset -/

/-- The one reset of the block: every register, the plan table and RX take their reset values, TX is unchanged (R94, R230); the parameters
and the model's own fields are not the block's registers. -/
def State.resetBlock (s : State) : State :=
  { State.initial s.imem s.markerAckLen with tx := s.tx, ci := s.ci, pending := s.pending, turn := s.turn }

/-! ### The plan table -/

/-- The index of core c in the table, for c in 1..8; there is no other entry (R19). -/
def coreIndex? (c : CoreId) : Option (Fin 8) :=
  if h : 1 ≤ c.toNat ∧ c.toNat ≤ 8 then some ⟨c.toNat - 1, by omega⟩ else none

/-- `PLAN[c]`, if there is such an entry. -/
def Plan.entry? (p : Plan) (c : CoreId) : Option PlanEntry := (coreIndex? c).map (fun k => p[k])

/-- `PLAN[c]` changed by f; a table without such an entry is left alone (the commands that write check c first, R204). -/
def Plan.modify (p : Plan) (c : CoreId) (f : PlanEntry → PlanEntry) : Plan :=
  match coreIndex? c with
  | some k => p.set k (f p[k])
  | none => p

/-- The plan table is replaced. -/
def State.setPlan (p : Plan) (s : State) : State := { s with plan := p }

/-- The core ids 1 to 8 in ascending order (R19, R171). -/
def coreIds : List CoreId := [1, 2, 3, 4, 5, 6, 7, 8]

/-- Core c has an image in the plan: `PLAN[c].valid = 1` (R20). -/
def Plan.isValid (p : Plan) (c : CoreId) : Bool := ((p.entry? c).map (·.valid)).getD false

/-- `PLAN[c].len`, 0 where there is no such entry. -/
def Plan.lenOf (p : Plan) (c : CoreId) : Nat := ((p.entry? c).map (·.len.toNat)).getD 0

/-- `NextValid(k)`: the least c with `k <= c <= 8` and `PLAN[c].valid = 1`, or none (R167). -/
def Plan.nextValid (p : Plan) (k : Nat) : Option CoreId := coreIds.find? (fun c => decide (k ≤ c.toNat) && p.isValid c)

/-- The number of c in 1..8 with `PLAN[c].valid = 1` (R165). -/
def Plan.countValid (p : Plan) : Nat := (coreIds.filter (fun c => p.isValid c)).length

/-- The image of an entry lies inside image memory: `ptr + len <= IMEM_SIZE` (R124, R165). -/
def PlanEntry.fits (e : PlanEntry) (m : Memory) : Bool := decide (e.ptr.toNat + e.len.toNat ≤ m.size.val)

end Sys2Proof.Machine
end

