-- ==== Sys2Proof/WellFormed.lean ====
section
/-! DEFINITION. Which commands are well formed: every operand value lies in the legal set that 60_exceptions.md R204 states of the
word alone. A command that is not well formed still has an encoding and a meaning: the fault RANGE (R203 check 4). -/

namespace Sys2Proof

/-- The legal core ids are 1 to 8; 0 and 9..15 are out of range (R76, R204). -/
def coreIdLegal (c : CoreId) : Bool := decide (1 ≤ c.toNat) && decide (c.toNat ≤ 8)

/-- The register numbers of the table of 10_state.md R31. -/
def registerNumberLegal (r : Byte) : Bool :=
  decide (r.toNat ≤ 0x04) || (decide (0x06 ≤ r.toNat) && decide (r.toNat ≤ 0x0A)) ||
    (decide (0x11 ≤ r.toNat) && decide (r.toNat ≤ 0x18)) || (decide (0x21 ≤ r.toNat) && decide (r.toNat ≤ 0x28))

/-- The operand checks of R204 that need no state: RDR's register number, a core id, an image length, a word address. -/
def Instr.wellFormed : Instr → Bool
  | .nop => true
  | .reset => true
  | .rdr r => registerNumberLegal r
  | .rxFlush => true
  | .txRaw _ => true
  | .rxGet => true
  | .lfsrSeed _ => true
  | .lfsrStep => true
  | .lfsrTx => true
  | .lfsrChk => true
  | .sumClr => true
  | .sumAdd _ => true
  | .sumImg c => coreIdLegal c
  | .sumMark _ => true
  | .sumTest => true
  | .lrcClr => true
  | .lrcXor _ => true
  | .encWord _ => true
  | .encMem a => a.toNat % 4 == 0
  | .frmSync _ => true
  | .frmByte _ => true
  | .frmField _ => true
  | .planClr => true
  | .planPtr c _ => coreIdLegal c
  | .planLen c l => coreIdLegal c && l.toNat % 4 == 0
  | .planDel c => coreIdLegal c
  | .seqStart _ _ => true

end Sys2Proof
end

