-- ==== Sys2Proof/Machine/Operands.lean ====
section
/-! DEFINITION. The operand forms at execution: the register number of RDR (10_state.md R31) and the legal sets of the operand values
(60_exceptions.md R204). Operands are used as they are, with no extension, scaling or shift (30_encoding.md R76). -/

namespace Sys2Proof.Machine

/-- `x[r]`, the register with number r, or none where the table of R31 has no such number. -/
def readRegister (r : Byte) (s : State) : Option Word :=
  match r.toNat with
  | 0x00 => some (statusWord s.seq)
  | 0x01 => some s.flt
  | 0x02 => some (s.lfsr.setWidth 32)
  | 0x03 => some (s.sum.setWidth 32)
  | 0x04 => some (s.lrc.setWidth 32)
  | 0x06 => some s.seq.base
  | 0x07 => some (s.seq.off.setWidth 32)
  | 0x08 => some (s.seq.chunk.setWidth 32)
  | 0x09 => some (s.seq.idx.setWidth 32)
  | 0x0A => some (ackWord s.seq)
  | n =>
    if 0x11 ≤ n ∧ n ≤ 0x18 then (s.plan.entry? (BitVec.ofNat 4 (n - 0x10))).map (fun e => e.ptr.setWidth 32)
    else if 0x21 ≤ n ∧ n ≤ 0x28 then (s.plan.entry? (BitVec.ofNat 4 (n - 0x20))).map planLenWord
    else none

/-- A core id operand is in 1..8 (R204, D33). -/
def coreOperandLegal (c : CoreId) : Bool := coreIdLegal c

/-- PLAN.LEN: the core id is in 1..8 and the length is a multiple of 4 (R163, R204). -/
def lenOperandLegal (c : CoreId) (l : Address) : Bool := coreIdLegal c && l.toNat % 4 == 0

/-- SUM.IMG: c is in 1..8, its entry is valid and lies inside image memory (R124, R204). -/
def imageOperandLegal (c : CoreId) (s : State) : Bool :=
  match s.plan.entry? c with
  | some e => e.valid && e.fits s.imem
  | none => false

/-- ENC.MEM: the address is a multiple of 4 and its four bytes lie inside image memory (R143, R204). -/
def wordOperandLegal (a : Address) (s : State) : Bool := a.toNat % 4 == 0 && decide (a.toNat + 4 ≤ s.imem.size.val)

/-- SEQ.START: some entry is valid, and every valid entry lies inside image memory (R165, R204). -/
def sessionLegal (s : State) : Bool :=
  s.plan.toList.any (·.valid) && s.plan.toList.all (fun e => !e.valid || e.fits s.imem)

end Sys2Proof.Machine
end

