-- ==== Sys2Proof/Machine/Checksum.lean ====
section
/-! DEFINITION. The checksum commands of 42_checksum.md: SUM.CLR, SUM.ADD, SUM.IMG, SUM.MARK, SUM.TEST (additive mode, modulo 256), LRC.CLR,
LRC.XOR (XOR mode). -/

namespace Sys2Proof.Machine

open Host (Outcome)

/-- `SUM <- (SUM + b) mod 256` (R121). -/
def State.sumPut (b : Byte) (s : State) : State := { s with sum := s.sum + b }

/-- `LRC <- v`. -/
def State.setLrc (v : Byte) (s : State) : State := { s with lrc := v }

/-- The sum of a byte sequence modulo 256 (R120, R121). -/
def sumBytes (bs : List Byte) : Byte := bs.foldl (· + ·) 0

/-- The marker constant: eight virtual bytes, 0xEC modulo 256, or with m = 1 the same eight counted twice, 0xD8 (R120, R125, C7). -/
def markerSum (m : Bool) : Byte := if m then 0xD8 else 0xEC

/-- The checksum byte, at offset 5, that makes an image valid: `(0 - T - 0xEC) mod 256`, T the sum with that byte taken as 0 (R128). The block
never computes it. -/
def checksumByte (bs : List Byte) : Byte := 0 - sumBytes (bs.set 5 0) - markerSum false

/-- SUM.CLR: `SUM <- 0` (R122). -/
def execSumClr (s : State) : Outcome State Fault Refusal := .next (accept true (fun t => { t with sum := 0 }) s)

/-- SUM.ADD b (R123). -/
def execSumAdd (b : Byte) (s : State) : Outcome State Fault Refusal := .next (accept true (State.sumPut b) s)

/-- The effect of SUM.IMG: every byte of the image of core c is added; `SUM` is not cleared first (R124). -/
def sumImgEffect (c : CoreId) (s : State) : State :=
  match s.plan.entry? c with
  | some e => s.sumPut (sumBytes (s.imem.bytes e.ptr.toNat e.len.toNat))
  | none => s

/-- SUM.IMG c (R124). -/
def execSumImg (c : CoreId) (s : State) : Outcome State Fault Refusal :=
  .next (accept (imageOperandLegal c s) (sumImgEffect c) s)

/-- SUM.MARK m (R125). -/
def execSumMark (m : Bool) (s : State) : Outcome State Fault Refusal := .next (accept true (State.sumPut (markerSum m)) s)

/-- SUM.TEST: `RES <- 1 if SUM == 0 else 0` (R126). -/
def execSumTest (s : State) : Outcome State Fault Refusal :=
  .next (accept true (fun t => t.setRes (if t.sum = 0 then 1 else 0)) s)

/-- LRC.CLR: `LRC <- 0` (R130). -/
def execLrcClr (s : State) : Outcome State Fault Refusal := .next (accept true (State.setLrc 0) s)

/-- LRC.XOR b: `LRC <- LRC ^ b` (R131). -/
def execLrcXor (b : Byte) (s : State) : Outcome State Fault Refusal :=
  .next (accept true (fun t => t.setLrc (t.lrc ^^^ b)) s)

end Sys2Proof.Machine
end

