-- ==== Sys2Proof/Machine/Encoder.lean ====
section
/-! DEFINITION. The encoder commands of 43_encoder.md: ENC.WORD, ENC.MEM. -/

namespace Sys2Proof.Machine

open Host (Outcome)

/-- ENC.WORD v: the eleven bytes `enc(v)` in order (R142). -/
def execEncWord (v : Word) (s : State) : Outcome State Fault Refusal := .next (accept true (State.txPut (enc v)) s)

/-- ENC.MEM a: the eleven bytes of the little-endian word at a; RANGE where a is misaligned or the word is not inside image memory, and
then nothing is read or sent (R143). -/
def execEncMem (a : Address) (s : State) : Outcome State Fault Refusal :=
  .next (accept (wordOperandLegal a s) (fun t => t.txPut (enc (t.imem.word a.toNat))) s)

end Sys2Proof.Machine
end

