-- ==== Sys2Proof/Machine/Framing.lean ====
section
/-! DEFINITION. The framing commands of 44_framing.md: FRM.SYNC, FRM.BYTE, FRM.FIELD. They append bytes and change nothing else (R151). -/

namespace Sys2Proof.Machine

open Host (Outcome)

/-- FRM.SYNC p: `0xFF, p`, never stuffed (R152). -/
def execFrmSync (p : Byte) (s : State) : Outcome State Fault Refusal := .next (accept true (State.txPut (sync p)) s)

/-- FRM.BYTE b: `StuffPut(b)` (R153). -/
def execFrmByte (b : Byte) (s : State) : Outcome State Fault Refusal := .next (accept true (State.stuffPut b) s)

/-- FRM.FIELD w: the four bytes of w, most significant first, each stuffed (R154). -/
def execFrmField (w : Word) (s : State) : Outcome State Fault Refusal := .next (accept true (State.txPut (field w)) s)

end Sys2Proof.Machine
end

