-- ==== Sys2Proof/Machine/Lfsr.lean ====
section
/-! DEFINITION. The LFSR commands of 41_lfsr.md: LFSR.SEED, LFSR.STEP, LFSR.TX, LFSR.CHK. -/

namespace Sys2Proof.Machine

open Host (Outcome)

/-- `LFSR <- v`. -/
def State.setLfsr (v : Byte) (s : State) : State := { s with lfsr := v }

/-- LFSR.SEED s: any value, 0 included (R104). -/
def execLfsrSeed (v : Byte) (s : State) : Outcome State Fault Refusal := .next (accept true (State.setLfsr v) s)

/-- The effect of LFSR.STEP: the output bit to `RES`, then one step, both from the old `LFSR` (R105). -/
def lfsrStepEffect (s : State) : State :=
  (s.setRes ((BitVec.ofBool (lfsrOut s.lfsr)).setWidth 32)).setLfsr (lfsrNext s.lfsr)

/-- LFSR.STEP (R105). -/
def execLfsrStep (s : State) : Outcome State Fault Refusal := .next (accept true lfsrStepEffect s)

/-- The effect of LFSR.TX: the handshake byte of the output bit goes out, then one step, both from the old `LFSR` (R106). -/
def lfsrTxEffect (s : State) : State := (s.txPut [handshakeByte (lfsrOut s.lfsr)]).setLfsr (lfsrNext s.lfsr)

/-- LFSR.TX (R106). -/
def execLfsrTx (s : State) : Outcome State Fault Refusal := .next (accept true lfsrTxEffect s)

/-- The effect of LFSR.CHK: 2 where RX is empty; else the first byte is consumed, and it passes (`RES <- 1`, one step) or fails (`RES <- 0`,
`FLT.HSF` set, `LFSR` unchanged) (R107, R202). -/
def lfsrChkEffect (s : State) : State :=
  match s.rx with
  | [] => s.setRes 2
  | y :: rest =>
    if handshakePasses y (lfsrOut s.lfsr) then { s with rx := rest, res := 1, lfsr := lfsrNext s.lfsr }
    else State.raise .hsf { s with rx := rest, res := 0 }

/-- LFSR.CHK (R107). -/
def execLfsrChk (s : State) : Outcome State Fault Refusal := .next (accept true lfsrChkEffect s)

end Sys2Proof.Machine
end

