-- ==== Sys2Proof/Machine/Plan.lean ====
section
/-! DEFINITION. The plan commands and SEQ.START of 45_sequencer.md sections 2 and 3. -/

namespace Sys2Proof.Machine

open Host (Outcome)

/-- PLAN.CLR: eight invalid entries (R161). -/
def execPlanClr (s : State) : Outcome State Fault Refusal := .next (accept true (State.setPlan .reset) s)

/-- PLAN.PTR c, p: `PLAN[c].ptr <- p`, the address not checked here (R162). -/
def execPlanPtr (c : CoreId) (p : Address) (s : State) : Outcome State Fault Refusal :=
  .next (accept (coreOperandLegal c) (fun t => t.setPlan (t.plan.modify c (fun e => { e with ptr := p }))) s)

/-- PLAN.LEN c, l: `PLAN[c].len <- l; PLAN[c].valid <- 1` (R163). -/
def execPlanLen (c : CoreId) (l : Address) (s : State) : Outcome State Fault Refusal :=
  .next (accept (lenOperandLegal c l) (fun t => t.setPlan (t.plan.modify c (fun e => { e with len := l, valid := true }))) s)

/-- PLAN.DEL c: `PLAN[c].valid <- 0`, `ptr` and `len` kept (R164). -/
def execPlanDel (c : CoreId) (s : State) : Outcome State Fault Refusal :=
  .next (accept (coreOperandLegal c) (fun t => t.setPlan (t.plan.modify c (fun e => { e with valid := false }))) s)

/-- The effect of SEQ.START: the session registers at their starting values, `LRC <- 0`; nothing is sent (R165). -/
def seqStartEffect (run eeprom : Bool) (s : State) : State :=
  { s with
    lrc := 0
    seq := { SeqRegs.reset with
      st := .run, ph := .ssync, n := BitVec.ofNat 4 s.plan.countValid, scan := 1, flags := sessionFlags run eeprom } }

/-- SEQ.START f (R165). -/
def execSeqStart (run eeprom : Bool) (s : State) : Outcome State Fault Refusal :=
  .next (accept (sessionLegal s) (seqStartEffect run eeprom) s)

end Sys2Proof.Machine
end

