-- ==== Sys2Proof/Machine/System.lean ====
section
/-! DEFINITION. The system commands of 40_system.md: NOP, RESET, RDR, RX.FLUSH, TX.RAW, RX.GET. -/

namespace Sys2Proof.Machine

open Host (Outcome)

/-- NOP: nothing; accepted while `ST = RUN` (R93). -/
def execNop (s : State) : Outcome State Fault Refusal := .next s

/-- RESET: the block's reset, in every state; the only way a bit of `FLT` is cleared (R94). -/
def execReset (s : State) : Outcome State Fault Refusal := .next s.resetBlock

/-- RDR r: `RES <- x[r]`; RANGE if r is no register number; accepted while `ST = RUN` (R95). -/
def execRdr (r : Byte) (s : State) : Outcome State Fault Refusal :=
  .next (match readRegister r s with
    | some v => s.setRes v
    | none => s.raise .range)

/-- RX.FLUSH: `RX <- []` (R96). -/
def execRxFlush (s : State) : Outcome State Fault Refusal := .next (accept true State.rxClear s)

/-- TX.RAW b: one raw byte, neither stuffed nor prefixed (R97). -/
def execTxRaw (b : Byte) (s : State) : Outcome State Fault Refusal := .next (accept true (State.txPut [b]) s)

/-- The effect of RX.GET: the first byte of RX goes to `RES`, or `RES <- 0x100` where there is none (R98). -/
def rxGetEffect (s : State) : State :=
  match s.rx with
  | y :: rest => { s with rx := rest, res := y.setWidth 32 }
  | [] => s.setRes 0x100

/-- RX.GET (R98). -/
def execRxGet (s : State) : Outcome State Fault Refusal := .next (accept true rxGetEffect s)

end Sys2Proof.Machine
end

