-- ==== Sys2Proof/Machine/Dispatch.lean ====
section
/-! DEFINITION. The meaning of every command: one arm per constructor of Instr, each one direct call. -/

namespace Sys2Proof.Machine

open Host

def exec (i : Instr) (s : State) : Host.Outcome State Fault Refusal :=
  match i with
  -- 40_system.md
  | .nop => Sys2Proof.Machine.execNop s
  | .reset => Sys2Proof.Machine.execReset s
  | .rdr r => Sys2Proof.Machine.execRdr r s
  | .rxFlush => Sys2Proof.Machine.execRxFlush s
  | .txRaw b => Sys2Proof.Machine.execTxRaw b s
  | .rxGet => Sys2Proof.Machine.execRxGet s
  -- 41_lfsr.md
  | .lfsrSeed v => Sys2Proof.Machine.execLfsrSeed v s
  | .lfsrStep => Sys2Proof.Machine.execLfsrStep s
  | .lfsrTx => Sys2Proof.Machine.execLfsrTx s
  | .lfsrChk => Sys2Proof.Machine.execLfsrChk s
  -- 42_checksum.md
  | .sumClr => Sys2Proof.Machine.execSumClr s
  | .sumAdd b => Sys2Proof.Machine.execSumAdd b s
  | .sumImg c => Sys2Proof.Machine.execSumImg c s
  | .sumMark m => Sys2Proof.Machine.execSumMark m s
  | .sumTest => Sys2Proof.Machine.execSumTest s
  | .lrcClr => Sys2Proof.Machine.execLrcClr s
  | .lrcXor b => Sys2Proof.Machine.execLrcXor b s
  -- 43_encoder.md
  | .encWord v => Sys2Proof.Machine.execEncWord v s
  | .encMem a => Sys2Proof.Machine.execEncMem a s
  -- 44_framing.md
  | .frmSync p => Sys2Proof.Machine.execFrmSync p s
  | .frmByte b => Sys2Proof.Machine.execFrmByte b s
  | .frmField w => Sys2Proof.Machine.execFrmField w s
  -- 45_sequencer.md
  | .planClr => Sys2Proof.Machine.execPlanClr s
  | .planPtr c p => Sys2Proof.Machine.execPlanPtr c p s
  | .planLen c l => Sys2Proof.Machine.execPlanLen c l s
  | .planDel c => Sys2Proof.Machine.execPlanDel c s
  | .seqStart run eeprom => Sys2Proof.Machine.execSeqStart run eeprom s

end Sys2Proof.Machine
end

