-- ==== Sys2Proof/Machine/Sequencer.lean ====
section
/-! DEFINITION. The steps of agent S, the sequencer, 45_sequencer.md section 4: one definition per phase, each one step. Where a rule names
something that does not exist (in states that no run reaches, R184), the step stops with a fault of its own name
(notes/assumptions/5.md). -/

namespace Sys2Proof.Machine

open Host (Outcome)

/-- PAGE_SIZE (R5). -/
def pageSize : Nat := 512

/-- The page that starts at offset o of the image of entry e: at most 512 bytes, or the marker page where no byte is left (R172). -/
def pageStarted (o : Address) (e : PlanEntry) (s : State) : State :=
  { s with
    lrc := 0
    seq := { s.seq with
      marker := !decide (o.toNat < e.len.toNat)
      chunk := if o.toNat < e.len.toNat then BitVec.ofNat 10 (min pageSize (e.len.toNat - o.toNat)) else 0
      idx := 0
      ph := .hdr } }

/-- `StartPage(o)`, for the image of core `COG` (R172). -/
def startPage (o : Address) (s : State) : Outcome State Fault Refusal :=
  match s.plan.entry? s.seq.cog with
  | none => .fault .planEntryAbsent
  | some e => .next (pageStarted o e s)

/-- Phase SSYNC: the session sync signal `0xFF, N` (R170). -/
def stepSsync (s : State) : Outcome State Fault Refusal :=
  .next { s.txPut (sync (s.seq.n.setWidth 8)) with seq := { s.seq with ph := .csync } }

/-- The core that is served next: its sync signal `0xFF, cogid` goes out (R171). -/
def coreSynced (c : CoreId) (s : State) : State :=
  { s.txPut (sync (c.setWidth 8)) with seq := { s.seq with cog := c, off := 0 } }

/-- Phase CSYNC: the sync signal `0xFF, cogid` of the next core, then its first page is set up (R171). -/
def stepCsync (s : State) : Outcome State Fault Refusal :=
  match s.plan.nextValid s.seq.scan.toNat with
  | none => .fault .nextCoreAbsent
  | some c => startPage 0 (coreSynced c s)

/-- The 24-bit address field of the page in progress: the marker address, or `(BASE + OFF) & 0xFFFFFF` (R173). -/
def pageAddress (q : SeqRegs) : Address := if q.marker then 0xFFFFFE else (q.base + q.off.setWidth 32).setWidth 24

/-- The eight unstuffed header bytes of the page in progress: core id and address, then the size, each most significant byte first
(R173, R68). -/
def headerBytes (q : SeqRegs) : List Byte :=
  be32 ((pageAddress q).setWidth 32 ||| (q.cog.setWidth 32 <<< 24)) ++ be32 (q.chunk.setWidth 32)

/-- Phase HDR: one header byte, stuffed; after the eighth comes the payload, or for the marker page the acknowledgment (R174). -/
def stepHdr (s : State) : Outcome State Fault Refusal :=
  match (headerBytes s.seq)[s.seq.idx.toNat]? with
  | none => .fault .headerByteAbsent
  | some b =>
    .next { s.stuffPut b with
      seq := if s.seq.idx = 7 then { s.seq with idx := 0, ackn := 0, ph := if s.seq.marker then .ack else .pay }
        else { s.seq with idx := s.seq.idx + 1 } }

/-- Phase PAY: one payload byte, stuffed, and XORed unstuffed into `LRC` (R176). -/
def stepPay (s : State) : Outcome State Fault Refusal :=
  match s.plan.entry? s.seq.cog with
  | none => .fault .planEntryAbsent
  | some e =>
    match s.imem.byteAt? (e.ptr.toNat + s.seq.off.toNat + s.seq.idx.toNat) with
    | none => .fault .imageAddressAbsent
    | some b =>
      if s.seq.idx.toNat + 1 = s.seq.chunk.toNat then
        .next { s.stuffPut b with lrc := s.lrc ^^^ b, seq := { s.seq with idx := 0, ph := .ack } }
      else if s.seq.idx.toNat + 1 < 1024 then
        .next { s.stuffPut b with lrc := s.lrc ^^^ b, seq := { s.seq with idx := s.seq.idx + 1 } }
      else .fault .registerOverflow

/-- The number of bytes that acknowledge the page in progress (R178, R180). -/
def ackNeed (s : State) : Nat :=
  if s.seq.marker then (match s.markerAckLen with | .one => 1 | .two => 2) else 3

/-- `o <- OFF + CHUNK; OFF <- o` (R179). -/
def offsetAdvanced (s : State) : State := { s with seq := { s.seq with off := s.seq.off + s.seq.chunk.setWidth 24 } }

/-- The verdict on a data page, `ACKB` complete: `0xFF`, the core id, the local LRC, tested in this order (R179). -/
def dataVerdict (s : State) : Outcome State Fault Refusal :=
  if s.seq.ackb[0] ≠ 0xFF then .next (s.abort .missingSyncByte)
  else if s.seq.ackb[1] ≠ s.seq.cog.setWidth 8 then .next (s.abort .cogMismatch)
  else if s.seq.ackb[2] ≠ s.lrc then .next (s.abort .checksumMismatch)
  else if s.seq.off.toNat + s.seq.chunk.toNat < 2 ^ 24 then
    startPage (s.seq.off + s.seq.chunk.setWidth 24) (offsetAdvanced s)
  else .fault .registerOverflow

/-- The verdict on the marker page: `0xFF, cogid` or `cogid`, by `MARKER_ACK_LEN` (R180). -/
def markerVerdict (s : State) : State :=
  match s.markerAckLen with
  | .two =>
    if s.seq.ackb[0] ≠ 0xFF then s.abort .missingSyncByte
    else if s.seq.ackb[1] ≠ s.seq.cog.setWidth 8 then s.abort .cogMismatch
    else { s with seq := { s.seq with ph := .next } }
  | .one =>
    if s.seq.ackb[0] ≠ s.seq.cog.setWidth 8 then s.abort .cogMismatch
    else { s with seq := { s.seq with ph := .next } }

/-- The first byte of RX, y, is stored as `ACKB[ACKN]` and counted (R178). -/
def ackStored (y : Byte) (rest : List Byte) (s : State) (h : s.seq.ackn.toNat < 3) : State :=
  { s with rx := rest, seq := { s.seq with ackb := s.seq.ackb.set s.seq.ackn.toNat y h, ackn := s.seq.ackn + 1 } }

/-- Phase ACK with a byte received: it is stored, and with the last byte of the acknowledgment the verdict is given in the same step; with
RX empty the sequencer holds (R167, R178). -/
def stepAck (s : State) : Outcome State Fault Refusal :=
  match s.rx with
  | [] => .next s
  | y :: rest =>
    if h : s.seq.ackn.toNat < 3 then
      if s.seq.ackn.toNat + 1 = ackNeed s then
        if s.seq.marker then .next (markerVerdict (ackStored y rest s h)) else dataVerdict (ackStored y rest s h)
      else .next (ackStored y rest s h)
    else .fault .ackByteAbsent

/-- The registers once an image is finished: the base offset advances by its length, the search goes on above its core (R181). -/
def imageDone (e : PlanEntry) (q : SeqRegs) : SeqRegs :=
  { q with base := q.base + e.len.setWidth 32, scan := q.cog + 1, marker := false }

/-- Phase NEXT: the base offset advances by the image's length; the next core, or success (R181). -/
def stepNext (s : State) : Outcome State Fault Refusal :=
  match s.plan.entry? s.seq.cog with
  | none => .fault .planEntryAbsent
  | some e =>
    .next { s with
      seq := if (s.plan.nextValid (s.seq.cog.toNat + 1)).isSome then { imageDone e s.seq with ph := .csync }
        else { imageDone e s.seq with st := .success, ph := .none } }

/-- Agent S has an enabled step (R167). -/
def sequencerEnabled (s : State) : Bool :=
  decide (s.seq.st = .run) &&
    (match s.seq.ph with
    | .ssync => true
    | .csync => true
    | .hdr => true
    | .pay => true
    | .next => true
    | .ack => !s.rx.isEmpty
    | .none => false)

/-- A turn of agent S: its one step where it has one, a hold otherwise (R167). -/
def sequencerStep (s : State) : Outcome State Fault Refusal :=
  if sequencerEnabled s then
    match s.seq.ph with
    | .none => .next s
    | .ssync => stepSsync s
    | .csync => stepCsync s
    | .hdr => stepHdr s
    | .pay => stepPay s
    | .ack => stepAck s
    | .next => stepNext s
  else .next s

end Sys2Proof.Machine
end

