-- ==== Sys2Proof/Machine/Port.lean ====
section
/-! DEFINITION. One step of each agent (00_scope.md R7): the command port takes a word (40_system.md R90), the sequencer takes its turn, the
environment delivers a byte. -/

namespace Sys2Proof.Machine

open Host (Outcome)

/-- The host's command index advances by one, whatever the command does (R12, R90). -/
def State.countCommand (s : State) : State := { s with ci := s.ci + 1 }

/-- Agent H's step: the word is decoded and its command executed whole; an illegal word is the fault ILL and nothing else (R90, R203). -/
def issueWord (w : CommandWord) (s : State) : Outcome State Fault Refusal :=
  match decode w with
  | .ok i => exec i s.countCommand
  | .error _ => .next (s.countCommand.raise .ill)

/-- A sequence of commands of agent H, no other agent between them: each sees the complete effect of every earlier one (R243). -/
def execAll : List Instr → State → Outcome State Fault Refusal
  | [], s => .next s
  | i :: is, s =>
    match exec i s with
    | .next t => execAll is t
    | .fault f => .fault f
    | .refused r => .refused r

/-- The step of the agent that an event names. The hardware reset input is treated as a RESET command of agent H (R230). -/
def takeEvent (e : Event) (s : State) : Outcome State Fault Refusal :=
  match e with
  | .command w => issueWord w s
  | .hardwareReset => exec .reset s.countCommand
  | .sequencer => sequencerStep s
  | .deliver b => .next (s.rxPut b)

/-- The event that is next, and the state without it: the first that the state lists, and where it lists none a free one (R7;
notes/assumptions/1.md). -/
def nextEvent (s : State) : Event × State :=
  match s.pending with
  | e :: rest => (e, { s with pending := rest })
  | [] => (Config.freeEvent s.turn, { s with turn := s.turn + 1 })

/-- The command word of a table row's bits (R75): what lies above bit 39 is no part of a command word. -/
def wordOfBits (w : Nat) : CommandWord := BitVec.ofNat 40 w

end Sys2Proof.Machine
end

