-- ==== Sys2Proof/Machine/Step.lean ====
section
/-! DEFINITION. The machine's step: one step of one agent. -/

namespace Sys2Proof.Machine

/-- One step: the agent whose turn it is takes it, whole (R7, R90, R167). -/
def step (s : State) : Host.Outcome State Fault Refusal := takeEvent (nextEvent s).1 (nextEvent s).2

/-- The state with the command word of these bits as the next event: the very next step runs it. There is no memory to fetch from; the
word is put on the command port from outside (R53, R75; notes/assumptions/2.md). A row has 40 bits, so `_nbits` adds nothing. -/
def State.withFetchWord (s : State) (_nbits w : Nat) : State := { s with pending := .command (wordOfBits w) :: s.pending }

end Sys2Proof.Machine
end

