-- ==== Sys2Proof/Machine/Assembler.lean ====
section
/-! DEFINITION. The assembler's lines and the pseudo-commands, 30_encoding.md R79 and R80: from a line of text to command words. No step of the
machine uses them; they say what a host's program text stands for. -/

namespace Sys2Proof

/-- The mnemonic of each command (R77, R79). -/
def Instr.mnemonic : Instr → String
  | .nop => "NOP"
  | .reset => "RESET"
  | .rdr _ => "RDR"
  | .rxFlush => "RX.FLUSH"
  | .txRaw _ => "TX.RAW"
  | .rxGet => "RX.GET"
  | .lfsrSeed _ => "LFSR.SEED"
  | .lfsrStep => "LFSR.STEP"
  | .lfsrTx => "LFSR.TX"
  | .lfsrChk => "LFSR.CHK"
  | .sumClr => "SUM.CLR"
  | .sumAdd _ => "SUM.ADD"
  | .sumImg _ => "SUM.IMG"
  | .sumMark _ => "SUM.MARK"
  | .sumTest => "SUM.TEST"
  | .lrcClr => "LRC.CLR"
  | .lrcXor _ => "LRC.XOR"
  | .encWord _ => "ENC.WORD"
  | .encMem _ => "ENC.MEM"
  | .frmSync _ => "FRM.SYNC"
  | .frmByte _ => "FRM.BYTE"
  | .frmField _ => "FRM.FIELD"
  | .planClr => "PLAN.CLR"
  | .planPtr _ _ => "PLAN.PTR"
  | .planLen _ _ => "PLAN.LEN"
  | .planDel _ => "PLAN.DEL"
  | .seqStart _ _ => "SEQ.START"

/-- The operands of each command as its line writes them (R79); SEQ.START's is the 2-bit flags value. -/
def Instr.operands : Instr → List Nat
  | .nop => []
  | .reset => []
  | .rdr r => [r.toNat]
  | .rxFlush => []
  | .txRaw b => [b.toNat]
  | .rxGet => []
  | .lfsrSeed v => [v.toNat]
  | .lfsrStep => []
  | .lfsrTx => []
  | .lfsrChk => []
  | .sumClr => []
  | .sumAdd b => [b.toNat]
  | .sumImg c => [c.toNat]
  | .sumMark m => [m.toNat]
  | .sumTest => []
  | .lrcClr => []
  | .lrcXor b => [b.toNat]
  | .encWord v => [v.toNat]
  | .encMem a => [a.toNat]
  | .frmSync p => [p.toNat]
  | .frmByte b => [b.toNat]
  | .frmField w => [w.toNat]
  | .planClr => []
  | .planPtr c p => [c.toNat, p.toNat]
  | .planLen c l => [c.toNat, l.toNat]
  | .planDel c => [c.toNat]
  | .seqStart run eeprom => [2 * eeprom.toNat + run.toNat]

/-- `arg`, assembled by the form from the operands' numbers (R76, R79). One number fills `arg` as it is, so a line can write a reserved bit
(95_test_vectors.md section 2.1, LFSR.SEED 0x150); a number that does not fit is no operand (notes/assumptions/11.md). -/
def assembleArg (f : Form) (operands : List Nat) : Option Word :=
  match f, operands with
  | .Z, [] => some 0
  | .Z, _ => none
  | .P, [c, v] => if c < 2 ^ 4 ∧ v < 2 ^ 24 then some (BitVec.ofNat 32 (c * 2 ^ 24 + v)) else none
  | .P, _ => none
  | _, [a] => if a < 2 ^ 32 then some (BitVec.ofNat 32 a) else none
  | _, _ => none

/-- The word `{op, arg}` of a mnemonic with its operands (R79). -/
def assembleCommand (mnemonic : String) (operands : List Nat) : Option CommandWord :=
  match opcodeTable.lookup mnemonic with
  | some (op, f) => (assembleArg f operands).map (fun arg => op ++ arg)
  | none => none

/-- The pseudo-commands, each the command sequence it abbreviates (R80). -/
def pseudoExpansion (mnemonic : String) (operands : List Nat) : Option (List (String × List Nat)) :=
  match mnemonic, operands with
  | "LFSR.INIT", [] => some [("LFSR.SEED", [0x50])]
  | "HS.TX", [n] => some (List.replicate n ("LFSR.TX", []))
  | "PLAN.SET", [c, p, l] => some [("PLAN.PTR", [c, p]), ("PLAN.LEN", [c, l])]
  | "VALIDATE", [c] => some [("SUM.CLR", []), ("SUM.IMG", [c]), ("SUM.MARK", [0]), ("SUM.TEST", [])]
  | "VALIDATE.EE", [c] => some [("SUM.CLR", []), ("SUM.IMG", [c]), ("SUM.MARK", [1]), ("SUM.TEST", [])]
  | _, _ => none

/-- The words of a command or of a pseudo-command (R79, R80). -/
def assembleAny (mnemonic : String) (operands : List Nat) : Option (List CommandWord) :=
  match pseudoExpansion mnemonic operands with
  | some steps => steps.mapM (fun x => assembleCommand x.1 x.2)
  | none => (assembleCommand mnemonic operands).map (fun w => [w])

/-- The value of a digit, decimal or hexadecimal. -/
def digitValue (c : Char) : Option Nat :=
  if '0' ≤ c ∧ c ≤ '9' then some (c.toNat - '0'.toNat)
  else if 'a' ≤ c ∧ c ≤ 'f' then some (c.toNat - 'a'.toNat + 10)
  else if 'A' ≤ c ∧ c ≤ 'F' then some (c.toNat - 'A'.toNat + 10)
  else none

/-- The number that digits write in a base, after what has been read so far. -/
def digitsValue (base : Nat) : List Char → Nat → Option Nat
  | [], n => some n
  | c :: cs, n =>
    match digitValue c with
    | some d => if d < base then digitsValue base cs (base * n + d) else none
    | none => none

/-- A number, decimal or `0x` hexadecimal (R79). -/
def numberValue (cs : List Char) : Option Nat :=
  match cs with
  | [] => none
  | ['0', 'x'] => none
  | '0' :: 'x' :: digits => digitsValue 16 digits 0
  | digits => digitsValue 10 digits 0

/-- The text without the spaces around it. -/
def trimSpaces (cs : List Char) : List Char :=
  ((cs.dropWhile (· == ' ')).reverse.dropWhile (· == ' ')).reverse

/-- The pieces of a text between its commas. -/
def splitCommas : List Char → List (List Char)
  | [] => [[]]
  | c :: cs =>
    match splitCommas cs with
    | piece :: pieces => if c == ',' then [] :: piece :: pieces else (c :: piece) :: pieces
    | [] => [[c]]

/-- The words of one line: a mnemonic, then its operands separated by commas; `;` starts a comment; a line without a command gives no word
(R79). What is no line of this form gives nothing. -/
def assembleLine (line : String) : Option (List CommandWord) :=
  let text := trimSpaces (line.toList.takeWhile (· != ';'))
  if text = [] then some []
  else
    let name := text.takeWhile (· != ' ')
    let rest := trimSpaces (text.drop name.length)
    let operands := if rest = [] then some [] else (splitCommas rest).mapM (fun piece => numberValue (trimSpaces piece))
    operands.bind (assembleAny (String.ofList name))

end Sys2Proof
end

