-- ==== Sys2Proof/Machine/Grammar.lean ====
section
/-! DEFINITION. The whole of a session on the wire, the grammar of 30_encoding.md R72, as a function of the plan and of image memory; and how
much of it a state in mid-session has sent. The step rules never use these: they are what the rules are held against. -/

namespace Sys2Proof.Machine

/-- The sum of the lengths of the valid images of cores below c (R72 `base`, R184). -/
def Plan.lenBelow (p : Plan) (c : CoreId) : Nat :=
  ((coreIds.filter (fun d => p.isValid d && decide (d.toNat < c.toNat))).map p.lenOf).sum

/-- `P = ceil(len / 512)`, the number of data pages of an image (R72, R183). -/
def pageCount (len : Nat) : Nat := (len + (pageSize - 1)) / pageSize

/-- The header word of a page of core c at a device address: address in the low 24 bits, core id above (R68). -/
def headerWord (c : CoreId) (address : Nat) : Word := c.setWidth 8 ++ BitVec.ofNat 24 address

/-- The j-th data page of an image of core c at base offset `base`, counted from 0: address header, size, payload, each stuffed (R72). -/
def dataPageWire (m : Memory) (c : CoreId) (base : Nat) (e : PlanEntry) (j : Nat) : List Byte :=
  let size := min pageSize (e.len.toNat - pageSize * j)
  field (headerWord c (base + pageSize * j)) ++ field (BitVec.ofNat 32 size) ++ stuff (m.bytes (e.ptr.toNat + pageSize * j) size)

/-- The marker page of core c: address 0xFFFFFE, size 0, no payload (R71). -/
def markerPageWire (c : CoreId) : List Byte := field (headerWord c 0xFFFFFE) ++ field 0

/-- The first k data pages of an image. -/
def dataPagesWire (m : Memory) (c : CoreId) (base : Nat) (e : PlanEntry) (k : Nat) : List Byte :=
  (List.range k).flatMap (dataPageWire m c base e)

/-- The transfer of one core: its sync signal, its data pages, its marker page (R72 `core`). -/
def coreWire (p : Plan) (m : Memory) (c : CoreId) : List Byte :=
  match p.entry? c with
  | some e => sync (c.setWidth 8) ++ dataPagesWire m c (p.lenBelow c) e (pageCount e.len.toNat) ++ markerPageWire c
  | none => []

/-- The transfers of the valid cores below c, in ascending order. -/
def coresBelowWire (p : Plan) (m : Memory) (c : Nat) : List Byte :=
  (coreIds.filter (fun d => p.isValid d && decide (d.toNat < c))).flatMap (coreWire p m)

/-- The whole of a successful session: the session sync signal, then every valid core in ascending order (R72 `session`). -/
def sessionWire (p : Plan) (m : Memory) : List Byte :=
  sync (BitVec.ofNat 8 p.countValid) ++ (coreIds.filter p.isValid).flatMap (coreWire p m)

/-- What the current core has sent before the page in progress: its sync signal and the data pages before `OFF`. -/
def coreSentBefore (s : State) (e : PlanEntry) : List Byte :=
  sync (s.seq.cog.setWidth 8) ++
    dataPagesWire s.imem s.seq.cog (s.plan.lenBelow s.seq.cog) e
      (if s.seq.marker then pageCount e.len.toNat else s.seq.off.toNat / pageSize)

/-- What the page in progress has sent: the header bytes before `IDX`, or the header and the payload bytes before `IDX`, or all of it. -/
def pageSent (s : State) (e : PlanEntry) : List Byte :=
  match s.seq.ph with
  | .hdr => stuff ((headerBytes s.seq).take s.seq.idx.toNat)
  | .pay => stuff (headerBytes s.seq) ++ stuff (s.imem.bytes (e.ptr.toNat + s.seq.off.toNat) s.seq.idx.toNat)
  | _ => stuff (headerBytes s.seq) ++ stuff (s.imem.bytes (e.ptr.toNat + s.seq.off.toNat) s.seq.chunk.toNat)

/-- What a session in progress has sent so far, as the grammar has it (R72). -/
def sentSoFar (s : State) : List Byte :=
  match s.seq.ph with
  | .none => []
  | .ssync => []
  | .csync => sync (BitVec.ofNat 8 s.plan.countValid) ++ coresBelowWire s.plan s.imem s.seq.scan.toNat
  | _ =>
    match s.plan.entry? s.seq.cog with
    | some e =>
      sync (BitVec.ofNat 8 s.plan.countValid) ++ coresBelowWire s.plan s.imem s.seq.cog.toNat ++ coreSentBefore s e ++ pageSent s e
    | none => []

/-- The number of sequencer steps from `StartPage(o)` to the end of the image's transfer: eight header bytes for each page left and for the
marker page, the payload bytes, three acknowledgment bytes a data page, the marker's acknowledgment, and NEXT (95_test_vectors.md section 2.6). -/
def stepsFromPage (markerAck len o : Nat) : Nat :=
  8 * (pageCount (len - o) + 1) + (len - o) + 3 * pageCount (len - o) + markerAck + 1

/-- `MARKER_ACK_LEN` as a number (R6). -/
def markerAckCount (s : State) : Nat :=
  match s.markerAckLen with
  | .one => 1
  | .two => 2

/-- The number of sequencer steps of the transfers of the valid cores from k on. -/
def stepsFromCore (s : State) (k : Nat) : Nat :=
  ((coreIds.filter (fun d => s.plan.isValid d && decide (k ≤ d.toNat))).map
    (fun d => 1 + stepsFromPage (markerAckCount s) (s.plan.lenOf d) 0)).sum

/-- The number of sequencer steps that a session in progress still takes if no acknowledgment aborts it (95_test_vectors.md section 2.6). -/
def stepsLeft (s : State) : Nat :=
  match s.seq.ph with
  | .none => 0
  | .ssync => 1 + stepsFromCore s 1
  | .csync => stepsFromCore s s.seq.scan.toNat
  | .hdr =>
    (8 - s.seq.idx.toNat) +
      (if s.seq.marker then markerAckCount s + 1
       else s.seq.chunk.toNat + 3 + stepsFromPage (markerAckCount s) (s.plan.lenOf s.seq.cog) (s.seq.off.toNat + s.seq.chunk.toNat)) +
      stepsFromCore s (s.seq.cog.toNat + 1)
  | .pay =>
    (s.seq.chunk.toNat - s.seq.idx.toNat) + 3 +
      stepsFromPage (markerAckCount s) (s.plan.lenOf s.seq.cog) (s.seq.off.toNat + s.seq.chunk.toNat) +
      stepsFromCore s (s.seq.cog.toNat + 1)
  | .ack =>
    (if s.seq.marker then markerAckCount s - s.seq.ackn.toNat + 1
     else (3 - s.seq.ackn.toNat) +
       stepsFromPage (markerAckCount s) (s.plan.lenOf s.seq.cog) (s.seq.off.toNat + s.seq.chunk.toNat)) +
      stepsFromCore s (s.seq.cog.toNat + 1)
  | .next => 1 + stepsFromCore s (s.seq.cog.toNat + 1)

end Sys2Proof.Machine
end

