-- ==== Sys2Proof/Machine/Device.lean ====
section
/-! DEFINITION. The ideal device of 95_test_vectors.md section 4: the one behaviour of agent E under which every session succeeds. A test aid of
the spec, no part of the block: `step` never uses it. -/

namespace Sys2Proof.Machine

open Host (Outcome)

/-- What the ideal device delivers in one go: in phase ACK with RX empty and `ACKN = 0`, the acknowledgment of the page just sent; its LRC is
the block's, the XOR of the payload bytes (section 4, R184). -/
def idealAnswer (s : State) : List Byte :=
  if s.seq.ph = .ack ∧ s.rx = [] ∧ s.seq.ackn = 0 then
    if s.seq.marker then
      (match s.markerAckLen with
      | .one => [s.seq.cog.setWidth 8]
      | .two => [0xFF, s.seq.cog.setWidth 8])
    else [0xFF, s.seq.cog.setWidth 8, s.lrc]
  else []

/-- A turn of the sequencer, the ideal device having delivered first what it delivers. -/
def idealTurn (s : State) : Outcome State Fault Refusal := sequencerStep { s with rx := s.rx ++ idealAnswer s }

/-- n turns of the sequencer beside the ideal device. -/
def idealRun : Nat → State → Outcome State Fault Refusal
  | 0, s => .next s
  | n + 1, s =>
    match idealTurn s with
    | .next t => idealRun n t
    | .fault f => .fault f
    | .refused r => .refused r

end Sys2Proof.Machine
end

