-- ==== Sys2Proof/Safety.lean ====
section
/-! DEFINITION. What counts as a legal state and a legal run, in the terms the statements use: the invariants of 45_sequencer.md R184 and of
10_state.md, and a session's run. -/

namespace Sys2Proof.Machine

/-- Every plan length is a multiple of 4 (R20: "kept so by R163"). -/
abbrev State.lengthsAligned (s : State) : Prop := ∀ k : Fin 8, (s.plan[k]).len.toNat % 4 = 0

/-- Every valid image lies inside image memory, as SEQ.START checked (R165). -/
abbrev State.imagesInMemory (s : State) : Prop := ∀ k : Fin 8, (s.plan[k]).valid = true → (s.plan[k]).fits s.imem = true

/-- The page in progress, of a core whose entry is e (R172, R184): a data page starts at a multiple of 512 below the image's end and holds
the next at most 512 bytes; the marker page stands at the image's end and is empty. R184's clause `OFF mod 512 = 0` holds of data pages
only (notes/assumptions/7.md). -/
def State.pageLegal (s : State) (e : PlanEntry) : Prop :=
  if s.seq.marker then s.seq.off = e.len ∧ s.seq.chunk = 0
  else s.seq.off.toNat < e.len.toNat ∧ s.seq.off.toNat % pageSize = 0 ∧
    s.seq.chunk.toNat = min pageSize (e.len.toNat - s.seq.off.toNat)

/-- How far the page in progress is, by phase (R184): the indexes are in range, `LRC` is the XOR of the payload bytes sent so
far, and no acknowledgment byte is counted before the page is out (R174). -/
def State.progressLegal (s : State) (e : PlanEntry) : Prop :=
  match s.seq.ph with
  | .hdr => s.seq.idx.toNat ≤ 7 ∧ s.lrc = 0
  | .pay => s.seq.marker = false ∧ s.seq.ackn = 0 ∧ s.seq.idx.toNat < s.seq.chunk.toNat ∧
      s.lrc = xorBytes (s.imem.bytes (e.ptr.toNat + s.seq.off.toNat) s.seq.idx.toNat)
  | .ack => s.seq.ackn.toNat < ackNeed s ∧
      s.lrc = xorBytes (s.imem.bytes (e.ptr.toNat + s.seq.off.toNat) s.seq.chunk.toNat)
  | .next => s.seq.marker = true ∧ s.lrc = 0
  | _ => True

/-- The session registers while `ST = RUN`, by phase (R184). -/
def State.phaseLegal (s : State) : Prop :=
  match s.seq.ph with
  | .none => False
  | .ssync => s.seq.scan = 1 ∧ s.seq.base = 0
  | .csync => (s.plan.nextValid s.seq.scan.toNat).isSome = true ∧ s.seq.base.toNat = s.plan.lenBelow s.seq.scan
  | _ => ∃ e, s.plan.entry? s.seq.cog = some e ∧ e.valid = true ∧ s.seq.base.toNat = s.plan.lenBelow s.seq.cog ∧
      s.pageLegal e ∧ s.progressLegal e

/-- A session in progress (R165, R184): the plan is the one SEQ.START accepted, `N` counts it, and the phase is legal. -/
def State.sessionInv (s : State) : Prop :=
  s.seq.n.toNat = s.plan.countValid ∧ 1 ≤ s.plan.countValid ∧ s.imagesInMemory ∧ s.phaseLegal

/-- The invariant of the block: reserved fault bits are 0 (R18), plan lengths are multiples of 4 (R20), `PH` is NONE outside a session
(R22), `REASON` tells an aborted session from every other (R23), image memory has its canonical form, and a session in progress is legal
(R184). -/
def State.Inv (s : State) : Prop :=
  s.flt &&& 0xFFFFFFF0 = 0 ∧ s.lengthsAligned ∧ (s.seq.st ≠ .run → s.seq.ph = .none) ∧
    (s.seq.st = .aborted ↔ s.seq.reason ≠ .none) ∧ s.imem.wf ∧ (s.seq.st = .run → s.sessionInv)

/-- SEQ.START has just been accepted: the session's first step is still to come (R165). -/
def State.sessionStarted (s : State) : Prop := s.seq.st = .run ∧ s.seq.ph = .ssync

/-- t is reached from s by steps of any agents, each taken while `ST = RUN`. -/
inductive SessionRun (s : State) : State → Prop where
  | start : SessionRun s s
  | step {t u : State} : SessionRun s t → t.seq.st = .run → step t = .next u → SessionRun s u

/-- The word is illegal: its opcode is not in the table, or a reserved bit of its operand form is 1 (R78, R205). -/
def illegalWord (w : CommandWord) : Prop :=
  ∀ row ∈ opcodeTable, opcodeField w = row.2.1 → argField w &&& row.2.2.reserved ≠ 0

/-- A word of this opcode with a 1 among the reserved bits of this form faults ILL: the command index advances, the bit is set, and nothing
else changes (R78, R90, R201). -/
def faultsIll (op : Byte) (f : Form) : Prop :=
  ∀ (w : CommandWord) (s : State), opcodeField w = op → argField w &&& f.reserved ≠ 0 →
    issueWord w s = .next { s with ci := s.ci + 1, flt := s.flt ||| 0x1 }

/-- The command faults BUSY in every state with `ST = RUN` and does nothing else (R92, R201). -/
def faultsBusy (i : Instr) : Prop :=
  ∀ s : State, s.seq.st = .run → exec i s = .next { s with flt := s.flt ||| 0x2 }

/-- The command faults RANGE where it would be accepted but the condition fails, and does nothing else (R201, R204). -/
def faultsRange (i : Instr) (bad : State → Prop) : Prop :=
  ∀ s : State, s.seq.st ≠ .run → bad s → exec i s = .next { s with flt := s.flt ||| 0x4 }

/-- The register numbers of the table of 10_state.md R31, written out. -/
def registerNumbers : List Byte :=
  [0x00, 0x01, 0x02, 0x03, 0x04, 0x06, 0x07, 0x08, 0x09, 0x0A] ++ [0x11, 0x12, 0x13, 0x14, 0x15, 0x16, 0x17, 0x18] ++
    [0x21, 0x22, 0x23, 0x24, 0x25, 0x26, 0x27, 0x28]

/-- Core id c is in 1..8 (R204). -/
abbrev coreInRange (c : CoreId) : Prop := 1 ≤ c.toNat ∧ c.toNat ≤ 8

/-- Every RANGE cause, by command, as the table of R204 lists them. -/
def operandOutOfRange : Instr → State → Prop
  | .rdr r, _ => r ∉ registerNumbers
  | .sumImg c, s =>
    ¬coreInRange c ∨ ∃ e, s.plan.entry? c = some e ∧ (e.valid = false ∨ s.imem.size.val < e.ptr.toNat + e.len.toNat)
  | .encMem a, s => a.toNat % 4 ≠ 0 ∨ s.imem.size.val < a.toNat + 4
  | .planPtr c _, _ => ¬coreInRange c
  | .planLen c l, _ => ¬coreInRange c ∨ l.toNat % 4 ≠ 0
  | .planDel c, _ => ¬coreInRange c
  | .seqStart _ _, s =>
    (∀ k : Fin 8, (s.plan[k]).valid = false) ∨
      ∃ k : Fin 8, (s.plan[k]).valid = true ∧ s.imem.size.val < (s.plan[k]).ptr.toNat + (s.plan[k]).len.toNat
  | .nop, _ => False
  | .reset, _ => False
  | .rxFlush, _ => False
  | .txRaw _, _ => False
  | .rxGet, _ => False
  | .lfsrSeed _, _ => False
  | .lfsrStep, _ => False
  | .lfsrTx, _ => False
  | .lfsrChk, _ => False
  | .sumClr, _ => False
  | .sumAdd _, _ => False
  | .sumMark _, _ => False
  | .sumTest, _ => False
  | .lrcClr, _ => False
  | .lrcXor _, _ => False
  | .encWord _, _ => False
  | .frmSync _, _ => False
  | .frmByte _, _ => False
  | .frmField _, _ => False
  | .planClr, _ => False

/-- The commands that the block accepts while `ST = RUN` (R92). -/
def acceptedInSession : Instr → Bool
  | .nop => true
  | .reset => true
  | .rdr _ => true
  | _ => false

/-- The sum of the n bytes of image memory from p, as a number (R120). -/
def Memory.byteSum (m : Memory) (p n : Nat) : Nat := ((List.range n).map (fun k => (m.byte (p + k)).toNat)).sum

/-- The source's `validate_checksum` of the n bytes from p: sum, marker constant, congruent to 0 modulo 256 (R120, R127). -/
def Memory.checksumValid (m : Memory) (p n : Nat) : Prop :=
  (m.byteSum p n + 2 * (0xFF + 0xFF + 0xF9 + 0xFF)) % 256 = 0

/-- The event is a reset of the block: the RESET command or the hardware reset input (R230). -/
def Event.isReset (e : Event) : Prop := e = .hardwareReset ∨ ∃ w, e = .command w ∧ decode w = .ok .reset

end Sys2Proof.Machine
end

