-- ==== Sys2Proof/Certificates/Slice0/Obligations.lean ====
section
/-! DEFINITION. The statements for the provers. Each cites the rule of spec/ that it formalises. -/

open Sys2Proof Sys2Proof.Machine

/-! ### Encoding (30_encoding.md part B) -/

/-- R75, R76, R79: no bit of an encoding is dropped; every command, with every operand, is read back from its word. -/
def Obligations.DecodeInvertsEncode : Prop := ∀ i : Instr, decode (encode i) = .ok i

/-- R78: a word that names a command is that command's one encoding. -/
def Obligations.EncodeInvertsDecode : Prop := ∀ (w : CommandWord) (i : Instr), decode w = .ok i → encode i = w

/-- R77: a word names a row's command exactly when `C & mask == match`, and a word that matches no row is illegal. -/
def Obligations.DecodeFollowsOpcodeTable : Prop :=
  opcodeTable.length = 27 ∧
  (∀ (w : CommandWord), ∀ row ∈ opcodeTable,
    (w &&& rowMask row.2.2 = rowMatch row.2.1 ↔ ∃ i, decode w = .ok i ∧ i.opcode = row.2.1)) ∧
  ∀ w : CommandWord, (∀ row ∈ opcodeTable, w &&& rowMask row.2.2 ≠ rowMatch row.2.1) → ∃ e, decode w = .error e

/-- R78: every word either names one command or is illegal, by its opcode (229 of the 256 are unused) or by a reserved bit; an illegal word
faults ILL and does nothing else. -/
def Obligations.IllegalWordsFaultIll : Prop :=
  ((List.range 256).filter (fun n => opcodeTable.all (fun row => row.2.1.toNat != n))).length = 229 ∧
  (∀ w : CommandWord, illegalWord w ↔ ∃ e, decode w = .error e) ∧
  ∀ (w : CommandWord) (s : State), illegalWord w → issueWord w s = .next { s with ci := s.ci + 1, flt := s.flt ||| 0x1 }

/-- Words written out from the spec's encodings (R76, R93, R95, R124, R125, R142, R143, R162, R163, R164, R165), at least one of each of the eight
operand forms, decode to the commands they stand for. -/
def Obligations.WrittenOutWordsDecode : Prop :=
  decode 0x0000000000 = .ok .nop ∧ decode 0x02000000A7 = .ok (.rdr 0xA7) ∧ decode 0x2300000001 = .ok (.sumMark true) ∧
  decode 0x3012345678 = .ok (.encWord 0x12345678) ∧ decode 0x3100ABCDEF = .ok (.encMem 0xABCDEF) ∧
  decode 0x220000000D = .ok (.sumImg 0xD) ∧ decode 0x5300000007 = .ok (.planDel 7) ∧
  decode 0x510CABCDEF = .ok (.planPtr 0xC 0xABCDEF) ∧ decode 0x5202000008 = .ok (.planLen 2 8) ∧
  decode 0x5800000002 = .ok (.seqStart false true)

/-- R79, R77: a command's mnemonic with its operands assembles to its word, and its mnemonic, opcode and form are a row of the table; lines of
text, a comment, a hexadecimal operand and the pseudo-commands of R80 among them. -/
def Obligations.AssembledLinesAreTheirWords : Prop :=
  (∀ i : Instr, assembleCommand i.mnemonic i.operands = some (encode i) ∧ (i.mnemonic, i.opcode, i.form) ∈ opcodeTable) ∧
  assembleLine "PLAN.LEN 2, 8" = some [0x5202000008] ∧ assembleLine " RDR 0x1F ; a comment" = some [0x020000001F] ∧
  assembleLine "; nothing" = some [] ∧ assembleLine "LFSR.INIT" = some [0x1000000050] ∧
  assembleLine "PLAN.SET 3, 0x10, 12" = some [0x5103000010, 0x520300000C] ∧
  assembleLine "VALIDATE 4" = some [0x2000000000, 0x2200000004, 0x2300000000, 0x2400000000] ∧
  assembleLine "VALIDATE.EE 4" = some [0x2000000000, 0x2200000004, 0x2300000001, 0x2400000000] ∧
  ∀ n : Nat, assembleAny "HS.TX" [n] = some (List.replicate n 0x1200000000)

/-! ### The step (00_scope.md R7, 40_system.md R90) -/

/-- R90: where the next event is a command word the step is that word issued, legal or not (what an illegal one does: IllegalWordsFaultIll); where
it decodes to i the step is exec of i, the command index advanced by one (R12); a word put on the port from outside is that event (the
model's convention, notes/assumptions/1.md, 2.md). -/
def Obligations.StepRunsDecodedCommand : Prop :=
  (∀ (s : State) (w : CommandWord) (rest : List Event), s.pending = .command w :: rest → step s = issueWord w { s with pending := rest }) ∧
  (∀ (s : State) (w : CommandWord) (rest : List Event) (i : Instr), s.pending = .command w :: rest → decode w = .ok i →
    step s = exec i { s with pending := rest, ci := s.ci + 1 }) ∧
  ∀ (s : State) (w : Nat) (i : Instr), decodeTableWord 40 w = some i → step (s.withFetchWord 40 w) = exec i { s with ci := s.ci + 1 }

/-- The other agents' turns: the sequencer takes its step (R167), the environment appends one byte to RX (R28), the reset input acts as a RESET
command (R230). That the order stands in a list of events, and is a free value where the list is empty, is the model's choice
(notes/assumptions/1.md). -/
def Obligations.StepTakesOtherAgentsTurns : Prop :=
  ∀ (s : State) (rest : List Event),
    (s.pending = .sequencer :: rest → step s = sequencerStep { s with pending := rest }) ∧
    (∀ b, s.pending = .deliver b :: rest → step s = .next { s with pending := rest, rx := s.rx ++ [b] }) ∧
    (s.pending = .hardwareReset :: rest → step s = exec .reset { s with pending := rest, ci := s.ci + 1 }) ∧
    (s.pending = [] → step s = takeEvent (Config.freeEvent s.turn) { s with turn := s.turn + 1 })

/-- R203, R204: the checks of one command, in their order: illegal word, BUSY, RANGE; the first that fails sets its one bit and nothing else
changes; a command that passes all executes and sets none of the three. -/
def Obligations.CommandChecksInOrder : Prop :=
  ∀ (w : CommandWord) (s : State),
    (illegalWord w → issueWord w s = .next { s with ci := s.ci + 1, flt := s.flt ||| 0x1 }) ∧
    ∀ i, decode w = .ok i →
      issueWord w s = exec i { s with ci := s.ci + 1 } ∧
      (s.seq.st = .run → acceptedInSession i = false → issueWord w s = .next { s with ci := s.ci + 1, flt := s.flt ||| 0x2 }) ∧
      ((s.seq.st ≠ .run ∨ acceptedInSession i = true) → operandOutOfRange i s →
        issueWord w s = .next { s with ci := s.ci + 1, flt := s.flt ||| 0x4 }) ∧
      ((s.seq.st ≠ .run ∨ acceptedInSession i = true) → ¬operandOutOfRange i s → i ≠ .reset →
        ∃ t, issueWord w s = .next t ∧ t.flt &&& 0x7 = s.flt &&& 0x7)

/-- R92: while `ST = RUN` a command other than RESET writes nothing but `RES` and `FLT`. -/
def Obligations.CommandsInSessionTouchOnlyResAndFlt : Prop :=
  ∀ (i : Instr) (s t : State), s.seq.st = .run → i ≠ .reset → exec i s = .next t → t = { s with res := t.res, flt := t.flt }

/-! ### System commands (40_system.md) -/

/-- R93. -/
def Obligations.NopChangesNothing : Prop :=
  encode .nop = 0x0000000000 ∧ faultsIll 0x00 .Z ∧ ∀ s : State, exec .nop s = .next s

/-- R94, R230, R32: RESET and the reset input give every register its reset value and empty RX, in every state; TX and the parameters are
unchanged. That the reset input advances the command index and that a reset leaves the model's own `ci`, `pending` and `turn` is the model's
choice (notes/assumptions/8.md). -/
def Obligations.ResetGivesEveryRegisterItsValue : Prop :=
  encode .reset = 0x0100000000 ∧ faultsIll 0x01 .Z ∧
  (∀ s : State, takeEvent .hardwareReset s = exec .reset { s with ci := s.ci + 1 }) ∧
  ∀ s : State, exec .reset s = .next
    { lfsr := 0x50, sum := 0x00, lrc := 0x00, res := 0, flt := 0
      plan := Vector.replicate 8 { valid := false, ptr := 0, len := 0 }
      seq := { st := .idle, ph := .none, reason := .none, n := 0, cog := 0, scan := 0, marker := false, base := 0, off := 0, chunk := 0,
               idx := 0, flags := 0, ackb := Vector.replicate 3 0, ackn := 0 }
      tx := s.tx, rx := [], imem := s.imem, markerAckLen := s.markerAckLen, ci := s.ci, pending := s.pending, turn := s.turn }

/-- R231: the initial state, for any parameters, is what a reset leaves, with TX empty; the machine's reset state is one of these. That a reset
leaves the model's own `ci`, `pending` and `turn` is the model's choice (notes/assumptions/8.md), and so are the parameters that the reset
state takes (notes/assumptions/3.md, 4.md). -/
def Obligations.InitialStateIsResetStateWithTxEmpty : Prop :=
  (∀ (m : Memory) (l : MarkerAckLen) (s : State), s.imem = m → s.markerAckLen = l →
    exec .reset s = .next { State.initial m l with tx := s.tx, ci := s.ci, pending := s.pending, turn := s.turn }) ∧
  (∀ (m : Memory) (l : MarkerAckLen), (State.initial m l).tx = [] ∧ (State.initial m l).imem = m) ∧
  ∃ (m : Memory) (l : MarkerAckLen), State.reset = State.initial m l

/-- R95, R31: RDR writes the register of the number to `RES` and nothing else, in every state; any other number faults RANGE. -/
def Obligations.RdrReadsTheNumberedRegister : Prop :=
  (∀ r : Byte, encode (.rdr r) = (0x02 : Byte) ++ (0 : BitVec 24) ++ r) ∧ faultsIll 0x02 .B ∧
  (∀ (s : State) (r : Byte), r ∉ registerNumbers → exec (.rdr r) s = .next { s with flt := s.flt ||| 0x4 }) ∧
  ∀ s : State,
    exec (.rdr 0x00) s = .next { s with res := statusWord s.seq } ∧
    exec (.rdr 0x01) s = .next { s with res := s.flt } ∧
    exec (.rdr 0x02) s = .next { s with res := s.lfsr.setWidth 32 } ∧
    exec (.rdr 0x03) s = .next { s with res := s.sum.setWidth 32 } ∧
    exec (.rdr 0x04) s = .next { s with res := s.lrc.setWidth 32 } ∧
    exec (.rdr 0x06) s = .next { s with res := s.seq.base } ∧
    exec (.rdr 0x07) s = .next { s with res := s.seq.off.setWidth 32 } ∧
    exec (.rdr 0x08) s = .next { s with res := s.seq.chunk.setWidth 32 } ∧
    exec (.rdr 0x09) s = .next { s with res := s.seq.idx.setWidth 32 } ∧
    exec (.rdr 0x0A) s = .next { s with res := (0 : BitVec 6) ++ s.seq.ackn ++ s.seq.ackb[2] ++ s.seq.ackb[1] ++ s.seq.ackb[0] } ∧
    ∀ k : Fin 8,
      exec (.rdr (BitVec.ofNat 8 (0x11 + k.val))) s = .next { s with res := (s.plan[k]).ptr.setWidth 32 } ∧
      exec (.rdr (BitVec.ofNat 8 (0x21 + k.val))) s =
        .next { s with res := BitVec.ofBool (s.plan[k]).valid ++ (0 : BitVec 7) ++ (s.plan[k]).len }

/-- R26: the fields of `STATUS`, which RDR number 0x00 answers, and its reset value; R21 to R23: the codes of `ST`, `PH` and `REASON`. -/
def Obligations.StatusFieldsStandWhereListed : Prop :=
  (∀ s : State, exec (.rdr 0x00) s = .next { s with res := statusWord s.seq }) ∧
  ∀ q : SeqRegs,
    (statusWord q).extractLsb' 0 2 = q.st.code ∧ (statusWord q).extractLsb' 2 3 = q.ph.code ∧
    (statusWord q).extractLsb' 5 3 = q.reason.code ∧ (statusWord q).extractLsb' 8 4 = q.cog ∧
    (statusWord q).extractLsb' 12 4 = q.n ∧ (statusWord q).extractLsb' 16 4 = q.scan ∧
    (statusWord q).getLsbD 20 = q.marker ∧ (statusWord q).extractLsb' 21 2 = q.flags ∧
    (statusWord q).extractLsb' 23 9 = 0 ∧ statusWord SeqRegs.reset = 0 ∧
    (q.st.code = match q.st with | .idle => 0 | .run => 1 | .success => 2 | .aborted => 3) ∧
    (q.ph.code = match q.ph with | .none => 0 | .ssync => 1 | .csync => 2 | .hdr => 3 | .pay => 4 | .ack => 5 | .next => 6) ∧
    (q.reason.code = match q.reason with | .none => 0 | .missingSyncByte => 1 | .cogMismatch => 2 | .checksumMismatch => 3)

/-- R96, R98: RX.FLUSH empties RX; RX.GET answers the first byte and removes it, or 0x100. -/
def Obligations.RxFlushAndRxGet : Prop :=
  encode .rxFlush = 0x0300000000 ∧ faultsIll 0x03 .Z ∧ faultsBusy .rxFlush ∧
  encode .rxGet = 0x0500000000 ∧ faultsIll 0x05 .Z ∧ faultsBusy .rxGet ∧
  ∀ s : State, s.seq.st ≠ .run →
    exec .rxFlush s = .next { s with rx := [] } ∧
    (s.rx = [] → exec .rxGet s = .next { s with res := 0x100 }) ∧
    ∀ y rest, s.rx = y :: rest → exec .rxGet s = .next { s with rx := rest, res := y.setWidth 32 }

/-- R97: TX.RAW sends its byte as it is. -/
def Obligations.TxRawSendsTheByteAsItIs : Prop :=
  (∀ b : Byte, encode (.txRaw b) = (0x04 : Byte) ++ (0 : BitVec 24) ++ b ∧ faultsBusy (.txRaw b)) ∧ faultsIll 0x04 .B ∧
  ∀ (b : Byte) (s : State), s.seq.st ≠ .run → exec (.txRaw b) s = .next { s with tx := s.tx ++ [b] }

/-! ### LFSR (41_lfsr.md) -/

/-- R100, R101, as numbers: the state is doubled modulo 256 and the parity of bits 7, 5, 4, 1 added; the output is the old state modulo 2. -/
def Obligations.LfsrStepShiftsInTheTapParity : Prop :=
  ∀ v : Byte,
    (lfsrNext v).toNat = 2 * v.toNat % 256 + (v.toNat / 128 + v.toNat / 32 + v.toNat / 16 + v.toNat / 2) % 2 ∧
    (lfsrOut v = true ↔ v.toNat % 2 = 1)

/-- R103: the step is a bijection; 0 is a fixed point; the other 255 values form one cycle of length 255, so the bit sequence has period 255;
the states and bits from seed 0x50. -/
def Obligations.LfsrRunsThroughOneCycleOf255States : Prop :=
  Function.Bijective lfsrNext ∧ lfsrNext 0 = 0 ∧
  (∀ v w : Byte, v ≠ 0 → w ≠ 0 → ∃ k < 255, lfsrIterate k v = w) ∧
  (∀ v : Byte, lfsrIterate 255 v = v) ∧
  lfsrOut 0 = false ∧ (∀ (v : Byte) (k : Nat), lfsrOut (lfsrIterate (k + 255) v) = lfsrOut (lfsrIterate k v)) ∧
  (List.range 16).map (fun k => lfsrIterate k 0x50) =
    [0x50, 0xA1, 0x42, 0x85, 0x0B, 0x17, 0x2E, 0x5C, 0xB9, 0x73, 0xE7, 0xCF, 0x9E, 0x3D, 0x7A, 0xF5] ∧
  (List.range 16).map (fun k => (BitVec.ofBool (lfsrOut (lfsrIterate k 0x50))).toNat) = [0, 1, 0, 1, 1, 1, 0, 0, 1, 1, 1, 1, 0, 1, 0, 1] ∧
  lfsrIterate 250 0x50 = 0x9A ∧ lfsrIterate 500 0x50 = 0x14

/-- R104, R105, R106: seeding, one step with its bit in `RES`, one step with its handshake byte on TX. -/
def Obligations.LfsrSeedStepAndTransmit : Prop :=
  (∀ v : Byte, encode (.lfsrSeed v) = (0x10 : Byte) ++ (0 : BitVec 24) ++ v ∧ faultsBusy (.lfsrSeed v)) ∧ faultsIll 0x10 .B ∧
  encode .lfsrStep = 0x1100000000 ∧ faultsIll 0x11 .Z ∧ faultsBusy .lfsrStep ∧
  encode .lfsrTx = 0x1200000000 ∧ faultsIll 0x12 .Z ∧ faultsBusy .lfsrTx ∧
  ∀ s : State, s.seq.st ≠ .run →
    (∀ v, exec (.lfsrSeed v) s = .next { s with lfsr := v }) ∧
    exec .lfsrStep s = .next { s with res := s.lfsr.setWidth 32 &&& 1, lfsr := lfsrNext s.lfsr } ∧
    exec .lfsrTx s = .next { s with tx := s.tx ++ [0xFE ||| (s.lfsr &&& 1)], lfsr := lfsrNext s.lfsr }

/-- R107, R202: LFSR.CHK answers 2 with RX empty; else it consumes a byte, which passes exactly when it is 0xFE or 0xFF with the expected bit;
a byte that fails sets HSF and leaves the LFSR. -/
def Obligations.LfsrCheckComparesTheEchoedBit : Prop :=
  encode .lfsrChk = 0x1300000000 ∧ faultsIll 0x13 .Z ∧ faultsBusy .lfsrChk ∧
  ∀ s : State, s.seq.st ≠ .run →
    (s.rx = [] → exec .lfsrChk s = .next { s with res := 2 }) ∧
    ∀ y rest, s.rx = y :: rest →
      ((y = 0xFE ∨ y = 0xFF) ∧ y &&& 1 = s.lfsr &&& 1 →
        exec .lfsrChk s = .next { s with rx := rest, res := 1, lfsr := lfsrNext s.lfsr }) ∧
      (¬((y = 0xFE ∨ y = 0xFF) ∧ y &&& 1 = s.lfsr &&& 1) →
        exec .lfsrChk s = .next { s with rx := rest, res := 0, flt := s.flt ||| 0x8 })

/-- R102, R108: the first bit of the sequence is the seed's bit 0; n LFSR.TX send the handshake bytes of bits 0 to n - 1, and LFSR.CHK on the
handshake bytes of the next bits pass one after the other. -/
def Obligations.LfsrCommandsRunTheBitSequence : Prop :=
  (∀ seed : Byte, lfsrBit seed 0 = seed.getLsbD 0) ∧
  ∀ (n : Nat) (s : State), s.seq.st ≠ .run →
    execAll (List.replicate n .lfsrTx) s = .next { s with
      tx := s.tx ++ (List.range n).map (fun k => handshakeByte (lfsrBit s.lfsr k)), lfsr := lfsrIterate n s.lfsr } ∧
    ∀ rest, s.rx = (List.range (n + 1)).map (fun k => handshakeByte (lfsrBit s.lfsr k)) ++ rest →
      execAll (List.replicate (n + 1) .lfsrChk) s = .next { s with rx := rest, res := 1, lfsr := lfsrIterate (n + 1) s.lfsr }

/-! ### Checksums (42_checksum.md) -/

/-- R122, R123, R125, R126. -/
def Obligations.SumClearAddMarkAndTest : Prop :=
  encode .sumClr = 0x2000000000 ∧ faultsIll 0x20 .Z ∧ faultsBusy .sumClr ∧
  (∀ b : Byte, encode (.sumAdd b) = (0x21 : Byte) ++ (0 : BitVec 24) ++ b ∧ faultsBusy (.sumAdd b)) ∧ faultsIll 0x21 .B ∧
  encode (.sumMark false) = 0x2300000000 ∧ encode (.sumMark true) = 0x2300000001 ∧ faultsIll 0x23 .M ∧
  (∀ m, faultsBusy (.sumMark m)) ∧ encode .sumTest = 0x2400000000 ∧ faultsIll 0x24 .Z ∧ faultsBusy .sumTest ∧
  ∀ s : State, s.seq.st ≠ .run →
    exec .sumClr s = .next { s with sum := 0 } ∧
    (∀ b, exec (.sumAdd b) s = .next { s with sum := BitVec.ofNat 8 ((s.sum.toNat + b.toNat) % 256) }) ∧
    exec (.sumMark false) s = .next { s with sum := BitVec.ofNat 8 ((s.sum.toNat + 0xEC) % 256) } ∧
    exec (.sumMark true) s = .next { s with sum := BitVec.ofNat 8 ((s.sum.toNat + 0xD8) % 256) } ∧
    (s.sum = 0 → exec .sumTest s = .next { s with res := 1 }) ∧ (s.sum ≠ 0 → exec .sumTest s = .next { s with res := 0 })

/-- R124: every byte of the image is added, modulo 256, with nothing else changed; RANGE for a bad core id, an invalid entry, or an image that
does not lie inside image memory. -/
def Obligations.SumImgAddsEveryImageByte : Prop :=
  (∀ c : CoreId, encode (.sumImg c) = (0x22 : Byte) ++ (0 : BitVec 28) ++ c ∧ faultsBusy (.sumImg c) ∧
    faultsRange (.sumImg c) (operandOutOfRange (.sumImg c))) ∧ faultsIll 0x22 .C ∧
  ∀ (c : CoreId) (e : PlanEntry) (s : State), s.seq.st ≠ .run → s.plan.entry? c = some e → e.valid = true →
    e.ptr.toNat + e.len.toNat ≤ s.imem.size.val →
    exec (.sumImg c) s =
      .next { s with sum := BitVec.ofNat 8 ((s.sum.toNat + s.imem.byteSum e.ptr.toNat e.len.toNat) % 256) }

/-- R127: SUM.CLR, SUM.IMG c, SUM.MARK 0, SUM.TEST is the source's `validate_checksum`, and one byte of a valid image changed makes it
invalid. -/
def Obligations.ValidateSequenceDecidesTheChecksum : Prop :=
  (∀ (c : CoreId) (e : PlanEntry) (s : State), s.seq.st ≠ .run → s.plan.entry? c = some e → e.valid = true →
    e.ptr.toNat + e.len.toNat ≤ s.imem.size.val →
    ∃ s₁ s₂ s₃ s₄, exec .sumClr s = .next s₁ ∧ exec (.sumImg c) s₁ = .next s₂ ∧ exec (.sumMark false) s₂ = .next s₃ ∧
      exec .sumTest s₃ = .next s₄ ∧ (s₄.res = 1 ↔ s.imem.checksumValid e.ptr.toNat e.len.toNat) ∧ (s₄.res = 0 ∨ s₄.res = 1)) ∧
  ∀ (m m' : Memory) (p n a : Nat), p ≤ a → a < p + n → m.byte a ≠ m'.byte a → (∀ b, b ≠ a → m.byte b = m'.byte b) →
    m.checksumValid p n → ¬m'.checksumValid p n

/-- R128: the byte at offset 5 that makes an image valid is this one and no other. -/
def Obligations.ChecksumByteMakesTheImageValid : Prop :=
  ∀ (bs : List Byte) (b : Byte), 5 < bs.length →
    ((((bs.set 5 b).map BitVec.toNat).sum + 2 * (0xFF + 0xFF + 0xF9 + 0xFF)) % 256 = 0 ↔ b = checksumByte bs)

/-- R130, R131. -/
def Obligations.LrcClearAndXor : Prop :=
  encode .lrcClr = 0x2800000000 ∧ faultsIll 0x28 .Z ∧ faultsBusy .lrcClr ∧
  (∀ b : Byte, encode (.lrcXor b) = (0x29 : Byte) ++ (0 : BitVec 24) ++ b ∧ faultsBusy (.lrcXor b)) ∧ faultsIll 0x29 .B ∧
  ∀ s : State, s.seq.st ≠ .run →
    exec .lrcClr s = .next { s with lrc := 0 } ∧ ∀ b, exec (.lrcXor b) s = .next { s with lrc := s.lrc ^^^ b }

/-! ### Encoder (43_encoder.md) -/

/-- R140, R141: the eleven bytes are the source's loop, `value >>= 3` each time, ten data bytes and one final byte. -/
def Obligations.EncoderIsTheSourceLoop : Prop :=
  ∀ v : Word, (enc v).length = 11 ∧
    (∀ k < 10, (enc v)[k]? = some (((0x92 : Word) ||| ((v >>> (3 * k)) &&& 1) ||| (((v >>> (3 * k)) &&& 2) <<< 2) |||
      (((v >>> (3 * k)) &&& 4) <<< 4)).setWidth 8)) ∧
    (enc v)[10]? = some (((0xF2 : Word) ||| ((v >>> 30) &&& 1) ||| (((v >>> 30) &&& 2) <<< 2)).setWidth 8) ∧
    ∀ b ∈ enc v, b.getLsbD 7 = true ∧ b.getLsbD 4 = true ∧ b.getLsbD 1 = true ∧ b.getLsbD 2 = false

/-- R65: the reference decoder recovers every word. -/
def Obligations.ReferenceDecoderRecoversTheWord : Prop := ∀ v : Word, unenc (enc v) = v

/-- R142, R143, with R41 for the word read: the eleven bytes of the operand, or of the aligned little-endian word in image memory. -/
def Obligations.EncWordAndEncMemSendElevenBytes : Prop :=
  (∀ v : Word, encode (.encWord v) = (0x30 : Byte) ++ v ∧ faultsBusy (.encWord v)) ∧
  (∀ a : Address, encode (.encMem a) = (0x31 : Byte) ++ (0 : Byte) ++ a ∧ faultsBusy (.encMem a) ∧
    faultsRange (.encMem a) (operandOutOfRange (.encMem a))) ∧ faultsIll 0x31 .A ∧
  ∀ s : State, s.seq.st ≠ .run →
    (∀ v, exec (.encWord v) s = .next { s with tx := s.tx ++ enc v }) ∧
    ∀ (a : Address) (v : Word), a.toNat % 4 = 0 → a.toNat + 4 ≤ s.imem.size.val →
      v.toNat = (s.imem.byte a.toNat).toNat + 2 ^ 8 * (s.imem.byte (a.toNat + 1)).toNat +
        2 ^ 16 * (s.imem.byte (a.toNat + 2)).toNat + 2 ^ 24 * (s.imem.byte (a.toNat + 3)).toNat →
      exec (.encMem a) s = .next { s with tx := s.tx ++ enc v }

/-! ### Framing (44_framing.md) -/

/-- R152, R153, R154: the sync signal is not stuffed; a byte 0xFF is followed by 0x00; a field goes out most significant byte first. -/
def Obligations.FramingCommandsSendTheirBytes : Prop :=
  (∀ p : Byte, encode (.frmSync p) = (0x40 : Byte) ++ (0 : BitVec 24) ++ p ∧ faultsBusy (.frmSync p)) ∧ faultsIll 0x40 .B ∧
  (∀ b : Byte, encode (.frmByte b) = (0x41 : Byte) ++ (0 : BitVec 24) ++ b ∧ faultsBusy (.frmByte b)) ∧ faultsIll 0x41 .B ∧
  (∀ w : Word, encode (.frmField w) = (0x42 : Byte) ++ w ∧ faultsBusy (.frmField w)) ∧
  ∀ s : State, s.seq.st ≠ .run →
    (∀ p, exec (.frmSync p) s = .next { s with tx := s.tx ++ [0xFF, p] }) ∧
    exec (.frmByte 0xFF) s = .next { s with tx := s.tx ++ [0xFF, 0x00] } ∧
    (∀ b, b ≠ 0xFF → exec (.frmByte b) s = .next { s with tx := s.tx ++ [b] }) ∧
    ∀ b₃ b₂ b₁ b₀ : Byte, exec (.frmField (b₃ ++ b₂ ++ b₁ ++ b₀)) s =
      .next { s with tx := s.tx ++ stuff1 b₃ ++ stuff1 b₂ ++ stuff1 b₁ ++ stuff1 b₀ }

/-- R155: a data page sent by hand, FRM.FIELD, FRM.FIELD and one FRM.BYTE per payload byte, is the same bytes as the sequencer's page. -/
def Obligations.HandBuiltPageSendsTheSameBytes : Prop :=
  ∀ (s : State) (c : CoreId) (base j : Nat) (e : PlanEntry), s.seq.st ≠ .run →
    execAll ([.frmField (headerWord c (base + 512 * j)), .frmField (BitVec.ofNat 32 (min 512 (e.len.toNat - 512 * j)))] ++
      (s.imem.bytes (e.ptr.toNat + 512 * j) (min 512 (e.len.toNat - 512 * j))).map .frmByte) s =
      .next { s with tx := s.tx ++ dataPageWire s.imem c base e j }

/-- R67: unstuffing reverses stuffing, runs of 0xFF included, and stuffing adds one byte for each 0xFF. -/
def Obligations.UnstuffRecoversTheBytes : Prop :=
  ∀ bs : List Byte, unstuff (stuff bs) = some bs ∧ (stuff bs).length = bs.length + bs.count 0xFF

/-! ### Plan table and SEQ.START (45_sequencer.md sections 2 and 3) -/

/-- R161 to R164: each command changes the named fields of the named entry and nothing else. -/
def Obligations.PlanCommandsChangeOneEntry : Prop :=
  encode .planClr = 0x5000000000 ∧ faultsIll 0x50 .Z ∧ faultsBusy .planClr ∧
  (∀ (c : CoreId) (p : Address), encode (.planPtr c p) = (0x51 : Byte) ++ (0 : BitVec 4) ++ c ++ p ∧ faultsBusy (.planPtr c p) ∧
    faultsRange (.planPtr c p) (operandOutOfRange (.planPtr c p))) ∧ faultsIll 0x51 .P ∧
  (∀ (c : CoreId) (l : Address), encode (.planLen c l) = (0x52 : Byte) ++ (0 : BitVec 4) ++ c ++ l ∧ faultsBusy (.planLen c l) ∧
    faultsRange (.planLen c l) (operandOutOfRange (.planLen c l))) ∧ faultsIll 0x52 .P ∧
  (∀ c : CoreId, encode (.planDel c) = (0x53 : Byte) ++ (0 : BitVec 28) ++ c ∧ faultsBusy (.planDel c) ∧
    faultsRange (.planDel c) (operandOutOfRange (.planDel c))) ∧ faultsIll 0x53 .C ∧
  ∀ s : State, s.seq.st ≠ .run →
    exec .planClr s = .next { s with plan := Vector.replicate 8 { valid := false, ptr := 0, len := 0 } } ∧
    ∀ k : Fin 8, ∀ c : CoreId, c.toNat = k.val + 1 →
      (∀ p, exec (.planPtr c p) s = .next { s with plan := s.plan.set k { s.plan[k] with ptr := p } }) ∧
      (∀ l : Address, l.toNat % 4 = 0 →
        exec (.planLen c l) s = .next { s with plan := s.plan.set k { s.plan[k] with len := l, valid := true } }) ∧
      exec (.planDel c) s = .next { s with plan := s.plan.set k { s.plan[k] with valid := false } }

/-- R165: SEQ.START with a non-empty plan inside image memory starts a session in IDLE, SUCCESS and ABORTED, with every session register at its
starting value, and sends nothing. -/
def Obligations.SeqStartOpensASession : Prop :=
  (∀ run eeprom : Bool, encode (.seqStart run eeprom) = (0x58 : Byte) ++ (0 : BitVec 30) ++ BitVec.ofBool eeprom ++ BitVec.ofBool run ∧
    faultsBusy (.seqStart run eeprom) ∧ faultsRange (.seqStart run eeprom) (operandOutOfRange (.seqStart run eeprom))) ∧
  faultsIll 0x58 .F ∧
  ∀ (run eeprom : Bool) (s : State), s.seq.st ≠ .run → (∃ k : Fin 8, (s.plan[k]).valid = true) →
    (∀ k : Fin 8, (s.plan[k]).valid = true → (s.plan[k]).ptr.toNat + (s.plan[k]).len.toNat ≤ s.imem.size.val) →
    exec (.seqStart run eeprom) s = .next { s with
      lrc := 0
      seq := { st := .run, ph := .ssync, reason := .none, n := BitVec.ofNat 4 (s.plan.toList.countP (·.valid)), cog := 0, scan := 1,
               marker := false, base := 0, off := 0, chunk := 0, idx := 0, flags := BitVec.ofBool eeprom ++ BitVec.ofBool run,
               ackb := Vector.replicate 3 0, ackn := 0 } }

/-! ### The sequencer's steps (45_sequencer.md section 4) -/

/-- R167: agent S has a step exactly in these states, in every other its turn changes nothing; `NextValid(k)` is the least valid core from k
on, or none. -/
def Obligations.SequencerHasAStepExactlyWhenEnabled : Prop :=
  (∀ s : State, sequencerEnabled s = true ↔ s.seq.st = .run ∧
    (s.seq.ph = .ssync ∨ s.seq.ph = .csync ∨ s.seq.ph = .hdr ∨ s.seq.ph = .pay ∨ s.seq.ph = .next ∨ (s.seq.ph = .ack ∧ s.rx ≠ []))) ∧
  (∀ s : State, sequencerEnabled s = false → sequencerStep s = .next s) ∧
  (∀ (p : Plan) (k : Nat) (c : CoreId), p.nextValid k = some c ↔
    (k ≤ c.toNat ∧ ∃ e, p.entry? c = some e ∧ e.valid = true) ∧
      ∀ d e, k ≤ d.toNat → d.toNat < c.toNat → p.entry? d = some e → e.valid = false) ∧
  ∀ (p : Plan) (k : Nat), p.nextValid k = none ↔ ∀ d e, k ≤ d.toNat → p.entry? d = some e → e.valid = false

/-- R170: phase SSYNC. -/
def Obligations.SessionSyncAnnouncesTheImageCount : Prop :=
  ∀ s : State, s.seq.st = .run → s.seq.ph = .ssync →
    sequencerStep s = .next { s with tx := s.tx ++ [0xFF, s.seq.n.setWidth 8], seq := { s.seq with ph := .csync } }

/-- R171, R172: phase CSYNC serves the least valid core from `SCAN` on, and starts its first page. -/
def Obligations.CoreSyncServesTheNextCore : Prop :=
  ∀ (s : State) (c : CoreId) (e : PlanEntry), s.seq.st = .run → s.seq.ph = .csync →
    s.seq.scan.toNat ≤ c.toNat → s.plan.entry? c = some e → e.valid = true →
    (∀ d e', s.seq.scan.toNat ≤ d.toNat → d.toNat < c.toNat → s.plan.entry? d = some e' → e'.valid = false) →
    (0 < e.len.toNat → sequencerStep s = .next { s with
      tx := s.tx ++ [0xFF, c.setWidth 8], lrc := 0
      seq := { s.seq with cog := c, off := 0, marker := false, chunk := BitVec.ofNat 10 (min 512 e.len.toNat), idx := 0, ph := .hdr } }) ∧
    (e.len = 0 → sequencerStep s = .next { s with
      tx := s.tx ++ [0xFF, c.setWidth 8], lrc := 0
      seq := { s.seq with cog := c, off := 0, marker := true, chunk := 0, idx := 0, ph := .hdr } })

/-- R173, R174: phase HDR sends the IDX-th of the eight header bytes, stuffed; the address field is 0xFFFFFE on the marker page and
`(BASE + OFF) mod 2^24` on a data page. -/
def Obligations.HeaderPhaseSendsTheHeaderByte : Prop :=
  ∀ (s : State) (a₂ a₁ a₀ z₁ z₀ : Byte), s.seq.st = .run → s.seq.ph = .hdr → s.seq.idx.toNat ≤ 7 →
    (s.seq.marker = true → (a₂ ++ a₁ ++ a₀ : BitVec 24) = 0xFFFFFE) →
    (s.seq.marker = false → (a₂ ++ a₁ ++ a₀ : BitVec 24).toNat = (s.seq.base.toNat + s.seq.off.toNat) % 2 ^ 24) →
    (z₁ ++ z₀ : BitVec 16).toNat = s.seq.chunk.toNat →
    ∃ b, [s.seq.cog.setWidth 8, a₂, a₁, a₀, 0x00, 0x00, z₁, z₀][s.seq.idx.toNat]? = some b ∧
      (s.seq.idx ≠ 7 → sequencerStep s = .next { s with tx := s.tx ++ stuff1 b, seq := { s.seq with idx := s.seq.idx + 1 } }) ∧
      (s.seq.idx = 7 → sequencerStep s = .next { s with
        tx := s.tx ++ stuff1 b
        seq := { s.seq with idx := 0, ackn := 0, ph := if s.seq.marker then .ack else .pay } })

/-- R176: phase PAY sends the next payload byte, stuffed, and XORs it into `LRC`; after the last comes the acknowledgment. -/
def Obligations.PayloadPhaseSendsTheImageByte : Prop :=
  ∀ (s : State) (e : PlanEntry) (b : Byte), s.seq.st = .run → s.seq.ph = .pay → s.plan.entry? s.seq.cog = some e →
    e.ptr.toNat + s.seq.off.toNat + s.seq.idx.toNat < s.imem.size.val → s.seq.idx.toNat < s.seq.chunk.toNat →
    b = s.imem.byte (e.ptr.toNat + s.seq.off.toNat + s.seq.idx.toNat) →
    (s.seq.idx.toNat + 1 = s.seq.chunk.toNat → sequencerStep s = .next { s with
      tx := s.tx ++ stuff1 b, lrc := s.lrc ^^^ b, seq := { s.seq with idx := 0, ph := .ack } }) ∧
    (s.seq.idx.toNat + 1 < s.seq.chunk.toNat → sequencerStep s = .next { s with
      tx := s.tx ++ stuff1 b, lrc := s.lrc ^^^ b, seq := { s.seq with idx := s.seq.idx + 1 } })

/-- R178: phase ACK before the last byte of the acknowledgment: the byte is stored and counted. -/
def Obligations.AckPhaseStoresTheByte : Prop :=
  ∀ (s : State) (y : Byte) (rest : List Byte) (k : Fin 3), s.seq.st = .run → s.seq.ph = .ack → s.rx = y :: rest →
    s.seq.ackn.toNat = k.val → k.val + 1 < (if s.seq.marker then markerAckCount s else 3) →
    sequencerStep s = .next { s with rx := rest, seq := { s.seq with ackb := s.seq.ackb.set k y, ackn := BitVec.ofNat 2 (k.val + 1) } }

/-- R178, R179, R172, R210: the verdict on a data page, given with the third byte: byte 1, byte 2, byte 3 in this order, the first that fails
names the reason of the abort; on success the next data page or the marker page starts. -/
def Obligations.DataPageVerdict : Prop :=
  ∀ (s : State) (e : PlanEntry) (b₁ b₂ b₃ : Byte) (rest : List Byte) (q : SeqRegs), s.seq.st = .run → s.seq.ph = .ack →
    s.seq.marker = false → s.seq.ackn = 2 → s.seq.ackb[0] = b₁ → s.seq.ackb[1] = b₂ → s.rx = b₃ :: rest →
    q = { s.seq with ackb := #v[b₁, b₂, b₃], ackn := 3 } →
    (b₁ ≠ 0xFF → sequencerStep s =
      .next { s with rx := rest, seq := { q with st := .aborted, ph := .none, reason := .missingSyncByte } }) ∧
    (b₁ = 0xFF → b₂ ≠ s.seq.cog.setWidth 8 → sequencerStep s =
      .next { s with rx := rest, seq := { q with st := .aborted, ph := .none, reason := .cogMismatch } }) ∧
    (b₁ = 0xFF → b₂ = s.seq.cog.setWidth 8 → b₃ ≠ s.lrc → sequencerStep s =
      .next { s with rx := rest, seq := { q with st := .aborted, ph := .none, reason := .checksumMismatch } }) ∧
    (b₁ = 0xFF → b₂ = s.seq.cog.setWidth 8 → b₃ = s.lrc → s.plan.entry? s.seq.cog = some e →
      ∀ o : Address, o.toNat = s.seq.off.toNat + s.seq.chunk.toNat →
        (o.toNat < e.len.toNat → sequencerStep s = .next { s with
          rx := rest, lrc := 0
          seq := { q with off := o, marker := false, chunk := BitVec.ofNat 10 (min 512 (e.len.toNat - o.toNat)), idx := 0, ph := .hdr } }) ∧
        (e.len.toNat ≤ o.toNat → sequencerStep s = .next { s with
          rx := rest, lrc := 0, seq := { q with off := o, marker := true, chunk := 0, idx := 0, ph := .hdr } }))

/-- R180, for both values of `MARKER_ACK_LEN`: the verdict on the marker page. -/
def Obligations.MarkerPageVerdict : Prop :=
  ∀ (s : State) (y : Byte) (rest : List Byte), s.seq.st = .run → s.seq.ph = .ack → s.seq.marker = true → s.rx = y :: rest →
    (s.markerAckLen = .two → s.seq.ackn = 1 → ∀ q : SeqRegs, q = { s.seq with ackb := s.seq.ackb.set 1 y, ackn := 2 } →
      (s.seq.ackb[0] ≠ 0xFF → sequencerStep s =
        .next { s with rx := rest, seq := { q with st := .aborted, ph := .none, reason := .missingSyncByte } }) ∧
      (s.seq.ackb[0] = 0xFF → y ≠ s.seq.cog.setWidth 8 → sequencerStep s =
        .next { s with rx := rest, seq := { q with st := .aborted, ph := .none, reason := .cogMismatch } }) ∧
      (s.seq.ackb[0] = 0xFF → y = s.seq.cog.setWidth 8 → sequencerStep s = .next { s with rx := rest, seq := { q with ph := .next } })) ∧
    (s.markerAckLen = .one → s.seq.ackn = 0 → ∀ q : SeqRegs, q = { s.seq with ackb := s.seq.ackb.set 0 y, ackn := 1 } →
      (y ≠ s.seq.cog.setWidth 8 → sequencerStep s =
        .next { s with rx := rest, seq := { q with st := .aborted, ph := .none, reason := .cogMismatch } }) ∧
      (y = s.seq.cog.setWidth 8 → sequencerStep s = .next { s with rx := rest, seq := { q with ph := .next } }))

/-- R181: phase NEXT advances the base offset by the image's length, and goes to the next core or to SUCCESS. -/
def Obligations.NextPhaseAdvancesTheBase : Prop :=
  ∀ (s : State) (e : PlanEntry) (q : SeqRegs), s.seq.st = .run → s.seq.ph = .next → s.plan.entry? s.seq.cog = some e →
    q = { s.seq with base := BitVec.ofNat 32 (s.seq.base.toNat + e.len.toNat), scan := BitVec.ofNat 4 (s.seq.cog.toNat + 1), marker := false } →
    ((∃ c e', s.seq.cog.toNat < c.toNat ∧ s.plan.entry? c = some e' ∧ e'.valid = true) →
      sequencerStep s = .next { s with seq := { q with ph := .csync } }) ∧
    ((∀ c e', s.seq.cog.toNat < c.toNat → s.plan.entry? c = some e' → e'.valid = false) →
      sequencerStep s = .next { s with seq := { q with st := .success, ph := .none } })

/-! ### The whole machine -/

/-- The invariant holds in the initial state of every machine whose image memory has its canonical form, the reset state among them. -/
def Obligations.InitialStatesSatisfyTheInvariant : Prop :=
  (∀ (m : Memory) (l : MarkerAckLen), m.wf → (State.initial m l).Inv) ∧ State.reset.Inv

/-- R184 with R18, R20, R22, R23: every step of every agent keeps the invariant. R184's clause `OFF mod 512 = 0` is taken of data pages
(notes/assumptions/7.md). -/
def Obligations.EveryStepKeepsTheInvariant : Prop := ∀ s t : State, s.Inv → step s = .next t → t.Inv

/-- R90, R167: in a state with the invariant no step stops: none of the model's own faults is reached (notes/assumptions/5.md). -/
def Obligations.NoStepStopsInALegalState : Prop := ∀ s : State, s.Inv → ∃ t, step s = .next t

/-- R27: TX only grows; no step removes or changes a byte sent. -/
def Obligations.TransmittedBytesStay : Prop := ∀ s t : State, step s = .next t → ∃ bs, t.tx = s.tx ++ bs

/-- R51, R28: RX is a queue: a step leaves it, appends one byte at the back, removes the first byte, or empties it. -/
def Obligations.ReceivedBytesAreTakenInOrder : Prop :=
  ∀ s t : State, step s = .next t → t.rx = s.rx ∨ (∃ b, t.rx = s.rx ++ [b]) ∨ (∃ b, s.rx = b :: t.rx) ∨ t.rx = []

/-- R201: a bit of `FLT` is cleared by a reset of the block only. -/
def Obligations.FaultBitsStayUntilReset : Prop :=
  ∀ s t : State, step s = .next t → Event.isReset (nextEvent s).1 ∨ s.flt &&& t.flt = s.flt

/-- R43, R48, R92, R239: no step writes image memory; no step but a reset changes the plan while `ST = RUN`. That `MARKER_ACK_LEN` and the image
memory's size are fields that no step changes, and that no agent has a step that loads image memory, is the model's choice
(notes/assumptions/4.md, 6.md). -/
def Obligations.ImageMemoryAndPlanStayInSession : Prop :=
  ∀ s t : State, step s = .next t →
    t.imem = s.imem ∧ t.markerAckLen = s.markerAckLen ∧ (s.seq.st = .run → Event.isReset (nextEvent s).1 ∨ t.plan = s.plan)

/-- R160, R178, R181, R182, R210: a session ends by a reset, by the NEXT of the last core (no valid core is left above it), or by an acknowledgment
that aborts it; an abort sends nothing and changes nothing but `ST`, `PH`, `REASON`, and the acknowledgment byte taken from RX, stored as
`ACKB[ACKN]` and counted. -/
def Obligations.OnlyTheseStepsEndASession : Prop :=
  ∀ s t : State, s.seq.st = .run → step s = .next t → t.seq.st ≠ .run →
    (t.seq.st = .idle ∧ Event.isReset (nextEvent s).1) ∨
    (t.seq.st = .success ∧ (nextEvent s).1 = .sequencer ∧ s.seq.ph = .next ∧ s.plan.nextValid (s.seq.cog.toNat + 1) = none ∧ t.tx = s.tx) ∨
    (t.seq.st = .aborted ∧ (nextEvent s).1 = .sequencer ∧ s.seq.ph = .ack ∧ t.seq.reason ≠ .none ∧
      ∃ (y : Byte) (k : Fin 3), s.rx = y :: t.rx ∧ s.seq.ackn.toNat = k.val ∧
        t = { (nextEvent s).2 with
          rx := t.rx
          seq := { s.seq with
            st := .aborted, ph := .none, reason := t.seq.reason
            ackb := s.seq.ackb.set k y, ackn := BitVec.ofNat 2 (k.val + 1) } })

/-- R166: FLAGS has no effect on a session: two states that differ in FLAGS alone take steps that differ in FLAGS alone. -/
def Obligations.SessionFlagsHaveNoEffect : Prop :=
  ∀ (s t : State) (f : BitVec 2), sequencerStep s = .next t →
    sequencerStep { s with seq := { s.seq with flags := f } } = .next { t with seq := { t.seq with flags := f } }

/-- R47: the sequencer never gives a data page the marker address. -/
def Obligations.DataPagesNeverCarryTheMarkerAddress : Prop :=
  ∀ s : State, s.Inv → s.seq.st = .run → s.seq.ph ≠ .ssync → s.seq.ph ≠ .csync → s.seq.marker = false →
    pageAddress s.seq ≠ 0xFFFFFE

/-- R68: a header the sequencer sends takes 8 to 10 wire bytes: only its second and third bytes can be 0xFF. -/
def Obligations.HeaderTakesEightToTenWireBytes : Prop :=
  ∀ s : State, s.Inv → s.seq.st = .run → s.seq.ph ≠ .ssync → s.seq.ph ≠ .csync →
    8 ≤ (stuff (headerBytes s.seq)).length ∧ (stuff (headerBytes s.seq)).length ≤ 10 ∧
    ∀ k : Nat, (headerBytes s.seq)[k]? = some 0xFF → k = 1 ∨ k = 2

/-- R72, R183: every step in a session keeps TX equal to what the grammar has sent up to the sequencer's position; with SUCCESS it has sent the
whole session; an abort or a reset adds nothing. -/
def Obligations.SentBytesFollowTheGrammar : Prop :=
  ∀ (s t : State) (before : List Byte), s.Inv → s.seq.st = .run → s.tx = before ++ sentSoFar s → step s = .next t →
    (t.seq.st = .run → t.tx = before ++ sentSoFar t) ∧
    (t.seq.st = .success → t.tx = before ++ sessionWire s.plan s.imem) ∧
    (t.seq.st ≠ .run → t.seq.st ≠ .success → t.tx = s.tx)

/-- R72, R51, R185: from the acceptance of SEQ.START on, whatever the agents do and in whatever order, TX gains a prefix of the session's
grammar, and all of it where the session ends in SUCCESS. -/
def Obligations.SuccessfulSessionSendsTheWholeGrammar : Prop :=
  ∀ s t : State, s.Inv → s.sessionStarted → SessionRun s t →
    ∃ sent rest, t.tx = s.tx ++ sent ∧ sessionWire s.plan s.imem = sent ++ rest ∧ (t.seq.st = .success → rest = [])

/-- R183: the pages of an image of length S are ceil(S / 512), each of 1 to 512 bytes, their sizes sum to S, and their payloads are the image's
bytes in order. -/
def Obligations.PagesCoverTheImage : Prop :=
  ∀ (m : Memory) (p len : Nat),
    len ≤ 512 * pageCount len ∧ 512 * pageCount len < len + 512 ∧
    (∀ j < pageCount len, 1 ≤ min 512 (len - 512 * j) ∧ min 512 (len - 512 * j) ≤ 512) ∧
    ((List.range (pageCount len)).map (fun j => min 512 (len - 512 * j))).sum = len ∧
    (List.range (pageCount len)).flatMap (fun j => m.bytes (p + 512 * j) (min 512 (len - 512 * j))) = m.bytes p len

/-- 95_test_vectors.md section 4: beside the ideal device every session that SEQ.START opens ends in SUCCESS, after the stated number of sequencer
steps, with the whole session sent and every acknowledgment byte consumed. -/
def Obligations.IdealDeviceSessionsSucceed : Prop :=
  ∀ s : State, s.Inv → s.sessionStarted → s.rx = [] →
    ∃ t, idealRun (stepsLeft s) s = .next t ∧ t.seq.st = .success ∧ t.rx = [] ∧ t.flt = s.flt ∧ t.tx = s.tx ++ sessionWire s.plan s.imem

/-- 95_test_vectors.md section 2.6: each enabled step of the sequencer that does not abort brings the session one step nearer to its end; a
successful session of N images takes the stated number of steps. -/
def Obligations.SequencerStepsCountDown : Prop :=
  (∀ s t : State, s.Inv → sequencerEnabled s = true → sequencerStep s = .next t → t.seq.st ≠ .aborted →
    stepsLeft t + 1 = stepsLeft s) ∧
  (∀ s : State, s.Inv → s.seq.st = .run → 1 ≤ stepsLeft s) ∧
  ∀ s t : State, sequencerStep s = .next t → t.seq.st = .success → s.seq.st = .run → stepsLeft t = 0
end

