-- ==== Sys2Proof/Laws/Decode.lean ====
section
/-! SUPPORT. The fields of an assembled command word. -/

namespace Sys2Proof

/-- Bit i of an assembled word. -/
theorem getLsbD_word (op : Byte) (arg : Word) (i : Nat) :
    (op ++ arg : CommandWord).getLsbD i = if i < 32 then arg.getLsbD i else op.getLsbD (i - 32) := by
  exact BitVec.getLsbD_append (x := op) (y := arg) (i := i)

@[simp] theorem opcodeField_append (op : Byte) (arg : Word) : opcodeField (op ++ arg : CommandWord) = op := by
  unfold opcodeField
  apply BitVec.eq_of_getLsbD_eq
  intro i hi
  rw [BitVec.getLsbD_extractLsb', getLsbD_word]
  simp [hi]

@[simp] theorem argField_append (op : Byte) (arg : Word) : argField (op ++ arg : CommandWord) = arg := by
  unfold argField
  apply BitVec.eq_of_getLsbD_eq
  intro i hi
  rw [BitVec.getLsbD_extractLsb', getLsbD_word]
  simp [hi]

@[simp] theorem opcodeField_encode (i : Instr) : opcodeField (encode i) = i.opcode := opcodeField_append _ _

@[simp] theorem argField_encode (i : Instr) : argField (encode i) = i.arg := argField_append _ _

/-- A word is its opcode above its operand. -/
theorem word_eq_append (w : CommandWord) : w = (opcodeField w ++ argField w : CommandWord) := by
  apply BitVec.eq_of_getLsbD_eq
  intro i hi
  rw [getLsbD_word]
  unfold opcodeField argField
  split
  · simp [*]
  · have h8 : i - 32 < 8 := by omega
    have h32 : 32 + (i - 32) = i := by omega
    simp [h8, h32]

/-- What a check of the reserved bits answers. -/
theorem checkReserved_eq_ok {f : Form} {arg : Word} {i j : Instr} :
    checkReserved f arg i = .ok j ↔ arg &&& f.reserved = 0 ∧ i = j := by
  unfold checkReserved
  split <;> simp_all

end Sys2Proof
end

