-- ==== Sys2Proof/Laws/Plan.lean ====
section
/-! SUPPORT. The plan table: which entries there are, what a change of one leaves, and the order in which cores are served. -/

namespace Sys2Proof.Machine

/-! ### Entries -/

theorem coreIndex?_eq_some {c : CoreId} {k : Fin 8} : coreIndex? c = some k ↔ c.toNat = k.val + 1 := by
  unfold coreIndex?
  split
  · rw [Option.some.injEq, Fin.ext_iff]
    simp only
    omega
  · simp only [reduceCtorEq, false_iff]
    omega

theorem coreIndex?_eq_none {c : CoreId} : coreIndex? c = none ↔ ¬(1 ≤ c.toNat ∧ c.toNat ≤ 8) := by
  unfold coreIndex?
  split <;> simp_all

theorem Plan.entry?_eq_some {p : Plan} {c : CoreId} {e : PlanEntry} :
    p.entry? c = some e ↔ ∃ k : Fin 8, c.toNat = k.val + 1 ∧ p[k] = e := by
  unfold Plan.entry?
  rw [Option.map_eq_some_iff]
  simp only [coreIndex?_eq_some]

theorem Plan.entry?_of_index {p : Plan} {c : CoreId} {k : Fin 8} (h : c.toNat = k.val + 1) : p.entry? c = some p[k] :=
  Plan.entry?_eq_some.2 ⟨k, h, rfl⟩

theorem Plan.entry?_eq_none {p : Plan} {c : CoreId} : p.entry? c = none ↔ ¬(1 ≤ c.toNat ∧ c.toNat ≤ 8) := by
  unfold Plan.entry?
  rw [Option.map_eq_none_iff, coreIndex?_eq_none]

theorem Plan.entry?_isSome {p : Plan} {c : CoreId} : (p.entry? c).isSome = coreIdLegal c := by
  rw [Bool.eq_iff_iff, Option.isSome_iff_ne_none, ne_eq, Plan.entry?_eq_none, not_not]
  simp [coreIdLegal]

/-- A change of one entry leaves the others. -/
theorem Plan.entry?_modify (p : Plan) (c d : CoreId) (f : PlanEntry → PlanEntry) :
    (p.modify c f).entry? d = if d = c then (p.entry? d).map f else p.entry? d := by
  unfold Plan.modify
  split
  · rename_i k hk
    rw [coreIndex?_eq_some] at hk
    by_cases hd : 1 ≤ d.toNat ∧ d.toNat ≤ 8
    · have hdk : d.toNat = (⟨d.toNat - 1, by omega⟩ : Fin 8).val + 1 := by simp only; omega
      rw [Plan.entry?_of_index hdk, Plan.entry?_of_index hdk]
      split
      · rename_i h
        subst h
        have : k.val = d.toNat - 1 := by omega
        simp [this]
      · rename_i h
        have : k.val ≠ d.toNat - 1 := fun hc => h (BitVec.eq_of_toNat_eq (by omega))
        simp [this]
    · rw [Plan.entry?_eq_none.2 hd, Plan.entry?_eq_none.2 hd]
      simp
  · rename_i hk
    rw [coreIndex?_eq_none] at hk
    split
    · rename_i h
      subst h
      rw [Plan.entry?_eq_none.2 hk]
      rfl
    · rfl

/-- Where `PLAN[c].valid = 1` there is an entry. -/
theorem Plan.isValid_iff {p : Plan} {c : CoreId} : p.isValid c = true ↔ ∃ e, p.entry? c = some e ∧ e.valid = true := by
  unfold Plan.isValid
  cases h : p.entry? c <;> simp

theorem Plan.lenOf_of_entry {p : Plan} {c : CoreId} {e : PlanEntry} (h : p.entry? c = some e) : p.lenOf c = e.len.toNat := by
  simp [Plan.lenOf, h]

theorem mem_coreIds {c : CoreId} : c ∈ coreIds ↔ 1 ≤ c.toNat ∧ c.toNat ≤ 8 := by
  revert c
  decide

theorem Plan.mem_coreIds_of_isValid {p : Plan} {c : CoreId} (h : p.isValid c = true) : c ∈ coreIds := by
  obtain ⟨e, he, -⟩ := Plan.isValid_iff.1 h
  rw [mem_coreIds]
  by_contra hc
  rw [Plan.entry?_eq_none.2 hc] at he
  cases he

/-- The table holds exactly the entries of cores 1 to 8. -/
theorem Plan.mem_toList {p : Plan} {e : PlanEntry} : e ∈ p.toList ↔ ∃ c, p.entry? c = some e := by
  rw [Vector.mem_toList_iff, Vector.mem_iff_getElem]
  constructor
  · rintro ⟨i, hi, rfl⟩
    refine ⟨BitVec.ofNat 4 (i + 1), Plan.entry?_eq_some.2 ⟨⟨i, hi⟩, ?_, rfl⟩⟩
    simp only [BitVec.toNat_ofNat]
    omega
  · rintro ⟨c, hc⟩
    obtain ⟨k, -, rfl⟩ := Plan.entry?_eq_some.1 hc
    exact ⟨k.val, k.isLt, rfl⟩

/-- A fact about every entry of the table is one about every core's entry. -/
theorem Plan.forall_entry {p : Plan} {P : PlanEntry → Prop} : (∀ k : Fin 8, P p[k]) ↔ ∀ c e, p.entry? c = some e → P e := by
  constructor
  · intro h c e he
    obtain ⟨k, -, rfl⟩ := Plan.entry?_eq_some.1 he
    exact h k
  · intro h k
    refine h (BitVec.ofNat 4 (k.val + 1)) _ (Plan.entry?_of_index ?_)
    simp only [BitVec.toNat_ofNat]
    omega

/-! ### The order of cores -/

theorem coreIds_rising : coreIds.Pairwise (fun x y : CoreId => x.toNat < y.toNat) := by decide

/-- What `NextValid(k)` answers: a valid core from k on, with no valid core between. -/
theorem Plan.nextValid_eq_some {p : Plan} {k : Nat} {c : CoreId} (h : p.nextValid k = some c) :
    k ≤ c.toNat ∧ p.isValid c = true ∧ ∃ l₁ l₂, coreIds = l₁ ++ c :: l₂ ∧
      ∀ d ∈ l₁, (p.isValid d && decide (k ≤ d.toNat)) = false := by
  unfold Plan.nextValid at h
  rw [List.find?_eq_some_iff_append] at h
  obtain ⟨hc, l₁, l₂, hl, hn⟩ := h
  simp only [Bool.and_eq_true, decide_eq_true_eq] at hc
  refine ⟨hc.1, hc.2, l₁, l₂, hl, fun d hd => ?_⟩
  have hd' := hn d hd
  rw [Bool.and_comm]
  simpa only [Bool.not_eq_true'] using hd'

/-- Where `NextValid(k)` answers "none", no core from k on is valid. -/
theorem Plan.nextValid_eq_none {p : Plan} {k : Nat} (h : p.nextValid k = none) :
    ∀ d ∈ coreIds, (p.isValid d && decide (k ≤ d.toNat)) = false := by
  unfold Plan.nextValid at h
  rw [List.find?_eq_none] at h
  intro d hd
  have := h d hd
  rw [Bool.and_comm]
  simpa using this

theorem coreIds_split {l₁ l₂ : List CoreId} {c : CoreId} (h : coreIds = l₁ ++ c :: l₂) :
    (∀ d ∈ l₁, d.toNat < c.toNat) ∧ ∀ d ∈ l₂, c.toNat < d.toNat := by
  have hp := coreIds_rising
  rw [h, List.pairwise_append, List.pairwise_cons] at hp
  exact ⟨fun d hd => hp.2.2 d hd c List.mem_cons_self, hp.2.1.1⟩

/-- The valid cores below the next one are the valid cores below k. -/
theorem Plan.below_next {p : Plan} {k : Nat} {c : CoreId} (h : p.nextValid k = some c) :
    coreIds.filter (fun d => p.isValid d && decide (d.toNat < c.toNat)) = coreIds.filter (fun d => p.isValid d && decide (d.toNat < k)) := by
  obtain ⟨hk, hv, l₁, l₂, hl, hn⟩ := Plan.nextValid_eq_some h
  obtain ⟨h1, h2⟩ := coreIds_split hl
  apply List.filter_congr
  intro d hd
  rw [hl, List.mem_append, List.mem_cons] at hd
  rcases hd with hd | rfl | hd
  · have a := hn d hd
    have b := h1 d hd
    cases hvd : p.isValid d
    · rfl
    · simp only [hvd, Bool.true_and, decide_eq_false_iff_not, not_le] at a
      simp [a, b]
  · simp; omega
  · have b := h2 d hd
    have : ¬ d.toNat < c.toNat := by omega
    have : ¬ d.toNat < k := by omega
    simp [*]

/-- The valid cores below c + 1 are those below c, then c itself if it is valid. -/
theorem Plan.below_succ {p : Plan} {c : CoreId} (hv : p.isValid c = true) :
    coreIds.filter (fun d => p.isValid d && decide (d.toNat < c.toNat + 1)) =
      coreIds.filter (fun d => p.isValid d && decide (d.toNat < c.toNat)) ++ [c] := by
  obtain ⟨l₁, l₂, hl⟩ := List.append_of_mem (Plan.mem_coreIds_of_isValid hv)
  obtain ⟨h1, h2⟩ := coreIds_split hl
  rw [hl]
  simp only [List.filter_append, List.filter_cons, hv]
  have e1 : l₁.filter (fun d => p.isValid d && decide (d.toNat < c.toNat + 1)) = l₁.filter (fun d => p.isValid d && decide (d.toNat < c.toNat)) := by
    apply List.filter_congr
    intro d hd
    have := h1 d hd
    have h' : d.toNat < c.toNat + 1 := by omega
    simp [this, h']
  have e2 : l₂.filter (fun d => p.isValid d && decide (d.toNat < c.toNat + 1)) = [] := by
    rw [List.filter_eq_nil_iff]
    intro d hd
    have := h2 d hd
    simp; omega
  have e3 : l₂.filter (fun d => p.isValid d && decide (d.toNat < c.toNat)) = [] := by
    rw [List.filter_eq_nil_iff]
    intro d hd
    have := h2 d hd
    simp; omega
  simp only [e1, e2, e3, Bool.true_and, Nat.lt_succ_self, decide_true, if_true, lt_irrefl, decide_false, Bool.false_eq_true, if_false,
    List.append_nil]

/-- The valid cores from k on are the next one, then those above it. -/
theorem Plan.from_next {p : Plan} {k : Nat} {c : CoreId} (h : p.nextValid k = some c) :
    coreIds.filter (fun d => p.isValid d && decide (k ≤ d.toNat)) =
      c :: coreIds.filter (fun d => p.isValid d && decide (c.toNat + 1 ≤ d.toNat)) := by
  obtain ⟨hk, hv, l₁, l₂, hl, hn⟩ := Plan.nextValid_eq_some h
  obtain ⟨h1, h2⟩ := coreIds_split hl
  rw [hl]
  simp only [List.filter_append, List.filter_cons, hv]
  have e1 : l₁.filter (fun d => p.isValid d && decide (k ≤ d.toNat)) = [] := by
    rw [List.filter_eq_nil_iff]
    intro d hd
    simp [hn d hd]
  have e2 : l₁.filter (fun d => p.isValid d && decide (c.toNat + 1 ≤ d.toNat)) = [] := by
    rw [List.filter_eq_nil_iff]
    intro d hd
    have := h1 d hd
    simp; omega
  have e3 : l₂.filter (fun d => p.isValid d && decide (k ≤ d.toNat)) = l₂.filter (fun d => p.isValid d && decide (c.toNat + 1 ≤ d.toNat)) := by
    apply List.filter_congr
    intro d hd
    have b := h2 d hd
    have b1 : c.toNat + 1 ≤ d.toNat := b
    have b2 : k ≤ d.toNat := by omega
    simp [b1, b2]
  have hc : ¬ c.toNat + 1 ≤ c.toNat := by omega
  simp only [e1, e2, e3, Bool.true_and, hk, hc, decide_true, decide_false, if_true, Bool.false_eq_true, if_false, List.nil_append]

/-- Where no core from k on is valid, the valid cores below k are all of them. -/
theorem Plan.below_of_none {p : Plan} {k : Nat} (h : p.nextValid k = none) :
    coreIds.filter (fun d => p.isValid d && decide (d.toNat < k)) = coreIds.filter p.isValid := by
  apply List.filter_congr
  intro d hd
  have := Plan.nextValid_eq_none h d hd
  cases hv : p.isValid d
  · rfl
  · simp only [hv, Bool.true_and, decide_eq_false_iff_not, not_le] at this
    simp [this]

theorem Plan.from_of_none {p : Plan} {k : Nat} (h : p.nextValid k = none) :
    coreIds.filter (fun d => p.isValid d && decide (k ≤ d.toNat)) = [] := by
  rw [List.filter_eq_nil_iff]
  intro d hd
  simp [Plan.nextValid_eq_none h d hd]

theorem Plan.countValid_le (p : Plan) : p.countValid ≤ 8 := by
  unfold Plan.countValid
  exact (List.length_filter_le _ _).trans (by decide)

/-- A plan with a valid entry has a first core to serve. -/
theorem Plan.nextValid_one_isSome {p : Plan} (h : 1 ≤ p.countValid) : (p.nextValid 1).isSome = true := by
  cases hn : p.nextValid 1 with
  | some c => rfl
  | none =>
    have := Plan.below_of_none hn
    have hz : coreIds.filter (fun d => p.isValid d && decide (d.toNat < 1)) = [] := by
      rw [List.filter_eq_nil_iff]
      intro d hd
      have := (mem_coreIds.1 hd).1
      simp; omega
    rw [hz] at this
    unfold Plan.countValid at h
    rw [← this] at h
    simp at h

/-- The running base stays below 2^27 (R181). -/
theorem Plan.lenBelow_lt (p : Plan) (c : CoreId) : p.lenBelow c < 2 ^ 27 := by
  unfold Plan.lenBelow
  have hlen : (coreIds.filter (fun d => p.isValid d && decide (d.toNat < c.toNat))).length ≤ 8 :=
    (List.length_filter_le _ _).trans (by decide)
  have hone : ∀ d, p.lenOf d < 2 ^ 24 := by
    intro d
    unfold Plan.lenOf
    cases p.entry? d with
    | none => simp
    | some e => simpa using e.len.isLt
  have hs : ∀ l : List CoreId, (l.map p.lenOf).sum ≤ l.length * (2 ^ 24 - 1) := by
    intro l
    induction l with
    | nil => simp
    | cons d l ih =>
      have := hone d
      simp only [List.map_cons, List.sum_cons, List.length_cons]
      omega
  have := hs (coreIds.filter (fun d => p.isValid d && decide (d.toNat < c.toNat)))
  omega

end Sys2Proof.Machine
end

