-- ==== Sys2Proof/Laws/State.lean ====
section
/-! SUPPORT. What each named update of the state leaves in each field: one lemma per field per update. -/

namespace Sys2Proof.Machine

/-! ### State.txPut -/

@[simp] theorem State.txPut_lfsr (bs : List Byte) (s : State) : (s.txPut bs).lfsr = s.lfsr := rfl
@[simp] theorem State.txPut_sum (bs : List Byte) (s : State) : (s.txPut bs).sum = s.sum := rfl
@[simp] theorem State.txPut_lrc (bs : List Byte) (s : State) : (s.txPut bs).lrc = s.lrc := rfl
@[simp] theorem State.txPut_res (bs : List Byte) (s : State) : (s.txPut bs).res = s.res := rfl
@[simp] theorem State.txPut_flt (bs : List Byte) (s : State) : (s.txPut bs).flt = s.flt := rfl
@[simp] theorem State.txPut_plan (bs : List Byte) (s : State) : (s.txPut bs).plan = s.plan := rfl
@[simp] theorem State.txPut_seq (bs : List Byte) (s : State) : (s.txPut bs).seq = s.seq := rfl
@[simp] theorem State.txPut_tx (bs : List Byte) (s : State) : (s.txPut bs).tx = s.tx ++ bs := rfl
@[simp] theorem State.txPut_rx (bs : List Byte) (s : State) : (s.txPut bs).rx = s.rx := rfl
@[simp] theorem State.txPut_imem (bs : List Byte) (s : State) : (s.txPut bs).imem = s.imem := rfl
@[simp] theorem State.txPut_markerAckLen (bs : List Byte) (s : State) : (s.txPut bs).markerAckLen = s.markerAckLen := rfl
@[simp] theorem State.txPut_ci (bs : List Byte) (s : State) : (s.txPut bs).ci = s.ci := rfl
@[simp] theorem State.txPut_pending (bs : List Byte) (s : State) : (s.txPut bs).pending = s.pending := rfl
@[simp] theorem State.txPut_turn (bs : List Byte) (s : State) : (s.txPut bs).turn = s.turn := rfl

/-! ### State.stuffPut -/

@[simp] theorem State.stuffPut_lfsr (b : Byte) (s : State) : (s.stuffPut b).lfsr = s.lfsr := rfl
@[simp] theorem State.stuffPut_sum (b : Byte) (s : State) : (s.stuffPut b).sum = s.sum := rfl
@[simp] theorem State.stuffPut_lrc (b : Byte) (s : State) : (s.stuffPut b).lrc = s.lrc := rfl
@[simp] theorem State.stuffPut_res (b : Byte) (s : State) : (s.stuffPut b).res = s.res := rfl
@[simp] theorem State.stuffPut_flt (b : Byte) (s : State) : (s.stuffPut b).flt = s.flt := rfl
@[simp] theorem State.stuffPut_plan (b : Byte) (s : State) : (s.stuffPut b).plan = s.plan := rfl
@[simp] theorem State.stuffPut_seq (b : Byte) (s : State) : (s.stuffPut b).seq = s.seq := rfl
@[simp] theorem State.stuffPut_tx (b : Byte) (s : State) : (s.stuffPut b).tx = s.tx ++ stuff1 b := rfl
@[simp] theorem State.stuffPut_rx (b : Byte) (s : State) : (s.stuffPut b).rx = s.rx := rfl
@[simp] theorem State.stuffPut_imem (b : Byte) (s : State) : (s.stuffPut b).imem = s.imem := rfl
@[simp] theorem State.stuffPut_markerAckLen (b : Byte) (s : State) : (s.stuffPut b).markerAckLen = s.markerAckLen := rfl
@[simp] theorem State.stuffPut_ci (b : Byte) (s : State) : (s.stuffPut b).ci = s.ci := rfl
@[simp] theorem State.stuffPut_pending (b : Byte) (s : State) : (s.stuffPut b).pending = s.pending := rfl
@[simp] theorem State.stuffPut_turn (b : Byte) (s : State) : (s.stuffPut b).turn = s.turn := rfl

/-! ### State.rxClear -/

@[simp] theorem State.rxClear_lfsr (s : State) : (s.rxClear).lfsr = s.lfsr := rfl
@[simp] theorem State.rxClear_sum (s : State) : (s.rxClear).sum = s.sum := rfl
@[simp] theorem State.rxClear_lrc (s : State) : (s.rxClear).lrc = s.lrc := rfl
@[simp] theorem State.rxClear_res (s : State) : (s.rxClear).res = s.res := rfl
@[simp] theorem State.rxClear_flt (s : State) : (s.rxClear).flt = s.flt := rfl
@[simp] theorem State.rxClear_plan (s : State) : (s.rxClear).plan = s.plan := rfl
@[simp] theorem State.rxClear_seq (s : State) : (s.rxClear).seq = s.seq := rfl
@[simp] theorem State.rxClear_tx (s : State) : (s.rxClear).tx = s.tx := rfl
@[simp] theorem State.rxClear_rx (s : State) : (s.rxClear).rx = [] := rfl
@[simp] theorem State.rxClear_imem (s : State) : (s.rxClear).imem = s.imem := rfl
@[simp] theorem State.rxClear_markerAckLen (s : State) : (s.rxClear).markerAckLen = s.markerAckLen := rfl
@[simp] theorem State.rxClear_ci (s : State) : (s.rxClear).ci = s.ci := rfl
@[simp] theorem State.rxClear_pending (s : State) : (s.rxClear).pending = s.pending := rfl
@[simp] theorem State.rxClear_turn (s : State) : (s.rxClear).turn = s.turn := rfl

/-! ### State.rxPut -/

@[simp] theorem State.rxPut_lfsr (b : Byte) (s : State) : (s.rxPut b).lfsr = s.lfsr := rfl
@[simp] theorem State.rxPut_sum (b : Byte) (s : State) : (s.rxPut b).sum = s.sum := rfl
@[simp] theorem State.rxPut_lrc (b : Byte) (s : State) : (s.rxPut b).lrc = s.lrc := rfl
@[simp] theorem State.rxPut_res (b : Byte) (s : State) : (s.rxPut b).res = s.res := rfl
@[simp] theorem State.rxPut_flt (b : Byte) (s : State) : (s.rxPut b).flt = s.flt := rfl
@[simp] theorem State.rxPut_plan (b : Byte) (s : State) : (s.rxPut b).plan = s.plan := rfl
@[simp] theorem State.rxPut_seq (b : Byte) (s : State) : (s.rxPut b).seq = s.seq := rfl
@[simp] theorem State.rxPut_tx (b : Byte) (s : State) : (s.rxPut b).tx = s.tx := rfl
@[simp] theorem State.rxPut_rx (b : Byte) (s : State) : (s.rxPut b).rx = s.rx ++ [b] := rfl
@[simp] theorem State.rxPut_imem (b : Byte) (s : State) : (s.rxPut b).imem = s.imem := rfl
@[simp] theorem State.rxPut_markerAckLen (b : Byte) (s : State) : (s.rxPut b).markerAckLen = s.markerAckLen := rfl
@[simp] theorem State.rxPut_ci (b : Byte) (s : State) : (s.rxPut b).ci = s.ci := rfl
@[simp] theorem State.rxPut_pending (b : Byte) (s : State) : (s.rxPut b).pending = s.pending := rfl
@[simp] theorem State.rxPut_turn (b : Byte) (s : State) : (s.rxPut b).turn = s.turn := rfl

/-! ### State.setRes -/

@[simp] theorem State.setRes_lfsr (v : Word) (s : State) : (s.setRes v).lfsr = s.lfsr := rfl
@[simp] theorem State.setRes_sum (v : Word) (s : State) : (s.setRes v).sum = s.sum := rfl
@[simp] theorem State.setRes_lrc (v : Word) (s : State) : (s.setRes v).lrc = s.lrc := rfl
@[simp] theorem State.setRes_res (v : Word) (s : State) : (s.setRes v).res = v := rfl
@[simp] theorem State.setRes_flt (v : Word) (s : State) : (s.setRes v).flt = s.flt := rfl
@[simp] theorem State.setRes_plan (v : Word) (s : State) : (s.setRes v).plan = s.plan := rfl
@[simp] theorem State.setRes_seq (v : Word) (s : State) : (s.setRes v).seq = s.seq := rfl
@[simp] theorem State.setRes_tx (v : Word) (s : State) : (s.setRes v).tx = s.tx := rfl
@[simp] theorem State.setRes_rx (v : Word) (s : State) : (s.setRes v).rx = s.rx := rfl
@[simp] theorem State.setRes_imem (v : Word) (s : State) : (s.setRes v).imem = s.imem := rfl
@[simp] theorem State.setRes_markerAckLen (v : Word) (s : State) : (s.setRes v).markerAckLen = s.markerAckLen := rfl
@[simp] theorem State.setRes_ci (v : Word) (s : State) : (s.setRes v).ci = s.ci := rfl
@[simp] theorem State.setRes_pending (v : Word) (s : State) : (s.setRes v).pending = s.pending := rfl
@[simp] theorem State.setRes_turn (v : Word) (s : State) : (s.setRes v).turn = s.turn := rfl

/-! ### State.raise -/

@[simp] theorem State.raise_lfsr (f : FltBit) (s : State) : (s.raise f).lfsr = s.lfsr := rfl
@[simp] theorem State.raise_sum (f : FltBit) (s : State) : (s.raise f).sum = s.sum := rfl
@[simp] theorem State.raise_lrc (f : FltBit) (s : State) : (s.raise f).lrc = s.lrc := rfl
@[simp] theorem State.raise_res (f : FltBit) (s : State) : (s.raise f).res = s.res := rfl
@[simp] theorem State.raise_flt (f : FltBit) (s : State) : (s.raise f).flt = s.flt ||| f.mask := rfl
@[simp] theorem State.raise_plan (f : FltBit) (s : State) : (s.raise f).plan = s.plan := rfl
@[simp] theorem State.raise_seq (f : FltBit) (s : State) : (s.raise f).seq = s.seq := rfl
@[simp] theorem State.raise_tx (f : FltBit) (s : State) : (s.raise f).tx = s.tx := rfl
@[simp] theorem State.raise_rx (f : FltBit) (s : State) : (s.raise f).rx = s.rx := rfl
@[simp] theorem State.raise_imem (f : FltBit) (s : State) : (s.raise f).imem = s.imem := rfl
@[simp] theorem State.raise_markerAckLen (f : FltBit) (s : State) : (s.raise f).markerAckLen = s.markerAckLen := rfl
@[simp] theorem State.raise_ci (f : FltBit) (s : State) : (s.raise f).ci = s.ci := rfl
@[simp] theorem State.raise_pending (f : FltBit) (s : State) : (s.raise f).pending = s.pending := rfl
@[simp] theorem State.raise_turn (f : FltBit) (s : State) : (s.raise f).turn = s.turn := rfl

/-! ### State.abort -/

@[simp] theorem State.abort_lfsr (r : Reason) (s : State) : (s.abort r).lfsr = s.lfsr := rfl
@[simp] theorem State.abort_sum (r : Reason) (s : State) : (s.abort r).sum = s.sum := rfl
@[simp] theorem State.abort_lrc (r : Reason) (s : State) : (s.abort r).lrc = s.lrc := rfl
@[simp] theorem State.abort_res (r : Reason) (s : State) : (s.abort r).res = s.res := rfl
@[simp] theorem State.abort_flt (r : Reason) (s : State) : (s.abort r).flt = s.flt := rfl
@[simp] theorem State.abort_plan (r : Reason) (s : State) : (s.abort r).plan = s.plan := rfl
@[simp] theorem State.abort_seq (r : Reason) (s : State) : (s.abort r).seq = { s.seq with st := .aborted, ph := .none, reason := r } := rfl
@[simp] theorem State.abort_tx (r : Reason) (s : State) : (s.abort r).tx = s.tx := rfl
@[simp] theorem State.abort_rx (r : Reason) (s : State) : (s.abort r).rx = s.rx := rfl
@[simp] theorem State.abort_imem (r : Reason) (s : State) : (s.abort r).imem = s.imem := rfl
@[simp] theorem State.abort_markerAckLen (r : Reason) (s : State) : (s.abort r).markerAckLen = s.markerAckLen := rfl
@[simp] theorem State.abort_ci (r : Reason) (s : State) : (s.abort r).ci = s.ci := rfl
@[simp] theorem State.abort_pending (r : Reason) (s : State) : (s.abort r).pending = s.pending := rfl
@[simp] theorem State.abort_turn (r : Reason) (s : State) : (s.abort r).turn = s.turn := rfl

/-! ### State.resetBlock -/

@[simp] theorem State.resetBlock_lfsr (s : State) : (s.resetBlock).lfsr = 0x50 := rfl
@[simp] theorem State.resetBlock_sum (s : State) : (s.resetBlock).sum = 0 := rfl
@[simp] theorem State.resetBlock_lrc (s : State) : (s.resetBlock).lrc = 0 := rfl
@[simp] theorem State.resetBlock_res (s : State) : (s.resetBlock).res = 0 := rfl
@[simp] theorem State.resetBlock_flt (s : State) : (s.resetBlock).flt = 0 := rfl
@[simp] theorem State.resetBlock_plan (s : State) : (s.resetBlock).plan = .reset := rfl
@[simp] theorem State.resetBlock_seq (s : State) : (s.resetBlock).seq = .reset := rfl
@[simp] theorem State.resetBlock_tx (s : State) : (s.resetBlock).tx = s.tx := rfl
@[simp] theorem State.resetBlock_rx (s : State) : (s.resetBlock).rx = [] := rfl
@[simp] theorem State.resetBlock_imem (s : State) : (s.resetBlock).imem = s.imem := rfl
@[simp] theorem State.resetBlock_markerAckLen (s : State) : (s.resetBlock).markerAckLen = s.markerAckLen := rfl
@[simp] theorem State.resetBlock_ci (s : State) : (s.resetBlock).ci = s.ci := rfl
@[simp] theorem State.resetBlock_pending (s : State) : (s.resetBlock).pending = s.pending := rfl
@[simp] theorem State.resetBlock_turn (s : State) : (s.resetBlock).turn = s.turn := rfl

/-! ### State.setPlan -/

@[simp] theorem State.setPlan_lfsr (p : Plan) (s : State) : (s.setPlan p).lfsr = s.lfsr := rfl
@[simp] theorem State.setPlan_sum (p : Plan) (s : State) : (s.setPlan p).sum = s.sum := rfl
@[simp] theorem State.setPlan_lrc (p : Plan) (s : State) : (s.setPlan p).lrc = s.lrc := rfl
@[simp] theorem State.setPlan_res (p : Plan) (s : State) : (s.setPlan p).res = s.res := rfl
@[simp] theorem State.setPlan_flt (p : Plan) (s : State) : (s.setPlan p).flt = s.flt := rfl
@[simp] theorem State.setPlan_plan (p : Plan) (s : State) : (s.setPlan p).plan = p := rfl
@[simp] theorem State.setPlan_seq (p : Plan) (s : State) : (s.setPlan p).seq = s.seq := rfl
@[simp] theorem State.setPlan_tx (p : Plan) (s : State) : (s.setPlan p).tx = s.tx := rfl
@[simp] theorem State.setPlan_rx (p : Plan) (s : State) : (s.setPlan p).rx = s.rx := rfl
@[simp] theorem State.setPlan_imem (p : Plan) (s : State) : (s.setPlan p).imem = s.imem := rfl
@[simp] theorem State.setPlan_markerAckLen (p : Plan) (s : State) : (s.setPlan p).markerAckLen = s.markerAckLen := rfl
@[simp] theorem State.setPlan_ci (p : Plan) (s : State) : (s.setPlan p).ci = s.ci := rfl
@[simp] theorem State.setPlan_pending (p : Plan) (s : State) : (s.setPlan p).pending = s.pending := rfl
@[simp] theorem State.setPlan_turn (p : Plan) (s : State) : (s.setPlan p).turn = s.turn := rfl

/-! ### State.setLfsr -/

@[simp] theorem State.setLfsr_lfsr (v : Byte) (s : State) : (s.setLfsr v).lfsr = v := rfl
@[simp] theorem State.setLfsr_sum (v : Byte) (s : State) : (s.setLfsr v).sum = s.sum := rfl
@[simp] theorem State.setLfsr_lrc (v : Byte) (s : State) : (s.setLfsr v).lrc = s.lrc := rfl
@[simp] theorem State.setLfsr_res (v : Byte) (s : State) : (s.setLfsr v).res = s.res := rfl
@[simp] theorem State.setLfsr_flt (v : Byte) (s : State) : (s.setLfsr v).flt = s.flt := rfl
@[simp] theorem State.setLfsr_plan (v : Byte) (s : State) : (s.setLfsr v).plan = s.plan := rfl
@[simp] theorem State.setLfsr_seq (v : Byte) (s : State) : (s.setLfsr v).seq = s.seq := rfl
@[simp] theorem State.setLfsr_tx (v : Byte) (s : State) : (s.setLfsr v).tx = s.tx := rfl
@[simp] theorem State.setLfsr_rx (v : Byte) (s : State) : (s.setLfsr v).rx = s.rx := rfl
@[simp] theorem State.setLfsr_imem (v : Byte) (s : State) : (s.setLfsr v).imem = s.imem := rfl
@[simp] theorem State.setLfsr_markerAckLen (v : Byte) (s : State) : (s.setLfsr v).markerAckLen = s.markerAckLen := rfl
@[simp] theorem State.setLfsr_ci (v : Byte) (s : State) : (s.setLfsr v).ci = s.ci := rfl
@[simp] theorem State.setLfsr_pending (v : Byte) (s : State) : (s.setLfsr v).pending = s.pending := rfl
@[simp] theorem State.setLfsr_turn (v : Byte) (s : State) : (s.setLfsr v).turn = s.turn := rfl

/-! ### State.sumPut -/

@[simp] theorem State.sumPut_lfsr (b : Byte) (s : State) : (s.sumPut b).lfsr = s.lfsr := rfl
@[simp] theorem State.sumPut_sum (b : Byte) (s : State) : (s.sumPut b).sum = s.sum + b := rfl
@[simp] theorem State.sumPut_lrc (b : Byte) (s : State) : (s.sumPut b).lrc = s.lrc := rfl
@[simp] theorem State.sumPut_res (b : Byte) (s : State) : (s.sumPut b).res = s.res := rfl
@[simp] theorem State.sumPut_flt (b : Byte) (s : State) : (s.sumPut b).flt = s.flt := rfl
@[simp] theorem State.sumPut_plan (b : Byte) (s : State) : (s.sumPut b).plan = s.plan := rfl
@[simp] theorem State.sumPut_seq (b : Byte) (s : State) : (s.sumPut b).seq = s.seq := rfl
@[simp] theorem State.sumPut_tx (b : Byte) (s : State) : (s.sumPut b).tx = s.tx := rfl
@[simp] theorem State.sumPut_rx (b : Byte) (s : State) : (s.sumPut b).rx = s.rx := rfl
@[simp] theorem State.sumPut_imem (b : Byte) (s : State) : (s.sumPut b).imem = s.imem := rfl
@[simp] theorem State.sumPut_markerAckLen (b : Byte) (s : State) : (s.sumPut b).markerAckLen = s.markerAckLen := rfl
@[simp] theorem State.sumPut_ci (b : Byte) (s : State) : (s.sumPut b).ci = s.ci := rfl
@[simp] theorem State.sumPut_pending (b : Byte) (s : State) : (s.sumPut b).pending = s.pending := rfl
@[simp] theorem State.sumPut_turn (b : Byte) (s : State) : (s.sumPut b).turn = s.turn := rfl

/-! ### State.setLrc -/

@[simp] theorem State.setLrc_lfsr (v : Byte) (s : State) : (s.setLrc v).lfsr = s.lfsr := rfl
@[simp] theorem State.setLrc_sum (v : Byte) (s : State) : (s.setLrc v).sum = s.sum := rfl
@[simp] theorem State.setLrc_lrc (v : Byte) (s : State) : (s.setLrc v).lrc = v := rfl
@[simp] theorem State.setLrc_res (v : Byte) (s : State) : (s.setLrc v).res = s.res := rfl
@[simp] theorem State.setLrc_flt (v : Byte) (s : State) : (s.setLrc v).flt = s.flt := rfl
@[simp] theorem State.setLrc_plan (v : Byte) (s : State) : (s.setLrc v).plan = s.plan := rfl
@[simp] theorem State.setLrc_seq (v : Byte) (s : State) : (s.setLrc v).seq = s.seq := rfl
@[simp] theorem State.setLrc_tx (v : Byte) (s : State) : (s.setLrc v).tx = s.tx := rfl
@[simp] theorem State.setLrc_rx (v : Byte) (s : State) : (s.setLrc v).rx = s.rx := rfl
@[simp] theorem State.setLrc_imem (v : Byte) (s : State) : (s.setLrc v).imem = s.imem := rfl
@[simp] theorem State.setLrc_markerAckLen (v : Byte) (s : State) : (s.setLrc v).markerAckLen = s.markerAckLen := rfl
@[simp] theorem State.setLrc_ci (v : Byte) (s : State) : (s.setLrc v).ci = s.ci := rfl
@[simp] theorem State.setLrc_pending (v : Byte) (s : State) : (s.setLrc v).pending = s.pending := rfl
@[simp] theorem State.setLrc_turn (v : Byte) (s : State) : (s.setLrc v).turn = s.turn := rfl

/-! ### State.countCommand -/

@[simp] theorem State.countCommand_lfsr (s : State) : (s.countCommand).lfsr = s.lfsr := rfl
@[simp] theorem State.countCommand_sum (s : State) : (s.countCommand).sum = s.sum := rfl
@[simp] theorem State.countCommand_lrc (s : State) : (s.countCommand).lrc = s.lrc := rfl
@[simp] theorem State.countCommand_res (s : State) : (s.countCommand).res = s.res := rfl
@[simp] theorem State.countCommand_flt (s : State) : (s.countCommand).flt = s.flt := rfl
@[simp] theorem State.countCommand_plan (s : State) : (s.countCommand).plan = s.plan := rfl
@[simp] theorem State.countCommand_seq (s : State) : (s.countCommand).seq = s.seq := rfl
@[simp] theorem State.countCommand_tx (s : State) : (s.countCommand).tx = s.tx := rfl
@[simp] theorem State.countCommand_rx (s : State) : (s.countCommand).rx = s.rx := rfl
@[simp] theorem State.countCommand_imem (s : State) : (s.countCommand).imem = s.imem := rfl
@[simp] theorem State.countCommand_markerAckLen (s : State) : (s.countCommand).markerAckLen = s.markerAckLen := rfl
@[simp] theorem State.countCommand_ci (s : State) : (s.countCommand).ci = s.ci + 1 := rfl
@[simp] theorem State.countCommand_pending (s : State) : (s.countCommand).pending = s.pending := rfl
@[simp] theorem State.countCommand_turn (s : State) : (s.countCommand).turn = s.turn := rfl

end Sys2Proof.Machine
end

