-- ==== Sys2Proof/Laws/Exec.lean ====
section
/-! SUPPORT. What a command can do: one lemma per shared operation, and the shape of every command's answer. -/

namespace Sys2Proof.Machine

open Host (Outcome)

/-! ### accept: the checks BUSY and RANGE, then the effect (R203) -/

theorem accept_busy {legal : Bool} {effect : State → State} {s : State} (h : s.seq.st = .run) :
    accept legal effect s = s.raise .busy := by simp [accept, h]

theorem accept_range {effect : State → State} {s : State} (h : s.seq.st ≠ .run) : accept false effect s = s.raise .range := by
  simp [accept, h]

theorem accept_effect {effect : State → State} {s : State} (h : s.seq.st ≠ .run) : accept true effect s = effect s := by
  simp [accept, h]

/-- Everything `accept` can do. -/
theorem accept_cases (legal : Bool) (effect : State → State) (s : State) :
    (s.seq.st = .run ∧ accept legal effect s = s.raise .busy) ∨
      (s.seq.st ≠ .run ∧ legal = true ∧ accept legal effect s = effect s) ∨
      (s.seq.st ≠ .run ∧ legal = false ∧ accept legal effect s = s.raise .range) := by
  by_cases h : s.seq.st = .run
  · exact .inl ⟨h, accept_busy h⟩
  · cases legal
    · exact .inr (.inr ⟨h, rfl, accept_range h⟩)
    · exact .inr (.inl ⟨h, rfl, accept_effect h⟩)

/-- A fact that a raised fault bit keeps and the effect establishes holds of what `accept` answers. -/
theorem accept_ind {P : State → Prop} {legal : Bool} {effect : State → State} {s : State} (hraise : ∀ f, P (s.raise f))
    (heff : s.seq.st ≠ .run → legal = true → P (effect s)) : P (accept legal effect s) := by
  rcases accept_cases legal effect s with ⟨-, h⟩ | ⟨hs, hl, h⟩ | ⟨-, -, h⟩ <;> rw [h]
  · exact hraise _
  · exact heff hs hl
  · exact hraise _

/-! ### The effects -/

/-- What RX.GET does (R98). -/
theorem rxGetEffect_cases (s : State) :
    (s.rx = [] ∧ rxGetEffect s = s.setRes 0x100) ∨
      ∃ y rest, s.rx = y :: rest ∧ rxGetEffect s = { s with rx := rest, res := y.setWidth 32 } := by
  unfold rxGetEffect
  split
  · exact .inr ⟨_, _, ‹_›, rfl⟩
  · exact .inl ⟨‹_›, rfl⟩

/-- What LFSR.CHK does (R107). -/
theorem lfsrChkEffect_cases (s : State) :
    (s.rx = [] ∧ lfsrChkEffect s = s.setRes 2) ∨
      ∃ y rest, s.rx = y :: rest ∧
        ((handshakePasses y (lfsrOut s.lfsr) = true ∧ lfsrChkEffect s = { s with rx := rest, res := 1, lfsr := lfsrNext s.lfsr }) ∨
          (handshakePasses y (lfsrOut s.lfsr) = false ∧ lfsrChkEffect s = State.raise .hsf { s with rx := rest, res := 0 })) := by
  unfold lfsrChkEffect
  split
  · exact .inl ⟨‹_›, rfl⟩
  · refine .inr ⟨_, _, ‹_›, ?_⟩
    split
    · exact .inl ⟨‹_›, rfl⟩
    · rename_i h
      exact .inr ⟨by simpa using h, rfl⟩

/-- What SUM.IMG does where its operand is legal (R124). -/
theorem sumImgEffect_cases (c : CoreId) (s : State) : ∃ b, sumImgEffect c s = s.sumPut b := by
  unfold sumImgEffect
  split
  · exact ⟨_, rfl⟩
  · exact ⟨0, by simp [State.sumPut]⟩

/-- What RDR does: it writes `RES` or raises RANGE (R95). -/
theorem execRdr_cases (r : Byte) (s : State) :
    (∃ v, readRegister r s = some v ∧ execRdr r s = .next (s.setRes v)) ∨
      (readRegister r s = none ∧ execRdr r s = .next (s.raise .range)) := by
  unfold execRdr
  cases h : readRegister r s with
  | none => exact .inr ⟨rfl, rfl⟩
  | some v => exact .inl ⟨v, rfl, rfl⟩

/-- Every command answers a next state (R90: a command never holds). -/
theorem exec_isNext (i : Instr) (s : State) : ∃ t, exec i s = .next t := by
  cases i <;> exact ⟨_, rfl⟩

end Sys2Proof.Machine
end

