-- ==== Sys2Proof/Laws/Invariant.lean ====
section
/-! SUPPORT. The clauses of 45_sequencer.md R184, one by one, as the invariant of Safety.lean gives them. -/

namespace Sys2Proof.Machine

/-- How many payload bytes of the page in progress have been sent (R174, R176). -/
def payloadSent (q : SeqRegs) : Nat :=
  match q.ph with
  | .hdr => 0
  | .pay => q.idx.toNat
  | _ => q.chunk.toNat

/-- R184, clause by clause, in every legal state with a page in progress. Its clause `OFF mod 512 = 0` stands for data pages; on the marker page
R172 and R179 leave `OFF = PLAN[COG].len` (notes/assumptions/7.md). -/
theorem inv_page_clauses {s : State} (h : s.Inv) (hrun : s.seq.st = .run) (hs : s.seq.ph ≠ .ssync) (hc : s.seq.ph ≠ .csync) :
    ∃ e, coreInRange s.seq.cog ∧ s.plan.entry? s.seq.cog = some e ∧ e.valid = true ∧ s.seq.off.toNat ≤ e.len.toNat ∧
      (s.seq.marker = false → s.seq.off.toNat % 512 = 0) ∧ (s.seq.marker = true → s.seq.off = e.len) ∧
      (s.seq.ph = .pay → s.seq.idx.toNat < s.seq.chunk.toNat ∧ s.seq.off.toNat + s.seq.chunk.toNat ≤ e.len.toNat) ∧
      (s.seq.ph = .ack → s.seq.ackn.toNat < ackNeed s) ∧
      s.lrc = xorBytes (s.imem.bytes (e.ptr.toNat + s.seq.off.toNat) (payloadSent s.seq)) ∧
      s.seq.base.toNat = s.plan.lenBelow s.seq.cog := by
  obtain ⟨-, -, -, -, -, hsess⟩ := h
  obtain ⟨-, -, -, hp⟩ := hsess hrun
  have hp' : ∃ e, s.plan.entry? s.seq.cog = some e ∧ e.valid = true ∧ s.seq.base.toNat = s.plan.lenBelow s.seq.cog ∧
      s.pageLegal e ∧ s.progressLegal e := by
    unfold State.phaseLegal at hp
    cases hph : s.seq.ph <;> simp_all
  obtain ⟨e, he, hv, hb, hpage, hprog⟩ := hp'
  have hcog : coreInRange s.seq.cog := by
    by_contra hn
    rw [Plan.entry?_eq_none.2 hn] at he
    cases he
  have hnone : s.seq.ph ≠ .none := by
    intro hn
    unfold State.phaseLegal at hp
    simp [hn] at hp
  unfold State.pageLegal pageSize at hpage
  unfold State.progressLegal at hprog
  refine ⟨e, hcog, he, hv, ?_, ?_, ?_, ?_, ?_, ?_, hb⟩
  · split at hpage
    · rw [hpage.1]
    · omega
  · intro hm
    simp only [hm, Bool.false_eq_true, if_false] at hpage
    exact hpage.2.1
  · intro hm
    simp only [hm, if_true] at hpage
    exact hpage.1
  · intro hpay
    simp only [hpay] at hprog
    simp only [hprog.1, Bool.false_eq_true, if_false] at hpage
    exact ⟨hprog.2.2.1, by omega⟩
  · intro hack
    simp only [hack] at hprog
    exact hprog.1
  · unfold payloadSent
    cases hph : s.seq.ph <;> simp only [hph] at hprog ⊢
    · exact absurd hph hnone
    · exact absurd hph hs
    · exact absurd hph hc
    · rw [hprog.2]; rfl
    · exact hprog.2.2.2
    · exact hprog.2
    · simp only [hprog.1, if_true] at hpage
      rw [hprog.2, hpage.2]; rfl

end Sys2Proof.Machine
end

