-- ==== Sys2Proof/Laws/Memory.lean ====
section
/-! SUPPORT. Image memory: every write keeps the canonical form, a write is read back, and every other address reads as before. -/

namespace Sys2Proof.Machine

/-- Every address of the listing is above a. -/
abbrev cellsAbove (a : Nat) (l : List Host.Cell) : Prop := ∀ x ∈ l, a < x.1

/-- The listing is in rising order. -/
abbrev cellsRising (l : List Host.Cell) : Prop := l.Pairwise (fun x y => x.1 < y.1)

theorem cellsInsert_mem {a : Nat} {b : Byte} {l : List Host.Cell} {x : Host.Cell} (h : x ∈ cellsInsert a b l) :
    x ∈ l ∨ (x = (a, b) ∧ b ≠ Memory.unlisted) := by
  induction l with
  | nil =>
    unfold cellsInsert at h
    split at h
    · cases h
    · right
      exact ⟨by simpa using h, ‹_›⟩
  | cons y rest ih =>
    obtain ⟨a', b'⟩ := y
    unfold cellsInsert at h
    split at h
    · split at h
      · exact .inl h
      · rcases List.mem_cons.1 h with h | h
        · exact .inr ⟨h, ‹_›⟩
        · exact .inl h
    · split at h
      · split at h
        · exact .inl (List.mem_cons_of_mem _ h)
        · rcases List.mem_cons.1 h with h | h
          · exact .inr ⟨h, ‹_›⟩
          · exact .inl (List.mem_cons_of_mem _ h)
      · rcases List.mem_cons.1 h with h | h
        · exact .inl (h ▸ List.mem_cons_self)
        · rcases ih h with h | h
          · exact .inl (List.mem_cons_of_mem _ h)
          · exact .inr h

theorem cellsInsert_rising {a : Nat} {b : Byte} {l : List Host.Cell} (hl : cellsRising l) : cellsRising (cellsInsert a b l) := by
  induction l with
  | nil =>
    unfold cellsInsert
    split <;> simp [cellsRising]
  | cons y rest ih =>
    obtain ⟨a', b'⟩ := y
    have hr := List.pairwise_cons.1 hl
    unfold cellsInsert
    split
    · split
      · exact hl
      · refine List.pairwise_cons.2 ⟨fun z hz => ?_, hl⟩
        rcases List.mem_cons.1 hz with rfl | hz
        · assumption
        · exact Nat.lt_trans (by assumption) (hr.1 z hz)
    · split
      · rename_i heq
        split
        · exact hr.2
        · exact List.pairwise_cons.2 ⟨fun z hz => by have := hr.1 z hz; simp only at this ⊢; omega, hr.2⟩
      · refine List.pairwise_cons.2 ⟨fun z hz => ?_, ih hr.2⟩
        rcases cellsInsert_mem hz with hz | ⟨rfl, -⟩
        · exact hr.1 z hz
        · simp only; omega

/-- A write keeps the canonical form. -/
theorem Memory.write_wf {m : Memory} (a : Nat) (b : Byte) (hm : m.wf) : (m.write a b).wf := by
  unfold Memory.write
  split
  · refine ⟨cellsInsert_rising hm.1, fun x hx => ?_⟩
    rcases cellsInsert_mem hx with hx | ⟨rfl, hb⟩
    · exact hm.2 x hx
    · exact ⟨by assumption, hb⟩
  · exact hm

@[simp] theorem Memory.write_size (m : Memory) (a : Nat) (b : Byte) : (m.write a b).size = m.size := by
  unfold Memory.write
  split <;> rfl

/-- Writing a byte sequence keeps the canonical form. -/
theorem Memory.writeBytes_wf {m : Memory} (a : Nat) (bs : List Byte) (hm : m.wf) : (m.writeBytes a bs).wf := by
  induction bs generalizing m a with
  | nil => exact hm
  | cons b bs ih => exact ih (a + 1) (Memory.write_wf a b hm)

theorem lookup_cons_ne {a a₁ : Nat} (h : a₁ ≠ a) (b : Byte) (l : List Host.Cell) : ((a, b) :: l).lookup a₁ = l.lookup a₁ := by
  rw [List.lookup_cons, show (a₁ == a) = false by simpa using h]

theorem lookup_above {a : Nat} {l : List Host.Cell} (h : cellsAbove a l) : l.lookup a = none := by
  induction l with
  | nil => rfl
  | cons y rest ih =>
    have hy := h y List.mem_cons_self
    rw [lookup_cons_ne (by omega)]
    exact ih (fun x hx => h x (List.mem_cons_of_mem _ hx))

theorem lookup_cellsInsert {a a₁ : Nat} {b : Byte} {l : List Host.Cell} (hl : cellsRising l) :
    ((cellsInsert a b l).lookup a₁).getD Memory.unlisted = if a₁ = a then b else (l.lookup a₁).getD Memory.unlisted := by
  induction l with
  | nil =>
    by_cases h : a₁ = a <;> by_cases hb : b = Memory.unlisted <;> simp [cellsInsert, h, hb, lookup_cons_ne]
  | cons y rest ih =>
    obtain ⟨a', b'⟩ := y
    have hr := List.pairwise_cons.1 hl
    unfold cellsInsert
    by_cases hlt : a < a'
    · have habove : cellsAbove a ((a', b') :: rest) := by
        intro x hx
        rcases List.mem_cons.1 hx with rfl | hx
        · exact hlt
        · exact Nat.lt_trans hlt (hr.1 x hx)
      by_cases h : a₁ = a <;> by_cases hb : b = Memory.unlisted <;> simp [hlt, h, hb, lookup_cons_ne, lookup_above habove]
    · by_cases heq : a = a'
      · subst heq
        by_cases h : a₁ = a <;> by_cases hb : b = Memory.unlisted <;> simp [h, hb, lookup_cons_ne, lookup_above hr.1]
      · rw [if_neg hlt, if_neg heq]
        by_cases h : a₁ = a'
        · subst h
          simp [Ne.symm heq]
        · rw [lookup_cons_ne h, lookup_cons_ne h, ih hr.2]

/-- A byte written at an existing address is read back; every other address reads as before. -/
theorem Memory.byte_write {m : Memory} (hm : m.wf) {a : Nat} (ha : a < m.size.val) (b : Byte) (a₁ : Nat) :
    (m.write a b).byte a₁ = if a₁ = a then b else m.byte a₁ := by
  unfold Memory.write Memory.byte
  simp only [ha, if_true]
  exact lookup_cellsInsert hm.1

/-- A memory that lists nothing has the canonical form. -/
theorem Memory.wf_nil (n : ImemSize) : Memory.wf { size := n, cells := [] } := by
  simp [Memory.wf]

/-- The memory of the reset state has the canonical form. -/
theorem State.reset_imem_wf : State.reset.imem.wf := Memory.wf_nil _

/-- What a checked byte read can answer. -/
theorem Memory.byteAt?_eq_some {m : Memory} {a : Nat} {b : Byte} : m.byteAt? a = some b ↔ a < m.size.val ∧ m.byte a = b := by
  unfold Memory.byteAt?
  split <;> simp_all

@[simp] theorem Memory.length_bytes (m : Memory) (p n : Nat) : (m.bytes p n).length = n := by
  simp [Memory.bytes]

theorem Memory.bytes_succ (m : Memory) (p n : Nat) : m.bytes p (n + 1) = m.bytes p n ++ [m.byte (p + n)] := by
  simp [Memory.bytes, List.range_succ]

end Sys2Proof.Machine
end

