-- ==== Sys2Proof/Laws/PerInstr.lean ====
section
/-! SUPPORT. The family of per-command facts `EncodeReserved`: a command's word has its opcode in bits 39:32 and no reserved bit set
(30_encoding.md R76, R77). -/

namespace Sys2Proof.Laws

theorem setWidth_and_eq_zero {n : Nat} (x : BitVec n) (r : Word) (hr : ∀ k < n, r.getLsbD k = false) :
    (x.setWidth 32 &&& r) = 0 := by
  apply BitVec.eq_of_getLsbD_eq
  intro i hi
  rw [BitVec.getLsbD_and, BitVec.getLsbD_setWidth]
  by_cases h : i < n
  · simp [hr i h]
  · simp [BitVec.getLsbD_of_ge x i (by omega)]

/-- The word of a command: its opcode, and an operand whose reserved bits are 0. -/
def EncodeReserved.Statement (i : Instr) : Prop :=
  opcodeField (encode i) = i.opcode ∧ argField (encode i) &&& i.form.reserved = 0

theorem EncodeReserved.nop : EncodeReserved.Statement .nop :=
  ⟨opcodeField_append _ _, by rw [argField_encode]; rfl⟩

theorem EncodeReserved.reset : EncodeReserved.Statement .reset :=
  ⟨opcodeField_append _ _, by rw [argField_encode]; rfl⟩

theorem EncodeReserved.rdr (r : Byte) : EncodeReserved.Statement (.rdr r) :=
  ⟨opcodeField_append _ _, by rw [argField_encode]; exact setWidth_and_eq_zero _ (Form.reserved .B) (by decide)⟩

theorem EncodeReserved.rxFlush : EncodeReserved.Statement .rxFlush :=
  ⟨opcodeField_append _ _, by rw [argField_encode]; rfl⟩

theorem EncodeReserved.txRaw (b : Byte) : EncodeReserved.Statement (.txRaw b) :=
  ⟨opcodeField_append _ _, by rw [argField_encode]; exact setWidth_and_eq_zero _ (Form.reserved .B) (by decide)⟩

theorem EncodeReserved.rxGet : EncodeReserved.Statement .rxGet :=
  ⟨opcodeField_append _ _, by rw [argField_encode]; rfl⟩

theorem EncodeReserved.lfsrSeed (v : Byte) : EncodeReserved.Statement (.lfsrSeed v) :=
  ⟨opcodeField_append _ _, by rw [argField_encode]; exact setWidth_and_eq_zero _ (Form.reserved .B) (by decide)⟩

theorem EncodeReserved.lfsrStep : EncodeReserved.Statement .lfsrStep :=
  ⟨opcodeField_append _ _, by rw [argField_encode]; rfl⟩

theorem EncodeReserved.lfsrTx : EncodeReserved.Statement .lfsrTx :=
  ⟨opcodeField_append _ _, by rw [argField_encode]; rfl⟩

theorem EncodeReserved.lfsrChk : EncodeReserved.Statement .lfsrChk :=
  ⟨opcodeField_append _ _, by rw [argField_encode]; rfl⟩

theorem EncodeReserved.sumClr : EncodeReserved.Statement .sumClr :=
  ⟨opcodeField_append _ _, by rw [argField_encode]; rfl⟩

theorem EncodeReserved.sumAdd (b : Byte) : EncodeReserved.Statement (.sumAdd b) :=
  ⟨opcodeField_append _ _, by rw [argField_encode]; exact setWidth_and_eq_zero _ (Form.reserved .B) (by decide)⟩

theorem EncodeReserved.sumImg (c : CoreId) : EncodeReserved.Statement (.sumImg c) :=
  ⟨opcodeField_append _ _, by rw [argField_encode]; exact setWidth_and_eq_zero _ (Form.reserved .C) (by decide)⟩

theorem EncodeReserved.sumMark (m : Bool) : EncodeReserved.Statement (.sumMark m) :=
  ⟨opcodeField_append _ _, by rw [argField_encode]; exact setWidth_and_eq_zero _ (Form.reserved .M) (by decide)⟩

theorem EncodeReserved.sumTest : EncodeReserved.Statement .sumTest :=
  ⟨opcodeField_append _ _, by rw [argField_encode]; rfl⟩

theorem EncodeReserved.lrcClr : EncodeReserved.Statement .lrcClr :=
  ⟨opcodeField_append _ _, by rw [argField_encode]; rfl⟩

theorem EncodeReserved.lrcXor (b : Byte) : EncodeReserved.Statement (.lrcXor b) :=
  ⟨opcodeField_append _ _, by rw [argField_encode]; exact setWidth_and_eq_zero _ (Form.reserved .B) (by decide)⟩

theorem EncodeReserved.encWord (v : Word) : EncodeReserved.Statement (.encWord v) :=
  ⟨opcodeField_append _ _, by rw [argField_encode]; exact BitVec.and_zero⟩

theorem EncodeReserved.encMem (a : Address) : EncodeReserved.Statement (.encMem a) :=
  ⟨opcodeField_append _ _, by rw [argField_encode]; exact setWidth_and_eq_zero _ (Form.reserved .A) (by decide)⟩

theorem EncodeReserved.frmSync (p : Byte) : EncodeReserved.Statement (.frmSync p) :=
  ⟨opcodeField_append _ _, by rw [argField_encode]; exact setWidth_and_eq_zero _ (Form.reserved .B) (by decide)⟩

theorem EncodeReserved.frmByte (b : Byte) : EncodeReserved.Statement (.frmByte b) :=
  ⟨opcodeField_append _ _, by rw [argField_encode]; exact setWidth_and_eq_zero _ (Form.reserved .B) (by decide)⟩

theorem EncodeReserved.frmField (w : Word) : EncodeReserved.Statement (.frmField w) :=
  ⟨opcodeField_append _ _, by rw [argField_encode]; exact BitVec.and_zero⟩

theorem EncodeReserved.planClr : EncodeReserved.Statement .planClr :=
  ⟨opcodeField_append _ _, by rw [argField_encode]; rfl⟩

theorem EncodeReserved.planPtr (c : CoreId) (p : Address) : EncodeReserved.Statement (.planPtr c p) :=
  ⟨opcodeField_append _ _, by rw [argField_encode]; exact setWidth_and_eq_zero _ (Form.reserved .P) (by decide)⟩

theorem EncodeReserved.planLen (c : CoreId) (l : Address) : EncodeReserved.Statement (.planLen c l) :=
  ⟨opcodeField_append _ _, by rw [argField_encode]; exact setWidth_and_eq_zero _ (Form.reserved .P) (by decide)⟩

theorem EncodeReserved.planDel (c : CoreId) : EncodeReserved.Statement (.planDel c) :=
  ⟨opcodeField_append _ _, by rw [argField_encode]; exact setWidth_and_eq_zero _ (Form.reserved .C) (by decide)⟩

theorem EncodeReserved.seqStart (run eeprom : Bool) : EncodeReserved.Statement (.seqStart run eeprom) :=
  ⟨opcodeField_append _ _, by rw [argField_encode]; exact setWidth_and_eq_zero _ (Form.reserved .F) (by decide)⟩

end Sys2Proof.Laws
end

