-- ==== Sys2Proof/Laws/Wire.lean ====
section
/-! SUPPORT. Small lemmas of the wire functions. -/

namespace Sys2Proof.Machine

@[simp] theorem length_enc (v : Word) : (enc v).length = 11 := by simp [enc]

@[simp] theorem stuff_nil : stuff [] = [] := rfl

@[simp] theorem stuff_cons (b : Byte) (bs : List Byte) : stuff (b :: bs) = stuff1 b ++ stuff bs := rfl

@[simp] theorem stuff_append (xs ys : List Byte) : stuff (xs ++ ys) = stuff xs ++ stuff ys := by
  simp [stuff]

theorem stuff1_of_ne {b : Byte} (h : b ≠ 0xFF) : stuff1 b = [b] := if_neg h

@[simp] theorem stuff1_ff : stuff1 0xFF = [0xFF, 0x00] := rfl

@[simp] theorem length_be32 (w : Word) : (be32 w).length = 4 := rfl

@[simp] theorem xorBytes_nil : xorBytes [] = 0 := rfl

theorem xorBytes_concat (bs : List Byte) (b : Byte) : xorBytes (bs ++ [b]) = xorBytes bs ^^^ b := by
  simp [xorBytes]

/-- The LFSR step, bit by bit: bit 0 is the feedback, every other bit comes from the one below. -/
theorem getLsbD_lfsrNext (v : Byte) (k : Nat) (hk : k < 8) :
    (lfsrNext v).getLsbD k = if k = 0 then lfsrFeedback v else v.getLsbD (k - 1) := by
  unfold lfsrNext
  rcases k with _ | k
  · simp
  · simp [hk, BitVec.getLsbD_eq_getElem (show k < 8 by omega)]

end Sys2Proof.Machine
end

