-- ==== Sys2Proof/Laws/Sequencer.lean ====
section
/-! SUPPORT. What a step of the sequencer can do: for each phase, one lemma that says everything an answered next state can be. -/

namespace Sys2Proof.Machine

open Host (Outcome)

theorem startPage_of_entry {o : Address} {s : State} {e : PlanEntry} (h : s.plan.entry? s.seq.cog = some e) :
    startPage o s = .next (pageStarted o e s) := by
  unfold startPage
  rw [h]

theorem startPage_next {o : Address} {s t : State} (h : startPage o s = .next t) :
    ∃ e, s.plan.entry? s.seq.cog = some e ∧ t = pageStarted o e s := by
  cases he : s.plan.entry? s.seq.cog with
  | none => unfold startPage at h; rw [he] at h; cases h
  | some e =>
    rw [startPage_of_entry he] at h
    cases h
    exact ⟨e, rfl, rfl⟩

theorem stepSsync_next {s t : State} (h : stepSsync s = .next t) :
    t = { s.txPut (sync (s.seq.n.setWidth 8)) with seq := { s.seq with ph := .csync } } := by
  unfold stepSsync at h
  cases h
  rfl

theorem stepCsync_next {s t : State} (h : stepCsync s = .next t) :
    ∃ c e, s.plan.nextValid s.seq.scan.toNat = some c ∧ s.plan.entry? c = some e ∧ t = pageStarted 0 e (coreSynced c s) := by
  unfold stepCsync at h
  split at h
  · cases h
  · rename_i c hc
    obtain ⟨e, he, ht⟩ := startPage_next h
    exact ⟨c, e, hc, he, ht⟩

theorem stepHdr_next {s t : State} (h : stepHdr s = .next t) :
    ∃ b, (headerBytes s.seq)[s.seq.idx.toNat]? = some b ∧
      t = { s.stuffPut b with
        seq := if s.seq.idx = 7 then { s.seq with idx := 0, ackn := 0, ph := if s.seq.marker then .ack else .pay }
          else { s.seq with idx := s.seq.idx + 1 } } := by
  unfold stepHdr at h
  split at h
  · cases h
  · rename_i b hb
    cases h
    exact ⟨b, hb, rfl⟩

theorem stepPay_next {s t : State} (h : stepPay s = .next t) :
    ∃ e, s.plan.entry? s.seq.cog = some e ∧
      e.ptr.toNat + s.seq.off.toNat + s.seq.idx.toNat < s.imem.size.val ∧
      ((s.seq.idx.toNat + 1 = s.seq.chunk.toNat ∧
          t = { s.stuffPut (s.imem.byte (e.ptr.toNat + s.seq.off.toNat + s.seq.idx.toNat)) with
            lrc := s.lrc ^^^ s.imem.byte (e.ptr.toNat + s.seq.off.toNat + s.seq.idx.toNat)
            seq := { s.seq with idx := 0, ph := .ack } }) ∨
        (s.seq.idx.toNat + 1 ≠ s.seq.chunk.toNat ∧ s.seq.idx.toNat + 1 < 1024 ∧
          t = { s.stuffPut (s.imem.byte (e.ptr.toNat + s.seq.off.toNat + s.seq.idx.toNat)) with
            lrc := s.lrc ^^^ s.imem.byte (e.ptr.toNat + s.seq.off.toNat + s.seq.idx.toNat)
            seq := { s.seq with idx := s.seq.idx + 1 } })) := by
  unfold stepPay at h
  split at h
  · cases h
  · rename_i e he
    split at h
    · cases h
    · rename_i b hb
      obtain ⟨hlt, rfl⟩ := Memory.byteAt?_eq_some.1 hb
      refine ⟨e, he, hlt, ?_⟩
      split at h
      · cases h
        exact .inl ⟨‹_›, rfl⟩
      · split at h
        · cases h
          exact .inr ⟨‹_›, ‹_›, rfl⟩
        · cases h

/-- The verdict on a data page: an abort for the first byte that is wrong, or the next page (R179). -/
theorem dataVerdict_next {s t : State} (h : dataVerdict s = .next t) :
    (s.seq.ackb[0] ≠ 0xFF ∧ t = s.abort .missingSyncByte) ∨
      (s.seq.ackb[0] = 0xFF ∧ s.seq.ackb[1] ≠ s.seq.cog.setWidth 8 ∧ t = s.abort .cogMismatch) ∨
      (s.seq.ackb[0] = 0xFF ∧ s.seq.ackb[1] = s.seq.cog.setWidth 8 ∧ s.seq.ackb[2] ≠ s.lrc ∧ t = s.abort .checksumMismatch) ∨
      (s.seq.ackb[0] = 0xFF ∧ s.seq.ackb[1] = s.seq.cog.setWidth 8 ∧ s.seq.ackb[2] = s.lrc ∧
        s.seq.off.toNat + s.seq.chunk.toNat < 2 ^ 24 ∧
        ∃ e, s.plan.entry? s.seq.cog = some e ∧
          t = pageStarted (s.seq.off + s.seq.chunk.setWidth 24) e (offsetAdvanced s)) := by
  unfold dataVerdict at h
  by_cases h0 : s.seq.ackb[0] = 0xFF
  · by_cases h1 : s.seq.ackb[1] = s.seq.cog.setWidth 8
    · by_cases h2 : s.seq.ackb[2] = s.lrc
      · by_cases h3 : s.seq.off.toNat + s.seq.chunk.toNat < 2 ^ 24
        · simp only [h0, h1, h2, h3, ne_eq, not_true_eq_false, if_false, if_true] at h
          obtain ⟨e, he, ht⟩ := startPage_next h
          exact .inr (.inr (.inr ⟨h0, h1, h2, h3, e, he, ht⟩))
        · simp only [h0, h1, h2, h3, ne_eq, not_true_eq_false, if_false] at h
          cases h
      · simp only [h0, h1, h2, ne_eq, not_true_eq_false, not_false_eq_true, if_false, if_true] at h
        cases h
        exact .inr (.inr (.inl ⟨h0, h1, h2, rfl⟩))
    · simp only [h0, h1, ne_eq, not_true_eq_false, not_false_eq_true, if_false, if_true] at h
      cases h
      exact .inr (.inl ⟨h0, h1, rfl⟩)
  · simp only [h0, ne_eq, not_false_eq_true, if_true] at h
    cases h
    exact .inl ⟨h0, rfl⟩

/-- The verdict on the marker page: an abort, or phase NEXT (R180). -/
theorem markerVerdict_cases (s : State) :
    (∃ r, r ≠ Reason.none ∧ markerVerdict s = s.abort r) ∨ markerVerdict s = { s with seq := { s.seq with ph := .next } } := by
  unfold markerVerdict
  repeat' split
  all_goals first
    | exact .inl ⟨_, by decide, rfl⟩
    | exact .inr rfl

theorem stepAck_next {s t : State} (h : stepAck s = .next t) :
    (s.rx = [] ∧ t = s) ∨
      ∃ y rest, s.rx = y :: rest ∧ ∃ hk : s.seq.ackn.toNat < 3,
        (s.seq.ackn.toNat + 1 ≠ ackNeed s ∧ t = ackStored y rest s hk) ∨
        (s.seq.ackn.toNat + 1 = ackNeed s ∧ s.seq.marker = true ∧ t = markerVerdict (ackStored y rest s hk)) ∨
        (s.seq.ackn.toNat + 1 = ackNeed s ∧ s.seq.marker = false ∧ dataVerdict (ackStored y rest s hk) = .next t) := by
  unfold stepAck at h
  split at h
  · cases h
    exact .inl ⟨‹_›, rfl⟩
  · rename_i y rest hrx
    split at h
    · rename_i hk
      refine .inr ⟨y, rest, hrx, hk, ?_⟩
      split at h
      · rename_i hneed
        split at h
        · cases h
          exact .inr (.inl ⟨hneed, ‹_›, rfl⟩)
        · rename_i hm
          exact .inr (.inr ⟨hneed, by simpa using hm, h⟩)
      · rename_i hneed
        cases h
        exact .inl ⟨hneed, rfl⟩
    · cases h

theorem stepNext_next {s t : State} (h : stepNext s = .next t) :
    ∃ e, s.plan.entry? s.seq.cog = some e ∧
      (((s.plan.nextValid (s.seq.cog.toNat + 1)).isSome = true ∧ t = { s with seq := { imageDone e s.seq with ph := .csync } }) ∨
        (s.plan.nextValid (s.seq.cog.toNat + 1) = none ∧
          t = { s with seq := { imageDone e s.seq with st := .success, ph := .none } })) := by
  unfold stepNext at h
  split at h
  · cases h
  · rename_i e he
    refine ⟨e, he, ?_⟩
    cases hn : s.plan.nextValid (s.seq.cog.toNat + 1) with
    | none =>
      simp only [hn] at h
      cases h
      exact .inr ⟨rfl, rfl⟩
    | some c =>
      simp only [hn] at h
      cases h
      exact .inl ⟨rfl, rfl⟩

/-- A turn of the sequencer: a hold where it has no enabled step, else the step of its phase (R167). -/
theorem sequencerStep_of_disabled {s : State} (h : sequencerEnabled s = false) : sequencerStep s = .next s := by
  simp [sequencerStep, h]

theorem sequencerStep_of_run {s : State} (h : s.seq.st = .run) :
    sequencerStep s = match s.seq.ph with
      | .none => .next s
      | .ssync => stepSsync s
      | .csync => stepCsync s
      | .hdr => stepHdr s
      | .pay => stepPay s
      | .ack => stepAck s
      | .next => stepNext s := by
  unfold sequencerStep sequencerEnabled
  cases hp : s.seq.ph
  all_goals simp only [h, decide_true, Bool.true_and, Bool.false_eq_true, if_true, if_false]
  cases hr : s.rx with
  | nil => simp [stepAck, hr]
  | cons y rest => simp

theorem sequencerStep_of_not_run {s : State} (h : s.seq.st ≠ .run) : sequencerStep s = .next s :=
  sequencerStep_of_disabled (by simp [sequencerEnabled, h])

end Sys2Proof.Machine
end

