-- ==== Sys2Proof/Tests/Slice0.lean ====
section
/-! SUPPORT. The model's own tests: ill-formed commands refused, the decoding of every command's word, one step of each command and of each phase
with the results that 95_test_vectors.md states, and for every statement with hypotheses a state and operands that meet them. -/

namespace Sys2Proof.Tests

open Sys2Proof Sys2Proof.Machine Host

/-! ### The states tested on -/

/-- Image memory of the given size with these bytes from address a, 0x00 elsewhere. -/
def memOf (size : ImemSize) (a : Nat) (bs : List Byte) : Memory := ({ size := size, cells := [] } : Memory).writeBytes a bs

/-- The initial state of programs P3 and P8 (95_test_vectors.md section 3). -/
def idle : State := State.initial (memOf 32 8 [0x00, 0xFF, 0x12, 0xFF, 0xFF, 0x80, 0x01, 0x7E]) .two

/-- The same block with image memory of one word, `01 02 03 FF` (section 2.2), and another image size. -/
def small : State := State.initial (memOf 32 0 [0x01, 0x02, 0x03, 0xFF]) .two

/-- A state with `PLAN[k + 1]` as given. -/
def withEntry (s : State) (k : Fin 8) (e : PlanEntry) : State := { s with plan := s.plan.set k e }

/-- P3 after command 2: `PLAN[2] = {1, 8, 8}`. -/
def planned : State := withEntry idle 1 { valid := true, ptr := 8, len := 8 }

/-- P3 after command 4: the session has started. -/
def started : State := seqStartEffect false false planned

/-- P3 in a later phase: its session registers changed by f, with `LRC` and RX as given. -/
def inPhase (f : SeqRegs → SeqRegs) (lrc : Byte) (rx : List Byte) : State :=
  { started with seq := f started.seq, lrc := lrc, rx := rx }

/-- P3 after step 1. -/
def syncing : State := inPhase (fun q => { q with ph := .csync }) 0 []

/-- P3 in its data page's header, `IDX` as given. -/
def inHeader (idx : BitVec 10) : State := inPhase (fun q => { q with ph := .hdr, cog := 2, chunk := 8, idx := idx }) 0 []

/-- P3 in its marker page's header, `IDX` as given. -/
def inMarkerHeader (idx : BitVec 10) : State :=
  inPhase (fun q => { q with ph := .hdr, cog := 2, marker := true, off := 8, idx := idx, ackn := 3, ackb := #v[0xFF, 0x02, 0x12] }) 0 []

/-- P3 in its payload, `IDX` and `LRC` as given. -/
def inPayload (idx : BitVec 10) (lrc : Byte) : State :=
  inPhase (fun q => { q with ph := .pay, cog := 2, chunk := 8, idx := idx }) lrc []

/-- P3 waiting for its data page's acknowledgment: `ACKN`, `ACKB` and RX as given. -/
def inAck (ackn : BitVec 2) (ackb : Vector Byte 3) (rx : List Byte) : State :=
  inPhase (fun q => { q with ph := .ack, cog := 2, chunk := 8, ackn := ackn, ackb := ackb }) 0x12 rx

/-- P3 waiting for its marker page's acknowledgment, for either `MARKER_ACK_LEN`. -/
def inMarkerAck (l : MarkerAckLen) (ackn : BitVec 2) (b : Byte) (rx : List Byte) : State :=
  { inPhase (fun q => { q with ph := .ack, cog := 2, marker := true, off := 8, ackn := ackn, ackb := #v[b, 0x02, 0x12] }) 0 rx with
    markerAckLen := l }

/-- P3 after step 31. -/
def finishing : State := inPhase (fun q => { q with ph := .next, cog := 2, marker := true, off := 8, ackn := 2, ackb := #v[0xFF, 0x02, 0x12] }) 0 []

/-- The state after a command. -/
def after (i : Instr) (s : State) : Option State :=
  match exec i s with
  | .next t => some t
  | _ => none

/-- The state after a turn of the sequencer. -/
def afterTurn (s : State) : Option State :=
  match sequencerStep s with
  | .next t => some t
  | _ => none

/-- The state after n steps of the whole machine, each taken while `ST = RUN`. -/
def sessionSteps : Nat → State → Option State
  | 0, s => some s
  | n + 1, s =>
    if s.seq.st = .run then
      match step s with
      | .next t => sessionSteps n t
      | _ => none
    else none

/-- It is agent S's turn. -/
def turn (s : State) : State := { s with pending := [.sequencer] }

/-- TX holds what the grammar has sent in this state. -/
def sent (s : State) : State := { s with tx := sentSoFar s }

/-- The session of program P9 (a), with `MARKER_ACK_LEN = 1`: one image of length 0, of core 8. -/
def emptyImage : State :=
  { seqStartEffect false false (withEntry (State.initial { size := 4, cells := [] } .one) 7 { valid := true, ptr := 0, len := 0 }) with
    pending := .deliver 0x08 :: List.replicate 12 .sequencer }

/-! ### WellFormed refuses an ill-formed term, one for each check (R204) -/

theorem test_ill_formed_register_number : Instr.wellFormed (.rdr 0x05) = false ∧ Instr.wellFormed (.rdr 0x19) = false := by decide
theorem test_ill_formed_sum_core : Instr.wellFormed (.sumImg 9) = false := by decide
theorem test_ill_formed_word_address : Instr.wellFormed (.encMem 2) = false := by decide
theorem test_ill_formed_ptr_core : Instr.wellFormed (.planPtr 0 8) = false := by decide
theorem test_ill_formed_len_core : Instr.wellFormed (.planLen 15 8) = false := by decide
theorem test_ill_formed_length : Instr.wellFormed (.planLen 2 6) = false := by decide
theorem test_ill_formed_del_core : Instr.wellFormed (.planDel 0) = false := by decide
theorem test_well_formed_at_the_bounds :
    (∀ r ∈ registerNumbers, Instr.wellFormed (.rdr r) = true) ∧ Instr.wellFormed (.sumImg 8) = true ∧ Instr.wellFormed (.planLen 1 0xFFFFFC) = true := by
  decide

/-! ### Decoding: every constructor's word, written out from the encodings of R75 to R77 (opcode, then operand form) -/

theorem test_decode_system :
    decode 0x0000000000 = .ok .nop ∧ decode 0x0100000000 = .ok .reset ∧ decode 0x0200000018 = .ok (.rdr 0x18) ∧
      decode 0x0300000000 = .ok .rxFlush ∧ decode 0x04000000F9 = .ok (.txRaw 0xF9) ∧ decode 0x0500000000 = .ok .rxGet := by decide
theorem test_decode_lfsr :
    decode 0x1000000050 = .ok (.lfsrSeed 0x50) ∧ decode 0x1100000000 = .ok .lfsrStep ∧ decode 0x1200000000 = .ok .lfsrTx ∧
      decode 0x1300000000 = .ok .lfsrChk := by decide
theorem test_decode_checksum :
    decode 0x2000000000 = .ok .sumClr ∧ decode 0x2100000081 = .ok (.sumAdd 0x81) ∧ decode 0x220000000D = .ok (.sumImg 0xD) ∧
      decode 0x2300000000 = .ok (.sumMark false) ∧ decode 0x2300000001 = .ok (.sumMark true) ∧ decode 0x2400000000 = .ok .sumTest ∧
      decode 0x2800000000 = .ok .lrcClr ∧ decode 0x29000000A4 = .ok (.lrcXor 0xA4) := by decide
theorem test_decode_encoder :
    decode 0x3012345678 = .ok (.encWord 0x12345678) ∧ decode 0x3100ABCDEF = .ok (.encMem 0xABCDEF) := by decide
theorem test_decode_framing :
    decode 0x4000000008 = .ok (.frmSync 8) ∧ decode 0x41000000FE = .ok (.frmByte 0xFE) ∧ decode 0x420500012C = .ok (.frmField 0x0500012C) := by
  decide
theorem test_decode_plan :
    decode 0x5000000000 = .ok .planClr ∧ decode 0x510DABCDEF = .ok (.planPtr 0xD 0xABCDEF) ∧ decode 0x520500012C = .ok (.planLen 5 300) ∧
      decode 0x5300000007 = .ok (.planDel 7) ∧ decode 0x5800000001 = .ok (.seqStart true false) ∧
      decode 0x5800000002 = .ok (.seqStart false true) := by decide
/-- The illegal words of sections 2.1, 2.2, 2.4, 2.6, 2.7. -/
theorem test_decode_illegal :
    decode 0x0700000000 = .error .unknownOpcode ∧ decode 0x0000000001 = .error .reservedBits ∧
      decode 0x1000000150 = .error .reservedBits ∧ decode 0x2300000002 = .error .reservedBits ∧
      decode 0x3101000000 = .error .reservedBits ∧ decode 0x5112000000 = .error .reservedBits ∧
      decode 0x5800000004 = .error .reservedBits ∧ decode 0x1100000001 = .error .reservedBits := by decide
theorem test_encode_is_the_written_word :
    encode (.planPtr 0xD 0xABCDEF) = 0x510DABCDEF ∧ encode (.seqStart false true) = 0x5800000002 ∧ encode (.rdr 0x18) = 0x0200000018 := by decide
theorem test_table_word_is_decoded : decodeTableWord 40 0x5102000008 = some (.planPtr 2 8) ∧ decodeTableWord 40 0x0700000000 = none := by decide

/-- R79's own example; an operand with a reserved bit and an empty operand list (section 2.1). -/
theorem test_assemble :
    assembleLine "PLAN.LEN 2, 8" = some [0x5202000008] ∧ assembleLine "LFSR.SEED 0x150" = some [0x1000000150] ∧
      assembleLine "LFSR.SEED" = none ∧ assembleLine "NOP 1" = none := by decide

/-- Program P2: the checksum byte of its image is 0x7F (R128). -/
theorem test_checksum_byte :
    checksumByte [0x00, 0xB4, 0xC4, 0x04, 0x6F, 0x00, 0x10, 0x00, 0x14, 0x00, 0x1C, 0x00, 0x18, 0x00, 0x20, 0x00, 0x32, 0x00, 0x00, 0x00] = 0x7F := by
  decide

/-! ### One step of each command, with the results of 95_test_vectors.md section 2 -/

/-- Section 2.7, "RDR 0x00, NOP: executed" while `ST = RUN`. -/
theorem test_nop : after .nop idle = some idle ∧ after .nop started = some started := by decide
/-- Section 2.7, last rows: RESET in mid-session. -/
theorem test_reset :
    after .reset { inPayload 3 0xED with flt := 0x2, tx := [0xFF, 0x01], sum := 7 } = some { idle with tx := [0xFF, 0x01] } := by decide
/-- Section 2.7: RDR 0x02 after reset; an absent register number. -/
theorem test_rdr : after (.rdr 0x02) idle = some { idle with res := 0x50 } ∧ after (.rdr 0x05) idle = some { idle with flt := 0x4 } := by decide
/-- P3: STATUS right after SEQ.START; section 2.6: RDR 0x12 and RDR 0x22. -/
theorem test_rdr_views :
    (after (.rdr 0x00) started).map (·.res) = some 0x00011005 ∧ (after (.rdr 0x12) planned).map (·.res) = some 0x00000008 ∧
      (after (.rdr 0x22) planned).map (·.res) = some 0x80000008 := by decide
/-- Section 2.7. -/
theorem test_rx_flush : after .rxFlush { idle with rx := [0x12, 0xFF] } = some idle := by decide
/-- Section 2.5: TX.RAW stuffs nothing. -/
theorem test_tx_raw : after (.txRaw 0xFF) { idle with tx := [0xF9] } = some { idle with tx := [0xF9, 0xFF] } := by decide
/-- Section 2.7. -/
theorem test_rx_get : after .rxGet { idle with rx := [0xFE, 0x12] } = some { idle with rx := [0x12], res := 0xFE } := by decide
theorem test_rx_get_empty : after .rxGet idle = some { idle with res := 0x100 } := by decide
/-- Section 2.1. -/
theorem test_lfsr_seed : after (.lfsrSeed 0x50) { idle with lfsr := 0x14 } = some idle := by decide
theorem test_lfsr_step :
    after .lfsrStep { idle with lfsr := 0xA1 } = some { idle with lfsr := 0x42, res := 1 } ∧
      after .lfsrStep { idle with lfsr := 0xFF } = some { idle with lfsr := 0xFE, res := 1 } := by decide
theorem test_lfsr_step_while_running : after .lfsrStep started = some { started with flt := 0x2 } := by decide
theorem test_lfsr_tx : after .lfsrTx { idle with lfsr := 0xA1, tx := [0xFE] } = some { idle with lfsr := 0x42, tx := [0xFE, 0xFF] } := by decide
theorem test_lfsr_chk :
    after .lfsrChk { idle with rx := [0xFE, 0x77] } = some { idle with rx := [0x77], res := 1, lfsr := 0xA1 } ∧
      after .lfsrChk idle = some { idle with res := 2 } := by decide
theorem test_lfsr_chk_fails :
    after .lfsrChk { idle with lfsr := 0xB9, rx := [0xFE] } = some { idle with lfsr := 0xB9, flt := 0x8 } ∧
      after .lfsrChk { idle with lfsr := 0xB9, rx := [0x01] } = some { idle with lfsr := 0xB9, flt := 0x8 } := by decide
/-- Section 2.2. -/
theorem test_sum_clr : after .sumClr { idle with sum := 0x14 } = some idle := by decide
theorem test_sum_add : after (.sumAdd 0xFF) { idle with sum := 0xFF } = some { idle with sum := 0xFE } := by decide
theorem test_sum_img :
    (after (.sumImg 1) { withEntry small 0 { valid := true, ptr := 0, len := 4 } with sum := 5 }).map (·.sum) = some 0x0A := by decide
theorem test_sum_img_out_of_range :
    (after (.sumImg 1) (withEntry small 0 { valid := true, ptr := 30, len := 4 })).map (fun t => (t.sum, t.flt)) = some (0, 0x4) := by decide
theorem test_sum_mark :
    after (.sumMark false) { idle with sum := 0x14 } = some idle ∧ after (.sumMark true) idle = some { idle with sum := 0xD8 } := by decide
theorem test_sum_test :
    after .sumTest idle = some { idle with res := 1 } ∧ after .sumTest { idle with sum := 1, res := 9 } = some { idle with sum := 1 } := by decide
/-- Section 2.3. -/
theorem test_lrc_clr : after .lrcClr { idle with lrc := 0x12 } = some idle := by decide
theorem test_lrc_xor : after (.lrcXor 0xA5) { idle with lrc := 0x5A } = some { idle with lrc := 0xFF } := by decide
/-- Section 2.4. -/
theorem test_enc_word :
    after (.encWord 0xDEADBEEF) idle =
      some { idle with tx := [0xDB, 0xD3, 0x9B, 0xDB, 0x9B, 0x9B, 0x9B, 0xD3, 0xDA, 0x9B, 0xFB] } := by decide
theorem test_enc_mem :
    (after (.encMem 4) (State.initial (memOf 32 4 [0x78, 0x56, 0x34, 0x12]) .one)).map (·.tx) =
      some [0x92, 0xDB, 0x93, 0x9B, 0xD3, 0x92, 0xD3, 0x93, 0x9A, 0x9A, 0xF2] := by decide
theorem test_enc_mem_out_of_range :
    after (.encMem 2) idle = some { idle with flt := 0x4 } ∧ after (.encMem 32) idle = some { idle with flt := 0x4 } := by decide
/-- Section 2.5. -/
theorem test_frm_sync : after (.frmSync 8) idle = some { idle with tx := [0xFF, 0x08] } := by decide
theorem test_frm_byte :
    after (.frmByte 0xFF) idle = some { idle with tx := [0xFF, 0x00] } ∧ after (.frmByte 0xFE) idle = some { idle with tx := [0xFE] } := by decide
theorem test_frm_field : after (.frmField 0x02FFFFFE) idle = some { idle with tx := [0x02, 0xFF, 0x00, 0xFF, 0x00, 0xFE] } := by decide
/-- Section 2.6. -/
theorem test_plan_clr : after .planClr planned = some idle := by decide
theorem test_plan_ptr : after (.planPtr 2 8) idle = some (withEntry idle 1 { valid := false, ptr := 8, len := 0 }) := by decide
theorem test_plan_len :
    after (.planLen 2 12) (withEntry idle 1 { valid := false, ptr := 8, len := 8 }) =
      some (withEntry idle 1 { valid := true, ptr := 8, len := 12 }) := by decide
theorem test_plan_len_out_of_range : after (.planLen 2 6) planned = some { planned with flt := 0x4 } := by decide
theorem test_plan_del : after (.planDel 2) planned = some (withEntry idle 1 { valid := false, ptr := 8, len := 8 }) := by decide
/-- P5: the flags of SEQ.START 1; section 2.6: the empty plan. -/
theorem test_seq_start :
    (after (.seqStart true false) planned).map (fun t => (t.seq.st, t.seq.ph, t.seq.n, t.seq.scan, t.seq.flags)) =
      some (.run, .ssync, 1, 1, 1) := by decide
theorem test_seq_start_empty_plan : after (.seqStart false false) idle = some { idle with flt := 0x4 } := by decide

/-! ### One step of each phase: the rows of P3's table -/

/-- Step 1. -/
theorem test_step_ssync : afterTurn started = some { syncing with tx := [0xFF, 0x01] } := by decide
/-- Step 2. -/
theorem test_step_csync : afterTurn syncing = some { inHeader 0 with tx := [0xFF, 0x02] } := by decide
/-- Step 10. -/
theorem test_step_hdr : afterTurn (inHeader 7) = some { inPayload 0 0 with tx := [0x08] } := by decide
/-- Step 23. -/
theorem test_step_hdr_stuffed : afterTurn (inMarkerHeader 1) = some { inMarkerHeader 2 with tx := [0xFF, 0x00] } := by decide
/-- Step 14. -/
theorem test_step_pay : afterTurn (inPayload 3 0xED) = some { inPayload 4 0x12 with tx := [0xFF, 0x00] } := by decide
/-- Step 21. -/
theorem test_step_ack : afterTurn (inAck 2 #v[0xFF, 0x02, 0x00] [0x12]) = some (inMarkerHeader 0) := by decide
/-- P4, step 21. -/
theorem test_step_ack_aborts :
    (afterTurn (inAck 2 #v[0xFF, 0x03, 0x00] [0x12, 0xAA])).map (fun t => (t.seq.st, t.seq.ph, t.seq.reason, t.rx, t.lrc)) =
      some (.aborted, .none, .cogMismatch, [0xAA], 0x12) := by decide
/-- Step 32. -/
theorem test_step_next :
    (afterTurn finishing).map (fun t => (t.seq.st, t.seq.ph, t.seq.base, t.seq.scan, t.seq.marker)) = some (.success, .none, 8, 3, false) := by decide

/-! ### Witnesses: the hypotheses of the statements are met -/

theorem witness_EncodeInvertsDecode : decode 0x520500012C = .ok (.planLen 5 300) := by decide

/-- Clauses 2 and 3 of DecodeFollowsOpcodeTable: a word that matches a row, a word that matches none. -/
theorem witness_DecodeFollowsOpcodeTable :
    (("PLAN.LEN", 0x52, Form.P) ∈ opcodeTable ∧ (0x520500012C : CommandWord) &&& rowMask .P = rowMatch 0x52) ∧
      ∀ row ∈ opcodeTable, (0x0700000000 : CommandWord) &&& rowMask row.2.2 ≠ rowMatch row.2.1 := by decide

/-- An unknown opcode, and a known one with its lowest and its highest reserved bit set. -/
theorem witness_IllegalWordsFaultIll : illegalWord 0x0700000000 ∧ illegalWord 0x5110000000 ∧ illegalWord 0x5180000000 := by
  unfold illegalWord
  decide

/-- Every `faultsIll` clause: each row but those of form W has words with its lowest, and with its highest, reserved bit set. -/
theorem witness_faultsIll :
    ∀ row ∈ opcodeTable, row.2.2 = .W ∨
      ((opcodeField (rowMatch row.2.1 ||| 0x80000000) = row.2.1 ∧ argField (rowMatch row.2.1 ||| 0x80000000) &&& row.2.2.reserved ≠ 0) ∧
        ∃ k : Fin 32, argField (rowMatch row.2.1 ||| (1 <<< k.val)) &&& row.2.2.reserved ≠ 0 ∧
          opcodeField (rowMatch row.2.1 ||| (1 <<< k.val)) = row.2.1 ∧ ∀ j < k, row.2.2.reserved.getLsbD j.val = false) := by decide

/-- Every `faultsBusy` clause and every clause with `ST = RUN`; every clause with `ST ≠ RUN`. -/
theorem witness_faultsBusy : started.seq.st = .run ∧ idle.seq.st ≠ .run := by decide

/-- The three clauses of StepRunsDecodedCommand: an illegal word, one that decodes, a table word. -/
theorem witness_StepRunsDecodedCommand :
    ({ idle with pending := [.command 0x1100000001] } : State).pending = .command 0x1100000001 :: [] ∧
    ({ idle with pending := [.command 0x0200000018, .sequencer] } : State).pending = .command 0x0200000018 :: [.sequencer] ∧
      decode 0x0200000018 = .ok (.rdr 0x18) ∧ decodeTableWord 40 0x5800000003 = some (.seqStart true true) := by decide

/-- The four clauses of StepTakesOtherAgentsTurns. -/
theorem witness_StepTakesOtherAgentsTurns :
    ({ started with pending := [.sequencer] } : State).pending = .sequencer :: [] ∧
      ({ idle with pending := [.deliver 0xFF] } : State).pending = .deliver 0xFF :: [] ∧
      ({ idle with pending := [.hardwareReset] } : State).pending = .hardwareReset :: [] ∧ idle.pending = [] := by decide

/-- The clauses of CommandChecksInOrder: ILL, BUSY, RANGE (outside a session, and RDR in one), and none of them. -/
theorem witness_CommandChecksInOrder :
    illegalWord 0x1100000001 ∧
      (decode 0x5209000006 = .ok (.planLen 9 6) ∧ started.seq.st = .run ∧ acceptedInSession (.planLen 9 6) = false) ∧
      (idle.seq.st ≠ .run ∧ operandOutOfRange (.planLen 2 6) idle) ∧
      (decode 0x0200000005 = .ok (.rdr 0x05) ∧ acceptedInSession (.rdr 0x05) = true ∧ operandOutOfRange (.rdr 0x05) started) ∧
      (decode 0x5202000008 = .ok (.planLen 2 8) ∧ ¬operandOutOfRange (.planLen 2 8) idle) ∧ ¬operandOutOfRange (.rdr 0x00) started := by
  unfold illegalWord operandOutOfRange
  decide

theorem witness_CommandsInSessionTouchOnlyResAndFlt :
    started.seq.st = .run ∧ after (.rdr 0x00) started = some { started with res := 0x00011005 } := by decide

/-- `faultsRange` of SUM.IMG: a core id below and above the range, an invalid entry, an image one byte group past the end of image memory. -/
theorem witness_SumImg_out_of_range :
    operandOutOfRange (.sumImg 0) idle ∧ operandOutOfRange (.sumImg 9) idle ∧ operandOutOfRange (.sumImg 3) idle ∧
      operandOutOfRange (.sumImg 1) (withEntry idle 0 { valid := true, ptr := 29, len := 4 }) :=
  ⟨.inl (by decide), .inl (by decide), .inr ⟨_, rfl, .inl (by decide)⟩, .inr ⟨_, rfl, .inr (by decide)⟩⟩

/-- `faultsRange` of ENC.MEM, PLAN.PTR, PLAN.LEN, PLAN.DEL, at the bounds. -/
theorem witness_operands_out_of_range :
    operandOutOfRange (.encMem 30) idle ∧ operandOutOfRange (.encMem 32) idle ∧ operandOutOfRange (.planPtr 0 0) idle ∧
      operandOutOfRange (.planPtr 9 0) idle ∧ operandOutOfRange (.planLen 9 4) idle ∧ operandOutOfRange (.planLen 8 6) idle ∧
      operandOutOfRange (.planDel 15) idle := by
  unfold operandOutOfRange
  decide

/-- `faultsRange` of SEQ.START: the empty plan; an image that ends past image memory. -/
theorem witness_SeqStart_out_of_range :
    operandOutOfRange (.seqStart true true) idle ∧
      operandOutOfRange (.seqStart false false) (withEntry idle 1 { valid := true, ptr := 28, len := 8 }) := by
  unfold operandOutOfRange
  decide

theorem witness_RdrReadsTheNumberedRegister :
    ∀ r ∈ [(0x05 : Byte), 0x0B, 0x10, 0x19, 0x20, 0x29, 0xFF], r ∉ registerNumbers := by decide

theorem witness_RxFlushAndRxGet : idle.rx = [] ∧ ({ idle with rx := [0xFF, 0x12] } : State).rx = 0xFF :: [0x12] := by decide

/-- LFSR.CHK: both bytes that can pass, a byte with the wrong bit, a byte that is neither. -/
theorem witness_LfsrCheckComparesTheEchoedBit :
    ((0xFE : Byte) = 0xFE ∧ (0xFE : Byte) &&& 1 = (0x50 : Byte) &&& 1) ∧ ((0xFF : Byte) = 0xFF ∧ (0xFF : Byte) &&& 1 = (0xB9 : Byte) &&& 1) ∧
      ¬(((0xFE : Byte) = 0xFE ∨ (0xFE : Byte) = 0xFF) ∧ (0xFE : Byte) &&& 1 = (0xB9 : Byte) &&& 1) ∧
      ¬(((0x01 : Byte) = 0xFE ∨ (0x01 : Byte) = 0xFF) ∧ (0x01 : Byte) &&& 1 = (0xB9 : Byte) &&& 1) := by decide

theorem witness_LfsrRunsThroughOneCycleOf255States : (0x01 : Byte) ≠ 0 ∧ (0xFF : Byte) ≠ 0 ∧ lfsrIterate 3 0x50 = 0x85 := by decide

/-- The echo of the first three bits from seed 0x50, then another byte. -/
theorem witness_LfsrCommandsRunTheBitSequence :
    idle.seq.st ≠ .run ∧ [(0xFE : Byte), 0xFF, 0xFE, 0x77] = (List.range (2 + 1)).map (fun k => handshakeByte (lfsrBit idle.lfsr k)) ++ [0x77] := by
  decide

theorem witness_ChecksumByteMakesTheImageValid : 5 < (List.replicate 6 (0xFF : Byte)).length := by decide

theorem witness_HandBuiltPageSendsTheSameBytes : idle.seq.st ≠ .run := by decide

theorem witness_SumClearAddMarkAndTest : idle.sum = 0 ∧ ({ idle with sum := 0xFF } : State).sum ≠ 0 := by decide

/-- An image that ends exactly where image memory ends, and an empty one. -/
theorem witness_SumImgAddsEveryImageByte :
    let e : PlanEntry := { valid := true, ptr := 28, len := 4 }
    (withEntry idle 7 e).plan.entry? 8 = some e ∧ e.valid = true ∧ e.ptr.toNat + e.len.toNat ≤ (withEntry idle 7 e).imem.size.val := by decide

/-- P2's image is valid; its variant a differs in byte 16 alone. -/
theorem witness_ValidateSequenceDecidesTheChecksum :
    let m := memOf 32 0 [0x00, 0xB4, 0xC4, 0x04, 0x6F, 0x7F, 0x10, 0x00, 0x14, 0x00, 0x1C, 0x00, 0x18, 0x00, 0x20, 0x00, 0x32, 0x00, 0x00, 0x00]
    m.checksumValid 0 20 ∧ m.byte 16 ≠ (m.write 16 0x33).byte 16 ∧ ∀ b, b ≠ 16 → m.byte b = (m.write 16 0x33).byte b := by
  intro m
  refine ⟨?_, by decide, fun b hb => ?_⟩
  · unfold Memory.checksumValid
    decide
  · rw [Memory.byte_write (by decide) (by decide), if_neg hb]

/-- ENC.MEM at the last word of image memory. -/
theorem witness_EncWordAndEncMemSendElevenBytes :
    (28 : Address).toNat % 4 = 0 ∧ (28 : Address).toNat + 4 ≤ idle.imem.size.val ∧ idle.imem.word 28 = 0 ∧
      idle.imem.word 8 = 0xFF12FF00 := by decide

theorem witness_FramingCommandsSendTheirBytes : (0xFE : Byte) ≠ 0xFF := by decide

theorem witness_PlanCommandsChangeOneEntry :
    (1 : CoreId).toNat = (0 : Fin 8).val + 1 ∧ (8 : CoreId).toNat = (7 : Fin 8).val + 1 ∧ (0xFFFFFC : Address).toNat % 4 = 0 := by decide

/-- An image that ends exactly where image memory ends (8 + 8, in a memory of 16 bytes). -/
theorem witness_SeqStartOpensASession :
    let s := withEntry (State.initial { size := 16, cells := [] } .one) 1 { valid := true, ptr := 8, len := 8 }
    s.seq.st ≠ .run ∧ (∃ k : Fin 8, (s.plan[k]).valid = true) ∧
      ∀ k : Fin 8, (s.plan[k]).valid = true → (s.plan[k]).ptr.toNat + (s.plan[k]).len.toNat ≤ s.imem.size.val := by decide

theorem witness_SequencerHasAStepExactlyWhenEnabled :
    sequencerEnabled idle = false ∧ sequencerEnabled (inAck 0 #v[0, 0, 0] []) = false ∧ sequencerEnabled (inAck 0 #v[0, 0, 0] [0xFF]) = true ∧
      planned.plan.nextValid 2 = some 2 ∧ planned.plan.nextValid 3 = none := by decide

theorem witness_SessionSyncAnnouncesTheImageCount : started.seq.st = .run ∧ started.seq.ph = .ssync := by decide

/-- Phase CSYNC: the next core with bytes to send (P3), and with none (P9 a); every core below the next is invalid. -/
theorem witness_CoreSyncServesTheNextCore :
    let z := withEntry syncing 1 { valid := true, ptr := 8, len := 0 }
    (syncing.seq.st = .run ∧ syncing.seq.ph = .csync ∧ syncing.seq.scan.toNat ≤ (2 : CoreId).toNat ∧
        (syncing.plan.entry? 2 = some { valid := true, ptr := 8, len := 8 }) ∧ z.plan.entry? 2 = some { valid := true, ptr := 8, len := 0 }) ∧
      ∀ d : CoreId, ∀ k : Fin 8, d.toNat = k.val + 1 → d.toNat < 2 → (syncing.plan[k]).valid = false ∧ (z.plan[k]).valid = false := by decide

/-- Phase HDR: the first and the last byte, of a data page and of the marker page. -/
theorem witness_HeaderPhaseSendsTheHeaderByte :
    (∀ k ∈ [(0 : BitVec 10), 7],
        let s := inHeader k
        s.seq.st = .run ∧ s.seq.ph = .hdr ∧ s.seq.idx = k ∧ s.seq.idx.toNat ≤ 7 ∧ s.seq.marker = false ∧
          ((0x00 : Byte) ++ (0x00 : Byte) ++ (0x00 : Byte) : BitVec 24).toNat = (s.seq.base.toNat + s.seq.off.toNat) % 2 ^ 24 ∧
          ((0x00 : Byte) ++ (0x08 : Byte) : BitVec 16).toNat = s.seq.chunk.toNat) ∧
      ∀ k ∈ [(0 : BitVec 10), 7],
        let s := inMarkerHeader k
        s.seq.st = .run ∧ s.seq.ph = .hdr ∧ s.seq.idx = k ∧ s.seq.idx.toNat ≤ 7 ∧ s.seq.marker = true ∧
          ((0xFF : Byte) ++ (0xFF : Byte) ++ (0xFE : Byte) : BitVec 24) = 0xFFFFFE ∧
          ((0x00 : Byte) ++ (0x00 : Byte) : BitVec 16).toNat = s.seq.chunk.toNat := by decide

/-- Phase PAY: the first byte, the last, and the one before it. -/
theorem witness_PayloadPhaseSendsTheImageByte :
    ∀ k ∈ [(0 : BitVec 10), 6, 7],
      let s := inPayload k 0
      let e : PlanEntry := { valid := true, ptr := 8, len := 8 }
      s.seq.st = .run ∧ s.seq.ph = .pay ∧ s.plan.entry? s.seq.cog = some e ∧
        e.ptr.toNat + s.seq.off.toNat + s.seq.idx.toNat < s.imem.size.val ∧ s.seq.idx.toNat < s.seq.chunk.toNat ∧
        (k = 7 ↔ s.seq.idx.toNat + 1 = s.seq.chunk.toNat) ∧ (k ≠ 7 ↔ s.seq.idx.toNat + 1 < s.seq.chunk.toNat) := by decide

theorem witness_AckPhaseStoresTheByte :
    (let s := inAck 0 #v[0, 0, 0] [0xFF]
     s.seq.st = .run ∧ s.seq.ph = .ack ∧ s.rx = 0xFF :: [] ∧ s.seq.ackn.toNat = (0 : Fin 3).val ∧ s.seq.marker = false ∧ (0 : Fin 3).val + 1 < 3) ∧
      (let s := inAck 1 #v[0xFF, 0, 0] [0x02]
       s.seq.st = .run ∧ s.seq.ph = .ack ∧ s.rx = 0x02 :: [] ∧ s.seq.ackn.toNat = (1 : Fin 3).val ∧ s.seq.marker = false ∧ (1 : Fin 3).val + 1 < 3) ∧
      let s := inMarkerAck .two 0 0 [0xFF]
      s.seq.st = .run ∧ s.seq.ph = .ack ∧ s.rx = 0xFF :: [] ∧ s.seq.ackn.toNat = (0 : Fin 3).val ∧ s.seq.marker = true ∧
        (0 : Fin 3).val + 1 < markerAckCount s := by decide

/-- The verdicts on a data page, one state for each clause: the acknowledgments of section 2.6, and a last clause with bytes left to send. -/
theorem witness_DataPageVerdict :
    (∀ b ∈ [(0xFE : Byte), 0xFF], ∀ c ∈ [(0x02 : Byte), 0x03], ∀ y ∈ [(0x12 : Byte), 0x02],
        let s := inAck 2 #v[b, c, 0] [y]
        s.seq.st = .run ∧ s.seq.ph = .ack ∧ s.seq.marker = false ∧ s.seq.ackn = 2 ∧ s.rx = y :: [] ∧ s.lrc = 0x12 ∧
          s.seq.ackb[0] = b ∧ s.seq.ackb[1] = c) ∧
      (2 : CoreId).setWidth 8 = (0x02 : Byte) := by decide

theorem witness_DataPageVerdict_accepted :
    (let s := inAck 2 #v[0xFF, 0x02, 0] [0x12]
     s.plan.entry? s.seq.cog = some { valid := true, ptr := 8, len := 8 } ∧ (8 : Address).toNat = s.seq.off.toNat + s.seq.chunk.toNat ∧
       s.rx = s.lrc :: []) ∧
      let s := withEntry (inAck 2 #v[0xFF, 0x02, 0] [0x12]) 1 { valid := true, ptr := 8, len := 12 }
      s.plan.entry? s.seq.cog = some { valid := true, ptr := 8, len := 12 } ∧ (8 : Address).toNat = s.seq.off.toNat + s.seq.chunk.toNat ∧
        s.rx = s.lrc :: [] := by decide

/-- The verdicts on the marker page, one state for each clause and each `MARKER_ACK_LEN`. -/
theorem witness_MarkerPageVerdict :
    (∀ b ∈ [(0xFF : Byte), 0xFE], ∀ y ∈ [(0x02 : Byte), 0x05],
        let s := inMarkerAck .two 1 b [y]
        s.seq.st = .run ∧ s.seq.ph = .ack ∧ s.seq.marker = true ∧ s.rx = y :: [] ∧ s.markerAckLen = .two ∧ s.seq.ackn = 1 ∧
          s.seq.ackb[0] = b ∧ s.seq.cog.setWidth 8 = (0x02 : Byte)) ∧
      ∀ y ∈ [(0x02 : Byte), 0x05],
        let s := inMarkerAck .one 0 0 [y]
        s.seq.st = .run ∧ s.seq.ph = .ack ∧ s.seq.marker = true ∧ s.rx = y :: [] ∧ s.markerAckLen = .one ∧ s.seq.ackn = 0 ∧
          s.seq.cog.setWidth 8 = (0x02 : Byte) := by decide

/-- Phase NEXT: with no further core (P3), and with one (core 3 valid too). -/
theorem witness_NextPhaseAdvancesTheBase :
    let more := withEntry finishing 2 { valid := true, ptr := 0, len := 4 }
    (finishing.seq.st = .run ∧ finishing.seq.ph = .next ∧ finishing.plan.entry? finishing.seq.cog = some { valid := true, ptr := 8, len := 8 } ∧
        ∀ k : Fin 8, 2 ≤ k.val → (finishing.plan[k]).valid = false) ∧
      more.seq.cog.toNat < (3 : CoreId).toNat ∧ more.plan.entry? 3 = some { valid := true, ptr := 0, len := 4 } := by decide

/-! ### The invariant, in every phase of P3 -/

theorem witness_InitialStatesSatisfyTheInvariant : idle.imem.wf := by decide

theorem witness_Inv_ssync : started.Inv := by
  refine ⟨by decide, by decide, by decide, by decide, by decide, fun _ => ⟨by decide, by decide, by decide, ?_⟩⟩
  exact (by decide : started.seq.scan = 1 ∧ started.seq.base = 0)

theorem witness_Inv_csync : syncing.Inv := by
  refine ⟨by decide, by decide, by decide, by decide, by decide, fun _ => ⟨by decide, by decide, by decide, ?_⟩⟩
  exact (by decide : (syncing.plan.nextValid syncing.seq.scan.toNat).isSome = true ∧
    syncing.seq.base.toNat = syncing.plan.lenBelow syncing.seq.scan)

/-- A state in mid-page meets the invariant if its parts do. -/
theorem inv_of_page {s : State} {e : PlanEntry} (hf : s.flt &&& 0xFFFFFFF0 = 0 ∧ s.lengthsAligned ∧ s.seq.st = .run ∧ s.seq.reason = .none ∧ s.imem.wf)
    (hn : s.seq.n.toNat = s.plan.countValid ∧ 1 ≤ s.plan.countValid ∧ s.imagesInMemory) (hp : s.seq.ph ∈ [Phase.hdr, .pay, .ack, .next])
    (he : s.plan.entry? s.seq.cog = some e ∧ e.valid = true ∧ s.seq.base.toNat = s.plan.lenBelow s.seq.cog) (hl : s.pageLegal e)
    (hg : s.progressLegal e) : s.Inv := by
  obtain ⟨h1, h2, h3, h4, h5⟩ := hf
  refine ⟨h1, h2, fun h => absurd h3 h, by simp [h3, h4], h5, fun _ => ⟨hn.1, hn.2.1, hn.2.2, ?_⟩⟩
  unfold State.phaseLegal
  cases h : s.seq.ph <;> simp_all

theorem witness_Inv_hdr : (inHeader 7).Inv := by
  refine inv_of_page (by decide) (by decide) (by decide) ⟨rfl, by decide, by decide⟩ ?_ ?_
  · unfold State.pageLegal; decide
  · exact (by decide : (inHeader 7).seq.idx.toNat ≤ 7 ∧ (inHeader 7).lrc = 0)

theorem witness_Inv_hdr_marker : (inMarkerHeader 0).Inv := by
  refine inv_of_page (by decide) (by decide) (by decide) ⟨rfl, by decide, by decide⟩ ?_ ?_
  · unfold State.pageLegal; decide
  · exact (by decide : (inMarkerHeader 0).seq.idx.toNat ≤ 7 ∧ (inMarkerHeader 0).lrc = 0)

theorem witness_Inv_pay : (inPayload 7 0x6C).Inv := by
  refine inv_of_page (by decide) (by decide) (by decide) ⟨rfl, by decide, by decide⟩ ?_ ?_
  · unfold State.pageLegal; decide
  · exact (by decide : (inPayload 7 0x6C).seq.marker = false ∧ (inPayload 7 0x6C).seq.ackn = 0 ∧ (inPayload 7 0x6C).seq.idx.toNat < (inPayload 7 0x6C).seq.chunk.toNat ∧
      (inPayload 7 0x6C).lrc = xorBytes ((inPayload 7 0x6C).imem.bytes 8 7))

theorem witness_Inv_ack : (inAck 2 #v[0xFF, 0x02, 0] [0x12]).Inv := by
  refine inv_of_page (by decide) (by decide) (by decide) ⟨rfl, by decide, by decide⟩ ?_ ?_
  · unfold State.pageLegal; decide
  · exact (by decide : (inAck 2 #v[0xFF, 0x02, 0] [0x12]).seq.ackn.toNat < ackNeed (inAck 2 #v[0xFF, 0x02, 0] [0x12]) ∧
      (inAck 2 #v[0xFF, 0x02, 0] [0x12]).lrc = xorBytes ((inAck 2 #v[0xFF, 0x02, 0] [0x12]).imem.bytes 8 8))

/-- P3 step 21: from a legal state with `OFF mod 512 = 0` the rules R178, R179, R172 lead to the marker page with OFF = 8 = len: they do not keep
R184's clause there (notes/assumptions/7.md). -/
theorem test_marker_page_offset :
    (inAck 2 #v[0xFF, 0x02, 0] [0x12]).Inv ∧ (inAck 2 #v[0xFF, 0x02, 0] [0x12]).seq.off.toNat % 512 = 0 ∧
      (afterTurn (inAck 2 #v[0xFF, 0x02, 0] [0x12])).map (fun t => (t.seq.ph, t.seq.marker, t.seq.off.toNat, t.seq.off.toNat % 512)) =
        some (.hdr, true, 8, 8) := ⟨witness_Inv_ack, by decide⟩

theorem witness_Inv_next : finishing.Inv := by
  refine inv_of_page (by decide) (by decide) (by decide) ⟨rfl, by decide, by decide⟩ ?_ ?_
  · unfold State.pageLegal; decide
  · exact (by decide : finishing.seq.marker = true ∧ finishing.lrc = 0)

theorem witness_EveryStepKeepsTheInvariant : (turn (inPayload 7 0x6C)).Inv ∧ ∃ t, step (turn (inPayload 7 0x6C)) = .next t :=
  ⟨witness_Inv_pay, _, rfl⟩

theorem witness_NoStepStopsInALegalState : (turn (inAck 2 #v[0xFF, 0x02, 0] [0x12])).Inv := witness_Inv_ack

/-! ### The statements about every step -/

/-- A step that sends, one that takes a byte, one that delivers one. -/
theorem witness_steps_answer :
    (∃ t, step (turn started) = .next t) ∧ (∃ t, step (turn (inAck 0 #v[0, 0, 0] [0xFF])) = .next t) ∧
      ∃ t, step { started with pending := [.deliver 0xFF] } = .next t :=
  ⟨⟨_, rfl⟩, ⟨_, rfl⟩, ⟨_, rfl⟩⟩

/-- FaultBitsStayUntilReset: a step that is a reset, and one that is not, with a bit set. -/
theorem witness_FaultBitsStayUntilReset :
    (∃ t, step { started with flt := 0x2, pending := [.command 0x0100000000] } = .next t) ∧ decode 0x0100000000 = .ok .reset ∧
      ∃ t, step { started with flt := 0x2, pending := [.command 0x1100000001] } = .next t :=
  ⟨⟨_, rfl⟩, by decide, ⟨_, rfl⟩⟩

/-- ImageMemoryAndPlanStayInSession: a plan command while `ST = RUN`. -/
theorem witness_ImageMemoryAndPlanStayInSession :
    started.seq.st = .run ∧ ∃ t, step { started with pending := [.command 0x5000000000] } = .next t := ⟨by decide, _, rfl⟩

/-- OnlyTheseStepsEndASession: a reset, the last core's NEXT, an abort. -/
theorem witness_OnlyTheseStepsEndASession :
    ((∃ t, step { started with pending := [.hardwareReset] } = .next t ∧ t.seq.st = .idle) ∧ started.seq.st = .run) ∧
      ((∃ t, step (turn finishing) = .next t ∧ t.seq.st = .success) ∧ finishing.seq.st = .run) ∧
      ∃ t, step (turn (inAck 2 #v[0xFE, 0x02, 0] [0x12])) = .next t ∧ t.seq.st = .aborted :=
  ⟨⟨⟨_, rfl, by decide⟩, by decide⟩, ⟨⟨_, rfl, by decide⟩, by decide⟩, ⟨_, rfl, by decide⟩⟩

theorem witness_SessionFlagsHaveNoEffect : ∃ t, sequencerStep (inHeader 7) = .next t := ⟨_, rfl⟩

theorem witness_DataPagesNeverCarryTheMarkerAddress :
    (inHeader 7).Inv ∧ (inHeader 7).seq.st = .run ∧ (inHeader 7).seq.ph ≠ .ssync ∧ (inHeader 7).seq.ph ≠ .csync ∧
      (inHeader 7).seq.marker = false := ⟨witness_Inv_hdr, by decide⟩

/-- A header of 8 wire bytes and the marker's of 10. -/
theorem witness_HeaderTakesEightToTenWireBytes :
    (inMarkerHeader 0).Inv ∧ (inMarkerHeader 0).seq.st = .run ∧ (inMarkerHeader 0).seq.ph ≠ .ssync ∧ (inMarkerHeader 0).seq.ph ≠ .csync ∧
      (stuff (headerBytes (inMarkerHeader 0).seq)).length = 10 ∧ (stuff (headerBytes (inHeader 0).seq)).length = 8 :=
  ⟨witness_Inv_hdr_marker, by decide⟩

/-- SentBytesFollowTheGrammar: a step inside the session, its successful end, an abort. -/
theorem witness_SentBytesFollowTheGrammar :
    ((turn (sent (inPayload 7 0x6C))).Inv ∧ (turn (sent (inPayload 7 0x6C))).seq.st = .run ∧
        (turn (sent (inPayload 7 0x6C))).tx = [] ++ sentSoFar (turn (sent (inPayload 7 0x6C))) ∧
        ∃ t, step (turn (sent (inPayload 7 0x6C))) = .next t ∧ t.seq.st = .run) ∧
      ((turn (sent finishing)).Inv ∧ ∃ t, step (turn (sent finishing)) = .next t ∧ t.seq.st = .success) ∧
      ∃ t, step (turn (sent (inAck 2 #v[0xFF, 0x02, 0] [0x02]))) = .next t ∧ t.seq.st = .aborted :=
  ⟨⟨witness_Inv_pay, by decide, rfl, _, rfl, by decide⟩, ⟨witness_Inv_next, _, rfl, by decide⟩, ⟨_, rfl, by decide⟩⟩

theorem sessionRun_of_steps {s t : State} (n : Nat) {u : State} (hu : SessionRun s u) (h : sessionSteps n u = some t) : SessionRun s t := by
  induction n generalizing u with
  | zero => cases h; exact hu
  | succ n ih =>
    unfold sessionSteps at h
    split at h
    · split at h
      · exact ih (.step hu ‹_› ‹_›) h
      · cases h
    · cases h

theorem witness_Inv_empty_image : emptyImage.Inv ∧ emptyImage.sessionStarted := by
  refine ⟨⟨by decide, by decide, by decide, by decide, by decide, fun _ => ⟨by decide, by decide, by decide, ?_⟩⟩, ⟨rfl, rfl⟩⟩
  exact (by decide : emptyImage.seq.scan = 1 ∧ emptyImage.seq.base = 0)

/-- SuccessfulSessionSendsTheWholeGrammar: the shortest session, to its end, sends the bytes that P9 (a) states. -/
theorem witness_SuccessfulSessionSendsTheWholeGrammar : ∃ t, SessionRun emptyImage t ∧ t.seq.st = .success ∧
    t.tx = [0xFF, 0x01, 0xFF, 0x08, 0x08, 0xFF, 0x00, 0xFF, 0x00, 0xFE, 0x00, 0x00, 0x00, 0x00] := by
  have h : (sessionSteps 13 emptyImage).map (fun t => (t.seq.st, t.tx)) =
      some (.success, [0xFF, 0x01, 0xFF, 0x08, 0x08, 0xFF, 0x00, 0xFF, 0x00, 0xFE, 0x00, 0x00, 0x00, 0x00]) := by decide
  rw [Option.map_eq_some_iff] at h
  obtain ⟨t, ht, hq⟩ := h
  exact ⟨t, sessionRun_of_steps 13 .start ht, congrArg Prod.fst hq, congrArg Prod.snd hq⟩

/-- PagesCoverTheImage: an image of two pages has a second page. -/
theorem witness_PagesCoverTheImage : 1 < pageCount 516 ∧ pageCount 512 = 1 := by decide

theorem witness_IdealDeviceSessionsSucceed : emptyImage.Inv ∧ emptyImage.sessionStarted ∧ emptyImage.rx = [] :=
  ⟨witness_Inv_empty_image.1, witness_Inv_empty_image.2, rfl⟩

/-- SequencerStepsCountDown: an enabled step, and the step that ends the session; P3 takes 32 steps. -/
theorem witness_SequencerStepsCountDown :
    (started.Inv ∧ sequencerEnabled started = true ∧ stepsLeft started = 32 ∧ ∃ t, sequencerStep started = .next t ∧ t.seq.st ≠ .aborted) ∧
      ∃ t, sequencerStep finishing = .next t ∧ t.seq.st = .success ∧ finishing.seq.st = .run :=
  ⟨⟨witness_Inv_ssync, by decide, by decide, _, rfl, by decide⟩, ⟨_, rfl, by decide, by decide⟩⟩

end Sys2Proof.Tests
end

section
/-! What RDR answers for a register number that the table of R31 has (10_state.md R31, 40_system.md R95), and the fields of `STATUS`
(10_state.md R26). -/

namespace Sys2Proof.Machine

/-! ### RDR -/

/-- Where the number names a register, RDR writes its value to `RES` and changes nothing else (R95). -/
theorem exec_rdr_of_readRegister {r : Byte} {s : State} {v : Word} (h : readRegister r s = some v) :
    exec (.rdr r) s = .next { s with res := v } := by
  have hexec : exec (.rdr r) s = execRdr r s := rfl
  rcases execRdr_cases r s with ⟨w, hw, hrdr⟩ | ⟨hnone, -⟩
  · obtain rfl : w = v := Option.some.inj (hw.symm.trans h)
    exact hexec.trans hrdr
  · exact absurd (hnone.symm.trans h) (by simp)

@[simp] theorem readRegister_status (s : State) : readRegister 0x00 s = some (statusWord s.seq) := rfl

/-! ### The fields of STATUS -/

/-- The lowest part of a concatenation is the field at bit 0. The place is a variable: dropping the fields below leaves a difference such as
`5 - 2 - 3`. -/
theorem extractLsb'_append_of_start_eq_zero {v w k : Nat} (hi : BitVec v) (lo : BitVec w) (h : k = 0) :
    (hi ++ lo).extractLsb' k w = lo := by
  subst h
  exact BitVec.extractLsb'_append_eq_right

section
variable (q : SeqRegs)

/-- Above the fields of `STATUS`, which take bits 22:0, every bit is 0. -/
theorem getLsbD_statusWord_of_ge {i : Nat} (h : 23 ≤ i) : (statusWord q).getLsbD i = false := by
  rw [statusWord, BitVec.getLsbD_setWidth, BitVec.getLsbD_of_ge _ i h, Bool.and_false]

@[simp] theorem statusWord_st : (statusWord q).extractLsb' 0 2 = q.st.code := by
  rw [statusWord, BitVec.extractLsb'_setWidth_of_le (by decide), BitVec.extractLsb'_append_eq_right]

@[simp] theorem statusWord_ph : (statusWord q).extractLsb' 2 3 = q.ph.code := by
  simp (disch := decide) only [statusWord, BitVec.extractLsb'_setWidth_of_le, BitVec.extractLsb'_append_eq_of_le,
    extractLsb'_append_of_start_eq_zero]

@[simp] theorem statusWord_reason : (statusWord q).extractLsb' 5 3 = q.reason.code := by
  simp (disch := decide) only [statusWord, BitVec.extractLsb'_setWidth_of_le, BitVec.extractLsb'_append_eq_of_le,
    extractLsb'_append_of_start_eq_zero]

@[simp] theorem statusWord_cog : (statusWord q).extractLsb' 8 4 = q.cog := by
  simp (disch := decide) only [statusWord, BitVec.extractLsb'_setWidth_of_le, BitVec.extractLsb'_append_eq_of_le,
    extractLsb'_append_of_start_eq_zero]

@[simp] theorem statusWord_n : (statusWord q).extractLsb' 12 4 = q.n := by
  simp (disch := decide) only [statusWord, BitVec.extractLsb'_setWidth_of_le, BitVec.extractLsb'_append_eq_of_le,
    extractLsb'_append_of_start_eq_zero]

@[simp] theorem statusWord_scan : (statusWord q).extractLsb' 16 4 = q.scan := by
  simp (disch := decide) only [statusWord, BitVec.extractLsb'_setWidth_of_le, BitVec.extractLsb'_append_eq_of_le,
    extractLsb'_append_of_start_eq_zero]

@[simp] theorem statusWord_marker : (statusWord q).getLsbD 20 = q.marker := by
  simp only [statusWord, BitVec.getLsbD_setWidth, BitVec.getLsbD_append]
  simp

@[simp] theorem statusWord_flags : (statusWord q).extractLsb' 21 2 = q.flags := by
  simp (disch := decide) only [statusWord, BitVec.extractLsb'_setWidth_of_le, BitVec.extractLsb'_append_eq_of_le]
  exact BitVec.extractLsb'_eq_self

@[simp] theorem statusWord_reserved : (statusWord q).extractLsb' 23 9 = 0 := by
  apply BitVec.eq_of_getLsbD_eq
  intro i _
  rw [BitVec.getLsbD_extractLsb', getLsbD_statusWord_of_ge q (by omega)]
  simp

end

@[simp] theorem statusWord_reset : statusWord SeqRegs.reset = 0 := by decide

/-- Settles O15: what RDR 0x00 answers, the fields one by one, and the codes by cases on the register. -/
theorem statusFieldsStandWhereListed : Obligations.StatusFieldsStandWhereListed := by
  refine ⟨fun s => exec_rdr_of_readRegister (readRegister_status s), fun q => ?_⟩
  refine ⟨statusWord_st q, statusWord_ph q, statusWord_reason q, statusWord_cog q, statusWord_n q, statusWord_scan q,
    statusWord_marker q, statusWord_flags q, statusWord_reserved q, statusWord_reset, ?st, ?ph, ?reason⟩
  case st => cases q.st <;> rfl
  case ph => cases q.ph <;> rfl
  case reason => cases q.reason <;> rfl

end Sys2Proof.Machine
end

section
/-! What a step leaves of image memory, of `MARKER_ACK_LEN` and of the plan table (20_memory.md R43, 40_system.md R92, 70_reset_and_hazards.md
R239). Only the effect of a plan command and the reset write the plan; in a session the first answers BUSY. -/

namespace Sys2Proof.Machine

/-- From s to t the parameters stay: image memory with its size, and `MARKER_ACK_LEN` (R6). -/
structure KeepsParameters (s t : State) : Prop where
  imem : t.imem = s.imem
  markerAckLen : t.markerAckLen = s.markerAckLen

/-- From s to t the parameters and the plan table stay. -/
structure KeepsPlan (s t : State) : Prop extends KeepsParameters s t where
  plan : t.plan = s.plan

theorem KeepsParameters.trans {s t u : State} (h : KeepsParameters s t) (h' : KeepsParameters t u) : KeepsParameters s u :=
  ⟨h'.imem.trans h.imem, h'.markerAckLen.trans h.markerAckLen⟩

theorem KeepsPlan.refl (s : State) : KeepsPlan s s := ⟨⟨rfl, rfl⟩, rfl⟩

theorem KeepsPlan.trans {s t u : State} (h : KeepsPlan s t) (h' : KeepsPlan t u) : KeepsPlan s u :=
  ⟨h.toKeepsParameters.trans h'.toKeepsParameters, h'.plan.trans h.plan⟩

/-! ### The named updates -/

theorem raise_keepsPlan (f : FltBit) (s : State) : KeepsPlan s (s.raise f) := ⟨⟨rfl, rfl⟩, rfl⟩

theorem abort_keepsPlan (r : Reason) (s : State) : KeepsPlan s (s.abort r) := ⟨⟨rfl, rfl⟩, rfl⟩

theorem countCommand_keepsPlan (s : State) : KeepsPlan s s.countCommand := ⟨⟨rfl, rfl⟩, rfl⟩

theorem resetBlock_keepsParameters (s : State) : KeepsParameters s s.resetBlock := ⟨rfl, rfl⟩

theorem pageStarted_keepsPlan (o : Address) (e : PlanEntry) (s : State) : KeepsPlan s (pageStarted o e s) := ⟨⟨rfl, rfl⟩, rfl⟩

theorem coreSynced_keepsPlan (c : CoreId) (s : State) : KeepsPlan s (coreSynced c s) := ⟨⟨rfl, rfl⟩, rfl⟩

theorem offsetAdvanced_keepsPlan (s : State) : KeepsPlan s (offsetAdvanced s) := ⟨⟨rfl, rfl⟩, rfl⟩

theorem ackStored_keepsPlan (y : Byte) (rest : List Byte) (s : State) (h : s.seq.ackn.toNat < 3) :
    KeepsPlan s (ackStored y rest s h) := ⟨⟨rfl, rfl⟩, rfl⟩

/-! ### Agent H: the command port -/

theorem rxGetEffect_keepsParameters (s : State) : KeepsParameters s (rxGetEffect s) := by
  rcases rxGetEffect_cases s with ⟨-, h⟩ | ⟨y, rest, -, h⟩ <;> rw [h] <;> exact ⟨rfl, rfl⟩

theorem lfsrChkEffect_keepsParameters (s : State) : KeepsParameters s (lfsrChkEffect s) := by
  rcases lfsrChkEffect_cases s with ⟨-, h⟩ | ⟨y, rest, -, ⟨-, h⟩ | ⟨-, h⟩⟩ <;> rw [h] <;> exact ⟨rfl, rfl⟩

theorem sumImgEffect_keepsParameters (c : CoreId) (s : State) : KeepsParameters s (sumImgEffect c s) := by
  obtain ⟨b, h⟩ := sumImgEffect_cases c s
  rw [h]
  exact ⟨rfl, rfl⟩

/-- Every command is NOP, RESET, RDR, or one that is checked for BUSY and RANGE before its effect (R92, R203). The effects keep the
parameters. -/
theorem exec_cases (i : Instr) (s : State) :
    (i = .nop ∧ exec i s = .next s) ∨ (i = .reset ∧ exec i s = .next s.resetBlock) ∨ (∃ r, i = .rdr r ∧ exec i s = execRdr r s) ∨
      ∃ legal effect, exec i s = .next (accept legal effect s) ∧ KeepsParameters s (effect s) := by
  cases i
  case nop => exact .inl ⟨rfl, rfl⟩
  case reset => exact .inr (.inl ⟨rfl, rfl⟩)
  case rdr r => exact .inr (.inr (.inl ⟨r, rfl, rfl⟩))
  all_goals refine .inr (.inr (.inr ⟨_, _, rfl, ?_⟩))
  case rxGet => exact rxGetEffect_keepsParameters s
  case lfsrChk => exact lfsrChkEffect_keepsParameters s
  case sumImg c => exact sumImgEffect_keepsParameters c s
  all_goals exact ⟨rfl, rfl⟩

theorem execRdr_keepsPlan {r : Byte} {s t : State} (h : execRdr r s = .next t) : KeepsPlan s t := by
  rcases execRdr_cases r s with ⟨v, -, hrdr⟩ | ⟨-, hrdr⟩
  · cases hrdr.symm.trans h
    exact ⟨⟨rfl, rfl⟩, rfl⟩
  · cases hrdr.symm.trans h
    exact raise_keepsPlan .range s

/-- No command writes image memory or `MARKER_ACK_LEN` (R43). -/
theorem exec_keepsParameters {i : Instr} {s t : State} (h : exec i s = .next t) : KeepsParameters s t := by
  rcases exec_cases i s with ⟨-, hi⟩ | ⟨-, hi⟩ | ⟨r, -, hi⟩ | ⟨legal, effect, hi, heff⟩
  · cases hi.symm.trans h
    exact (KeepsPlan.refl s).toKeepsParameters
  · cases hi.symm.trans h
    exact resetBlock_keepsParameters s
  · exact (execRdr_keepsPlan (hi.symm.trans h)).toKeepsParameters
  · cases hi.symm.trans h
    exact accept_ind (fun f => (raise_keepsPlan f s).toKeepsParameters) (fun _ _ => heff)

/-- While `ST = RUN` no command but RESET writes the plan: what is not NOP or RDR answers BUSY (R92). -/
theorem exec_keepsPlan_of_run {i : Instr} {s t : State} (hrun : s.seq.st = .run) (hi : i ≠ .reset) (h : exec i s = .next t) :
    KeepsPlan s t := by
  rcases exec_cases i s with ⟨-, hx⟩ | ⟨hreset, -⟩ | ⟨r, -, hx⟩ | ⟨legal, effect, hx, -⟩
  · cases hx.symm.trans h
    exact .refl s
  · exact absurd hreset hi
  · exact execRdr_keepsPlan (hx.symm.trans h)
  · rw [accept_busy hrun] at hx
    cases hx.symm.trans h
    exact raise_keepsPlan .busy s

/-- What the command port does with a word: the command it decodes to, or the fault ILL (R90). -/
theorem issueWord_cases (w : CommandWord) (s : State) :
    (∃ i, decode w = .ok i ∧ issueWord w s = exec i s.countCommand) ∨ issueWord w s = .next (s.countCommand.raise .ill) := by
  unfold issueWord
  split
  · exact .inl ⟨_, ‹_›, rfl⟩
  · exact .inr rfl

/-! ### Agent S: the sequencer, phase by phase -/

theorem stepCsync_keepsPlan {s t : State} (h : stepCsync s = .next t) : KeepsPlan s t := by
  obtain ⟨c, e, -, -, rfl⟩ := stepCsync_next h
  exact (coreSynced_keepsPlan c s).trans (pageStarted_keepsPlan 0 e _)

theorem stepPay_keepsPlan {s t : State} (h : stepPay s = .next t) : KeepsPlan s t := by
  obtain ⟨e, -, -, ⟨-, rfl⟩ | ⟨-, -, rfl⟩⟩ := stepPay_next h <;> exact ⟨⟨rfl, rfl⟩, rfl⟩

theorem dataVerdict_keepsPlan {s t : State} (h : dataVerdict s = .next t) : KeepsPlan s t := by
  rcases dataVerdict_next h with ⟨-, rfl⟩ | ⟨-, -, rfl⟩ | ⟨-, -, -, rfl⟩ | ⟨-, -, -, -, e, -, rfl⟩
  · exact abort_keepsPlan _ s
  · exact abort_keepsPlan _ s
  · exact abort_keepsPlan _ s
  · exact (offsetAdvanced_keepsPlan s).trans (pageStarted_keepsPlan _ e _)

theorem markerVerdict_keepsPlan (s : State) : KeepsPlan s (markerVerdict s) := by
  rcases markerVerdict_cases s with ⟨r, -, h⟩ | h <;> rw [h]
  · exact abort_keepsPlan r s
  · exact ⟨⟨rfl, rfl⟩, rfl⟩

theorem stepAck_keepsPlan {s t : State} (h : stepAck s = .next t) : KeepsPlan s t := by
  rcases stepAck_next h with ⟨-, rfl⟩ | ⟨y, rest, -, hk, hstored⟩
  · exact .refl t
  · refine (ackStored_keepsPlan y rest s hk).trans ?_
    rcases hstored with ⟨-, rfl⟩ | ⟨-, -, rfl⟩ | ⟨-, -, hdata⟩
    · exact .refl _
    · exact markerVerdict_keepsPlan _
    · exact dataVerdict_keepsPlan hdata

theorem stepNext_keepsPlan {s t : State} (h : stepNext s = .next t) : KeepsPlan s t := by
  obtain ⟨e, -, ⟨-, rfl⟩ | ⟨-, rfl⟩⟩ := stepNext_next h <;> exact ⟨⟨rfl, rfl⟩, rfl⟩

/-- The sequencer only reads image memory and the plan (R43, R48). -/
theorem sequencerStep_keepsPlan {s t : State} (h : sequencerStep s = .next t) : KeepsPlan s t := by
  by_cases hrun : s.seq.st = .run
  · rw [sequencerStep_of_run hrun] at h
    cases hph : s.seq.ph <;> simp only [hph] at h
    case none => cases h; exact .refl s
    case ssync => rw [stepSsync_next h]; exact ⟨⟨rfl, rfl⟩, rfl⟩
    case csync => exact stepCsync_keepsPlan h
    case hdr => obtain ⟨b, -, rfl⟩ := stepHdr_next h; exact ⟨⟨rfl, rfl⟩, rfl⟩
    case pay => exact stepPay_keepsPlan h
    case ack => exact stepAck_keepsPlan h
    case next => exact stepNext_keepsPlan h
  · rw [sequencerStep_of_not_run hrun] at h
    cases h
    exact .refl s

/-! ### The step of any agent -/

theorem nextEvent_keepsPlan (s : State) : KeepsPlan s (nextEvent s).2 := by
  unfold nextEvent
  split <;> exact ⟨⟨rfl, rfl⟩, rfl⟩

theorem nextEvent_seq (s : State) : (nextEvent s).2.seq = s.seq := by
  unfold nextEvent
  split <;> rfl

theorem takeEvent_keepsParameters {e : Event} {s t : State} (h : takeEvent e s = .next t) : KeepsParameters s t := by
  have hcount := (countCommand_keepsPlan s).toKeepsParameters
  cases e with
  | command w =>
    change issueWord w s = .next t at h
    rcases issueWord_cases w s with ⟨i, -, hi⟩ | hill
    · exact hcount.trans (exec_keepsParameters (hi.symm.trans h))
    · cases hill.symm.trans h
      exact hcount.trans (raise_keepsPlan .ill _).toKeepsParameters
  | hardwareReset => exact hcount.trans (exec_keepsParameters (i := .reset) h)
  | sequencer => exact (sequencerStep_keepsPlan h).toKeepsParameters
  | deliver b => cases h; exact ⟨rfl, rfl⟩

theorem takeEvent_keepsPlan_of_run {e : Event} {s t : State} (hrun : s.seq.st = .run) (he : ¬Event.isReset e) (h : takeEvent e s = .next t) :
    KeepsPlan s t := by
  cases e with
  | command w =>
    change issueWord w s = .next t at h
    rcases issueWord_cases w s with ⟨i, hdec, hi⟩ | hill
    · have hne : i ≠ .reset := fun hr => he (.inr ⟨w, rfl, hr ▸ hdec⟩)
      exact (countCommand_keepsPlan s).trans (exec_keepsPlan_of_run hrun hne (hi.symm.trans h))
    · cases hill.symm.trans h
      exact (countCommand_keepsPlan s).trans (raise_keepsPlan .ill _)
  | hardwareReset => exact absurd (.inl rfl) he
  | sequencer => exact sequencerStep_keepsPlan h
  | deliver b => cases h; exact ⟨⟨rfl, rfl⟩, rfl⟩

/-- Settles O51: no event changes a parameter, and none but a reset changes the plan of a session; taking the event off the list changes
neither. -/
theorem imageMemoryAndPlanStayInSession : Obligations.ImageMemoryAndPlanStayInSession := by
  intro s t hstep
  have hnext := nextEvent_keepsPlan s
  obtain ⟨himem, hack⟩ := hnext.toKeepsParameters.trans (takeEvent_keepsParameters hstep)
  refine ⟨himem, hack, fun hrun => ?_⟩
  by_cases hreset : Event.isReset (nextEvent s).1
  · exact .inl hreset
  · have hrun' : (nextEvent s).2.seq.st = .run := by rw [nextEvent_seq, hrun]
    exact .inr (hnext.trans (takeEvent_keepsPlan_of_run hrun' hreset hstep)).plan

end Sys2Proof.Machine
end

section
/-! What the decoder answers, row by row of the opcode table (30_encoding.md R77, R78), and the reference decoders of the encoder and of byte
stuffing against what they decode (R65, R67). -/

namespace Sys2Proof

/-! ### The decoder and the opcode table -/

/-- A row of the table fixes what the decoder does with its opcode: it checks the reserved bits of the row's form (R77). -/
theorem decode_of_row : ∀ row ∈ opcodeTable, ∀ w : CommandWord, opcodeField w = row.2.1 →
    ∃ i, decode w = checkReserved row.2.2 (argField w) i := by
  simp only [opcodeTable, List.cons_append, List.nil_append, List.forall_mem_cons, List.not_mem_nil, false_implies, implies_true, and_true]
  and_intros
  all_goals
    intro w hop
    exact ⟨_, by rw [decode, hop]; rfl⟩

/-- Every command stands in the table with its opcode and its form (R77). -/
theorem mem_opcodeTable (i : Instr) : (i.mnemonic, i.opcode, i.form) ∈ opcodeTable := by
  cases i <;> exact List.mem_of_elem_eq_true rfl

/-- A word that decodes to a command has that command's opcode, and no reserved bit of its form (R76, R77). The decoder's last branch, for
the unused opcodes, answers no command. -/
theorem opcode_and_reserved_of_decode_eq_ok {w : CommandWord} {i : Instr} (h : decode w = .ok i) :
    opcodeField w = i.opcode ∧ argField w &&& i.form.reserved = 0 := by
  unfold decode at h
  split at h
  case h_28 => cases h
  all_goals
    obtain ⟨hclean, rfl⟩ := checkReserved_eq_ok.1 h
    exact ⟨BitVec.eq_of_toNat_eq ‹_›, hclean⟩

/-- The opcodes that the table uses, as numbers (R77). -/
def usedOpcodes : List Nat := opcodeTable.map (fun row => row.2.1.toNat)

theorem nodup_usedOpcodes : usedOpcodes.Nodup := by decide

theorem mem_usedOpcodes {n : Nat} : n ∈ usedOpcodes ↔ ∃ row ∈ opcodeTable, row.2.1.toNat = n := List.mem_map

theorem lt_of_mem_usedOpcodes {n : Nat} (h : n ∈ usedOpcodes) : n < 256 := by
  obtain ⟨row, -, rfl⟩ := mem_usedOpcodes.1 h
  exact row.2.1.isLt

/-- A number that differs from every row's opcode is not used. -/
theorem all_opcode_ne_eq (n : Nat) : opcodeTable.all (fun row => row.2.1.toNat != n) = !decide (n ∈ usedOpcodes) := by
  rw [Bool.eq_iff_iff]
  simp [mem_usedOpcodes]

/-- The used opcodes are distinct bytes, so among the 256 numbers each is counted once. -/
theorem length_filter_usedOpcodes : ((List.range 256).filter (fun n => n ∈ usedOpcodes)).length = 27 := by
  have hperm : ((List.range 256).filter (fun n => n ∈ usedOpcodes)).Perm usedOpcodes := by
    rw [List.perm_ext_iff_of_nodup (List.nodup_range.filter _) nodup_usedOpcodes]
    intro n
    simpa using lt_of_mem_usedOpcodes
  exact hperm.length_eq

/-- What is left of the 256 opcodes (R78). -/
theorem length_unusedOpcodes :
    ((List.range 256).filter (fun n => opcodeTable.all (fun row => row.2.1.toNat != n))).length = 229 := by
  have hsplit := List.length_eq_length_filter_add (l := List.range 256) (fun n => n ∈ usedOpcodes)
  rw [length_filter_usedOpcodes, List.length_range] at hsplit
  simp only [all_opcode_ne_eq]
  omega

end Sys2Proof

namespace Sys2Proof.Machine

theorem illegalWord_iff_decode_eq_error (w : CommandWord) : illegalWord w ↔ ∃ e, decode w = .error e := by
  constructor
  · intro hill
    cases hdec : decode w with
    | error e => exact ⟨e, rfl⟩
    | ok i =>
      obtain ⟨hop, hclean⟩ := opcode_and_reserved_of_decode_eq_ok hdec
      exact absurd hclean (hill _ (mem_opcodeTable i) hop)
  · rintro ⟨e, herr⟩ row hrow hop hclean
    obtain ⟨i, hdec⟩ := decode_of_row row hrow w hop
    rw [checkReserved, if_pos hclean, herr] at hdec
    cases hdec

theorem issueWord_of_illegal {w : CommandWord} (h : illegalWord w) (s : State) :
    issueWord w s = .next (s.countCommand.raise .ill) := by
  obtain ⟨e, herr⟩ := (illegalWord_iff_decode_eq_error w).1 h
  rw [issueWord, herr]

/-- Settles O4: the unused opcodes are counted; legality is the decoder's answer; the step of an illegal word is the fault ILL. -/
theorem illegalWordsFaultIll : Obligations.IllegalWordsFaultIll :=
  ⟨length_unusedOpcodes, illegalWord_iff_decode_eq_error, fun _ s h => issueWord_of_illegal h s⟩

/-! ### The encoder bytes -/

/-- A data byte carries bit j of its group at place 3j (R62). -/
theorem getLsbD_encoderData : ∀ (g : BitVec 3), ∀ j < 3, (encoderData g).getLsbD (3 * j) = g.getLsbD j := by decide

/-- The final byte carries its two bits at places 0 and 3 (R63). -/
theorem getLsbD_encoderFinal : ∀ (g : BitVec 2), ∀ j < 2, (encoderFinal g).getLsbD (3 * j) = g.getLsbD j := by decide

theorem getElem?_enc_data (v : Word) {n : Nat} (h : n < 10) : (enc v)[n]? = some (encoderData (v.extractLsb' (3 * n) 3)) := by
  rw [enc, List.getElem?_append_left (by simpa using h)]
  simp [h]

theorem getElem?_enc_final (v : Word) : (enc v)[10]? = some (encoderFinal (v.extractLsb' 30 2)) := by
  rw [enc, List.getElem?_append_right (by simp)]
  simp

/-- The reference decoder reads bit k where the encoder put it: bits 29:0 in the data bytes, three to a byte, bits 31:30 in the final byte. -/
theorem unencBit_enc (v : Word) {k : Nat} (hk : k < 32) : unencBit (enc v) k = v.getLsbD k := by
  unfold unencBit
  by_cases hdata : k < 30
  · have hmod : k % 3 < 3 := Nat.mod_lt k (by decide)
    rw [getElem?_enc_data v (by omega), Option.getD_some, getLsbD_encoderData _ _ hmod, BitVec.getLsbD_extractLsb', Nat.div_add_mod]
    simp [hmod]
  · have hdiv : k / 3 = 10 := by omega
    have hmod : k % 3 < 2 := by omega
    have hplace : 30 + k % 3 = k := by omega
    rw [hdiv, getElem?_enc_final, Option.getD_some, getLsbD_encoderFinal _ _ hmod, BitVec.getLsbD_extractLsb', hplace]
    simp [hmod]

/-- Settles O29: the two words agree bit by bit. -/
theorem referenceDecoderRecoversTheWord : Obligations.ReferenceDecoderRecoversTheWord := by
  intro v
  apply BitVec.eq_of_getLsbD_eq
  intro k hk
  rw [unenc, BitVec.getLsbD_ofFnLE, dif_pos hk]
  exact unencBit_enc v hk

/-! ### Byte stuffing -/

theorem unstuff_cons_of_ne {b : Byte} (h : b ≠ 0xFF) (bs : List Byte) : unstuff (b :: bs) = (unstuff bs).map (b :: ·) := by
  rw [unstuff.eq_def]
  exact if_neg h

theorem unstuff_ff_zero (bs : List Byte) : unstuff (0xFF :: 0x00 :: bs) = (unstuff bs).map (0xFF :: ·) := by
  rw [unstuff.eq_def]
  rfl

/-- The bytes of one stuffed byte are read as that byte (R67). -/
theorem unstuff_stuff1_append (b : Byte) (bs : List Byte) : unstuff (stuff1 b ++ bs) = (unstuff bs).map (b :: ·) := by
  by_cases hff : b = 0xFF
  · subst hff
    exact unstuff_ff_zero bs
  · rw [stuff1_of_ne hff]
    exact unstuff_cons_of_ne hff bs

theorem length_stuff1 (b : Byte) : (stuff1 b).length = 1 + if b = 0xFF then 1 else 0 := by
  unfold stuff1
  split <;> rfl

theorem unstuff_stuff (bs : List Byte) : unstuff (stuff bs) = some bs := by
  induction bs with
  | nil => rfl
  | cons b bs ih => rw [stuff_cons, unstuff_stuff1_append, ih, Option.map_some]

theorem length_stuff (bs : List Byte) : (stuff bs).length = bs.length + bs.count 0xFF := by
  induction bs with
  | nil => rfl
  | cons b bs ih =>
    simp only [stuff_cons, List.length_append, length_stuff1, ih, List.length_cons, List.count_cons, beq_iff_eq]
    omega

/-- Settles O33, by induction on the bytes. -/
theorem unstuffRecoversTheBytes : Obligations.UnstuffRecoversTheBytes := fun bs => ⟨unstuff_stuff bs, length_stuff bs⟩

end Sys2Proof.Machine
end

section
/-! The system commands (40_system.md R93 to R98), on three facts about every command: its word with the reserved zeros written out
(30_encoding.md R76), ILL for its opcode with a reserved bit set (R78), and BUSY unless it is accepted in a session (R92). -/

namespace Sys2Proof.Machine

/-! ### The word of a command and its faults ILL and BUSY -/

/-- An operand narrower than its field stands below zeros, in a command word the reserved bits of its form (R76). -/
theorem append_setWidth_eq {m n k : Nat} (hi : BitVec m) (x : BitVec n) (h : n ≤ k) :
    hi ++ x.setWidth k = (hi ++ (0 : BitVec (k - n)) ++ x).cast (by omega) := by
  apply BitVec.eq_of_toNat_eq
  simp [BitVec.toNat_append, BitVec.toNat_setWidth_of_le h, ← Nat.shiftLeft_add, Nat.sub_add_cancel h]

/-- A row of the table with a 1 among its reserved bits is illegal, and the port takes it as ILL (R78, R90). -/
theorem faultsIll_of_mem {row : String × Byte × Form} (hrow : row ∈ opcodeTable) : faultsIll row.2.1 row.2.2 := by
  intro w s hop hreserved
  obtain ⟨i, hdec⟩ := decode_of_row row hrow w hop
  rw [checkReserved, if_neg hreserved] at hdec
  rw [issueWord, hdec]
  rfl

theorem faultsIll_of_instr (i : Instr) : faultsIll i.opcode i.form := faultsIll_of_mem (mem_opcodeTable i)

/-- What is not NOP, RESET or RDR answers BUSY in a session (R92). -/
theorem faultsBusy_of_not_acceptedInSession {i : Instr} (h : acceptedInSession i = false) : faultsBusy i := by
  intro s hrun
  rcases exec_cases i s with ⟨rfl, -⟩ | ⟨rfl, -⟩ | ⟨r, rfl, -⟩ | ⟨legal, effect, hexec, -⟩
  · cases h
  · cases h
  · cases h
  · rw [hexec, accept_busy hrun]
    rfl

/-! ### NOP -/

theorem exec_nop (s : State) : exec .nop s = .next s := rfl

/-- Settles O11: the operand of NOP is all reserved bits, and its arm of exec answers the state itself. -/
theorem nopChangesNothing : Obligations.NopChangesNothing := ⟨by decide, faultsIll_of_instr .nop, exec_nop⟩

/-! ### RX.FLUSH, TX.RAW, RX.GET outside a session -/

section
variable {s : State}

theorem exec_rxFlush (h : s.seq.st ≠ .run) : exec .rxFlush s = .next { s with rx := [] } :=
  congrArg Host.Outcome.next (accept_effect h)

theorem exec_txRaw (b : Byte) (h : s.seq.st ≠ .run) : exec (.txRaw b) s = .next { s with tx := s.tx ++ [b] } :=
  congrArg Host.Outcome.next (accept_effect h)

theorem exec_rxGet (h : s.seq.st ≠ .run) : exec .rxGet s = .next (rxGetEffect s) :=
  congrArg Host.Outcome.next (accept_effect h)

theorem rxGetEffect_of_nil (h : s.rx = []) : rxGetEffect s = { s with res := 0x100 } := by
  rcases rxGetEffect_cases s with ⟨-, heff⟩ | ⟨y, rest, hrx, -⟩
  · exact heff
  · cases h.symm.trans hrx

theorem rxGetEffect_of_cons {y : Byte} {rest : List Byte} (h : s.rx = y :: rest) :
    rxGetEffect s = { s with rx := rest, res := y.setWidth 32 } := by
  rcases rxGetEffect_cases s with ⟨hrx, -⟩ | ⟨z, more, hrx, heff⟩
  · cases h.symm.trans hrx
  · cases h.symm.trans hrx
    exact heff

end

/-- Settles O16: RX.GET by whether RX is empty. -/
theorem rxFlushAndRxGet : Obligations.RxFlushAndRxGet := by
  refine ⟨by decide, faultsIll_of_instr .rxFlush, faultsBusy_of_not_acceptedInSession rfl, by decide, faultsIll_of_instr .rxGet,
    faultsBusy_of_not_acceptedInSession rfl, fun s hst => ⟨exec_rxFlush hst, fun hnil => ?empty, fun y rest hcons => ?byte⟩⟩
  case empty => rw [exec_rxGet hst, rxGetEffect_of_nil hnil]
  case byte => rw [exec_rxGet hst, rxGetEffect_of_cons hcons]

/-- Settles O17: the row of TX.RAW gives the word and the faults, its effect the byte. -/
theorem txRawSendsTheByteAsItIs : Obligations.TxRawSendsTheByteAsItIs :=
  ⟨fun b => ⟨append_setWidth_eq _ b (by decide), faultsBusy_of_not_acceptedInSession rfl⟩, faultsIll_of_instr (.txRaw 0),
    fun b _ hst => exec_txRaw b hst⟩

/-! ### RDR -/

section
variable {r : Byte} {s : State}

/-- The table of R31 as four ranges of numbers. -/
theorem map_toNat_registerNumbers :
    registerNumbers.map BitVec.toNat = List.range' 0x00 5 ++ List.range' 0x06 5 ++ List.range' 0x11 8 ++ List.range' 0x21 8 := by decide

theorem mem_registerNumbers : r ∈ registerNumbers ↔
    r.toNat ≤ 0x04 ∨ (0x06 ≤ r.toNat ∧ r.toNat ≤ 0x0A) ∨ (0x11 ≤ r.toNat ∧ r.toNat ≤ 0x18) ∨ (0x21 ≤ r.toNat ∧ r.toNat ≤ 0x28) := by
  rw [← List.mem_map_of_injective BitVec.toNat_injective, map_toNat_registerNumbers]
  simp only [List.mem_append, List.mem_range'_1]
  omega

theorem readRegister_of_ptr (h : 0x11 ≤ r.toNat ∧ r.toNat ≤ 0x18) :
    readRegister r s = (s.plan.entry? (BitVec.ofNat 4 (r.toNat - 0x10))).map (fun e => e.ptr.setWidth 32) := by
  unfold readRegister
  split
  case h_11 => rw [if_pos h]
  all_goals omega

theorem readRegister_of_len (h : 0x21 ≤ r.toNat ∧ r.toNat ≤ 0x28) :
    readRegister r s = (s.plan.entry? (BitVec.ofNat 4 (r.toNat - 0x20))).map planLenWord := by
  unfold readRegister
  split
  case h_11 => rw [if_neg fun hptr => absurd (h.1.trans hptr.2) (by decide), if_pos h]
  all_goals omega

theorem readRegister_of_not_mem (h : r ∉ registerNumbers) : readRegister r s = none := by
  rw [mem_registerNumbers] at h
  unfold readRegister
  split
  case h_11 => rw [if_neg fun hptr => h (.inr (.inr (.inl hptr))), if_neg fun hlen => h (.inr (.inr (.inr hlen)))]
  all_goals exact absurd (by simp [*]) h

/-- No register has the number: RANGE, and `RES` stays (R95). -/
theorem exec_rdr_of_not_mem (h : r ∉ registerNumbers) : exec (.rdr r) s = .next { s with flt := s.flt ||| 0x4 } := by
  have hexec : exec (.rdr r) s = execRdr r s := rfl
  rcases execRdr_cases r s with ⟨v, hv, -⟩ | ⟨-, hrange⟩
  · exact absurd ((readRegister_of_not_mem h).symm.trans hv) (by simp)
  · exact hexec.trans hrange

end

/-- Number 0x10 + c is `PLAN[c].ptr` (R31); k + 1 is the core. -/
theorem readRegister_ptr (s : State) (k : Fin 8) :
    readRegister (BitVec.ofNat 8 (0x11 + k.val)) s = some ((s.plan[k]).ptr.setWidth 32) := by
  have hnum : (BitVec.ofNat 8 (0x11 + k.val)).toNat = 0x11 + k.val := by simp only [BitVec.toNat_ofNat]; omega
  have hcore : (BitVec.ofNat 4 (0x11 + k.val - 0x10)).toNat = k.val + 1 := by simp only [BitVec.toNat_ofNat]; omega
  rw [readRegister_of_ptr (by omega), hnum, Plan.entry?_of_index hcore, Option.map_some]

/-- Number 0x20 + c is the length word of `PLAN[c]` (R31). -/
theorem readRegister_len (s : State) (k : Fin 8) : readRegister (BitVec.ofNat 8 (0x21 + k.val)) s = some (planLenWord s.plan[k]) := by
  have hnum : (BitVec.ofNat 8 (0x21 + k.val)).toNat = 0x21 + k.val := by simp only [BitVec.toNat_ofNat]; omega
  have hcore : (BitVec.ofNat 4 (0x21 + k.val - 0x20)).toNat = k.val + 1 := by simp only [BitVec.toNat_ofNat]; omega
  rw [readRegister_of_len (by omega), hnum, Plan.entry?_of_index hcore, Option.map_some]

/-- `ACK` with the zeros above its fields written out (R31). -/
theorem ackWord_eq_append (q : SeqRegs) :
    ackWord q = (0 : BitVec 6) ++ q.ackn ++ q.ackb[2] ++ q.ackb[1] ++ q.ackb[0] := by
  apply BitVec.eq_of_toNat_eq
  rw [ackWord, BitVec.toNat_setWidth_of_le (by decide)]
  simp only [BitVec.toNat_append]
  simp

/-- Settles O14: the registers of the table one by one, the plan's by core. -/
theorem rdrReadsTheNumberedRegister : Obligations.RdrReadsTheNumberedRegister := by
  refine ⟨fun r => append_setWidth_eq _ r (by decide), faultsIll_of_instr (.rdr 0), fun s r h => exec_rdr_of_not_mem h,
    fun s => ?_⟩
  refine ⟨?status, ?flt, ?lfsr, ?sum, ?lrc, ?base, ?off, ?chunk, ?idx, ?ack, fun k => ⟨?ptr, ?len⟩⟩
  case status | flt | lfsr | sum | lrc | base | off | chunk | idx => exact exec_rdr_of_readRegister rfl
  case ack => exact exec_rdr_of_readRegister (congrArg some (ackWord_eq_append s.seq))
  case ptr => exact exec_rdr_of_readRegister (readRegister_ptr s k)
  case len => exact exec_rdr_of_readRegister (readRegister_len s k)

end Sys2Proof.Machine
end

section
/-! The LFSR and its commands (41_lfsr.md R100 to R107). The cycle of R103 is the orbit of the handshake seed: the step is injective, the orbit
returns to the seed after 255 steps and not after 85, 51 or 15, so it has 255 members; 0 is not among them, so every other byte is. -/

namespace Sys2Proof.Machine

open Function (minimalPeriod)

/-! ### The step as a function on bytes -/

/-- The state after k steps is Mathlib's iterate of the step (R102). -/
theorem lfsrIterate_eq_iterate (k : Nat) (v : Byte) : lfsrIterate k v = lfsrNext^[k] v := by
  induction k generalizing v with
  | zero => rfl
  | succ k ih => exact ih (lfsrNext v)

theorem lfsrIterate_add (m n : Nat) (v : Byte) : lfsrIterate (m + n) v = lfsrIterate m (lfsrIterate n v) := by
  simp only [lfsrIterate_eq_iterate, Function.iterate_add_apply]

theorem lfsrNext_zero : lfsrNext 0 = 0 := by decide

/-- The shift keeps bits 6:0, and the feedback bit, bits 5, 4, 1 taken away, gives back bit 7. -/
theorem lfsrNext_injective : Function.Injective lfsrNext := by
  intro v w h
  have hlow : ∀ k < 7, v.getLsbD k = w.getLsbD k := by
    intro k hk
    have hbit := congrArg (·.getLsbD (k + 1)) h
    simpa [getLsbD_lfsrNext _ (k + 1) (by omega)] using hbit
  have hfeedback : lfsrFeedback v = lfsrFeedback w := by
    have hbit := congrArg (·.getLsbD 0) h
    simpa only [getLsbD_lfsrNext _ 0 (by decide), if_pos] using hbit
  have hhigh : v.getLsbD 7 = w.getLsbD 7 := by
    unfold lfsrFeedback at hfeedback
    rw [hlow 5 (by decide), hlow 4 (by decide), hlow 1 (by decide)] at hfeedback
    simpa using hfeedback
  apply BitVec.eq_of_getLsbD_eq
  intro k hk
  by_cases hlast : k = 7
  · rw [hlast, hhigh]
  · exact hlow k (by omega)

/-! ### The cycle through the handshake seed (R103) -/

/-- Every seventeenth state of the cycle, from the seed round to the seed: 17 divides 255, 85 and 51, and 17 steps are a short evaluation. -/
def everySeventeenthState : List Byte :=
  [0x50, 0xD7, 0x51, 0x4B, 0x1B, 0xCC, 0x9D, 0xD6, 0xCD, 0x01, 0x9C, 0x4A, 0x87, 0x86, 0x1A, 0x50]

theorem lfsrIterate_mul_17_seed {n : Nat} (h : n < 16) : everySeventeenthState[n]? = some (lfsrIterate (n * 17) 0x50) := by
  have hjump : ∀ k < 15, everySeventeenthState[k + 1]? = everySeventeenthState[k]?.map (lfsrIterate 17) := by decide
  induction n with
  | zero => rfl
  | succ n ih => rw [hjump n (by omega), ih (by omega), Option.map_some, ← lfsrIterate_add, Nat.succ_mul, Nat.add_comm]

theorem lfsrIterate_mul_17_seed_eq {n : Nat} {v : Byte} (h : everySeventeenthState[n]? = some v) : lfsrIterate (n * 17) 0x50 = v := by
  have hn : n < 16 := (List.getElem?_eq_some_iff.1 h).1
  exact Option.some_inj.1 ((lfsrIterate_mul_17_seed hn).symm.trans h)

theorem lfsrIterate_255_seed : lfsrIterate 255 0x50 = 0x50 := lfsrIterate_mul_17_seed_eq (n := 15) rfl

theorem minimalPeriod_lfsrNext_seed : minimalPeriod lfsrNext 0x50 = 255 := by
  have hperiod (n : Nat) : minimalPeriod lfsrNext 0x50 ∣ n ↔ lfsrIterate n 0x50 = 0x50 := by
    rw [lfsrIterate_eq_iterate, ← Function.isPeriodicPt_iff_minimalPeriod_dvd]
    rfl
  have h85 : lfsrIterate 85 0x50 = 0xCC := lfsrIterate_mul_17_seed_eq (n := 5) rfl
  have h51 : lfsrIterate 51 0x50 = 0x4B := lfsrIterate_mul_17_seed_eq (n := 3) rfl
  have h15 : lfsrIterate 15 0x50 = 0xF5 := by decide
  -- 255 = 3 * 5 * 17
  have hproper : ∀ d ∈ Nat.divisors 255, ¬d ∣ 85 → ¬d ∣ 51 → ¬d ∣ 15 → d = 255 := by decide
  apply hproper
  · exact Nat.mem_divisors.2 ⟨(hperiod 255).2 lfsrIterate_255_seed, by decide⟩
  · rw [hperiod, h85]; decide
  · rw [hperiod, h51]; decide
  · rw [hperiod, h15]; decide

theorem lfsrIterate_seed_ne_zero (k : Nat) : lfsrIterate k 0x50 ≠ 0 := by
  induction k with
  | zero => decide
  | succ k ih =>
    rw [Nat.add_comm, lfsrIterate_add]
    exact fun h => ih (lfsrNext_injective (h.trans lfsrNext_zero.symm))

/-- The 255 states of the orbit are distinct and non-zero, and there are no more than 255 non-zero bytes. -/
theorem exists_lfsrIterate_seed_eq {v : Byte} (hv : v ≠ 0) : ∃ k < 255, lfsrIterate k 0x50 = v := by
  have hinj : Set.InjOn (lfsrIterate · 0x50) (Finset.range 255) := by
    have hiterate := Function.iterate_injOn_Iio_minimalPeriod (f := lfsrNext) (x := 0x50)
    rw [minimalPeriod_lfsrNext_seed] at hiterate
    simpa only [lfsrIterate_eq_iterate, Finset.coe_range] using hiterate
  have hsub : (Finset.range 255).image (lfsrIterate · 0x50) ⊆ Finset.univ.erase 0 := by
    intro w hw
    obtain ⟨k, -, rfl⟩ := Finset.mem_image.1 hw
    exact Finset.mem_erase.2 ⟨lfsrIterate_seed_ne_zero k, Finset.mem_univ _⟩
  have hcard : (Finset.univ.erase (0 : Byte)).card ≤ ((Finset.range 255).image (lfsrIterate · 0x50)).card := by
    rw [Finset.card_image_of_injOn hinj, Finset.card_erase_of_mem (Finset.mem_univ _), Finset.card_univ, ← FinEnum.card_eq_fintypeCard,
      FinEnum.card_bitVec, Finset.card_range]
    decide
  have hmem : v ∈ (Finset.range 255).image (lfsrIterate · 0x50) := by
    rw [Finset.eq_of_subset_of_card_le hsub hcard]
    exact Finset.mem_erase.2 ⟨hv, Finset.mem_univ _⟩
  simpa using hmem

theorem lfsrIterate_255 (v : Byte) : lfsrIterate 255 v = v := by
  by_cases hv : v = 0
  · subst hv
    rw [lfsrIterate_eq_iterate]
    exact Function.iterate_fixed lfsrNext_zero 255
  · obtain ⟨k, -, rfl⟩ := exists_lfsrIterate_seed_eq hv
    rw [← lfsrIterate_add, Nat.add_comm, lfsrIterate_add, lfsrIterate_255_seed]

theorem lfsrIterate_add_255 (k : Nat) (v : Byte) : lfsrIterate (k + 255) v = lfsrIterate k v := by
  rw [lfsrIterate_add, lfsrIterate_255]

/-- On to the seed where the cycle closes, and from there to w; a whole turn is left out. -/
theorem exists_lfsrIterate_eq {v w : Byte} (hv : v ≠ 0) (hw : w ≠ 0) : ∃ k < 255, lfsrIterate k v = w := by
  obtain ⟨i, hi, rfl⟩ := exists_lfsrIterate_seed_eq hv
  obtain ⟨j, hj, rfl⟩ := exists_lfsrIterate_seed_eq hw
  by_cases hij : i ≤ j
  · exact ⟨j - i, by omega, by rw [← lfsrIterate_add, Nat.sub_add_cancel hij]⟩
  · refine ⟨j + 255 - i, by omega, ?_⟩
    rw [← lfsrIterate_add, Nat.sub_add_cancel (by omega), lfsrIterate_add_255]

theorem lfsrIterate_238_seed : lfsrIterate 238 0x50 = 0x1A := lfsrIterate_mul_17_seed_eq (n := 14) rfl

theorem lfsrIterate_250_seed : lfsrIterate 250 0x50 = 0x9A := by
  rw [lfsrIterate_add 12 238, lfsrIterate_238_seed]
  decide

theorem lfsrIterate_500_seed : lfsrIterate 500 0x50 = 0x14 := by
  rw [lfsrIterate_add_255 245, lfsrIterate_add 7 238, lfsrIterate_238_seed]
  decide

/-- Settles O19: the bijection from injectivity, the cycle from the orbit of the seed, the listed values by evaluation. -/
theorem lfsrRunsThroughOneCycleOf255States : Obligations.LfsrRunsThroughOneCycleOf255States :=
  ⟨Finite.injective_iff_bijective.1 lfsrNext_injective, lfsrNext_zero, fun _ _ => exists_lfsrIterate_eq, lfsrIterate_255, by decide,
    fun v k => congrArg lfsrOut (lfsrIterate_add_255 k v), by decide, by decide, lfsrIterate_250_seed, lfsrIterate_500_seed⟩

/-! ### The step as arithmetic (R100, R101) -/

theorem toNat_xor_eq_mod_two (a b : Bool) : (a ^^ b).toNat = (a.toNat + b.toNat) % 2 := by
  cases a <;> cases b <;> rfl

/-- The feedback bit is the parity of the taps. -/
theorem toNat_lfsrFeedback (v : Byte) :
    (lfsrFeedback v).toNat = (v.toNat / 128 + v.toNat / 32 + v.toNat / 16 + v.toNat / 2) % 2 := by
  simp only [lfsrFeedback, toNat_xor_eq_mod_two, BitVec.getLsbD, Nat.toNat_testBit]
  omega

/-- The shift vacates bit 0, so putting the feedback bit there is an addition. -/
theorem toNat_lfsrNext (v : Byte) : (lfsrNext v).toNat = 2 * v.toNat % 256 + (lfsrFeedback v).toNat := by
  have hshift : 2 * v.toNat % 256 = 2 ^ 1 * (v.toNat % 128) := by omega
  rw [hshift, Nat.two_pow_add_eq_or_of_lt (Bool.toNat_lt _), ← hshift, lfsrNext, BitVec.toNat_or, BitVec.toNat_shiftLeft,
    BitVec.toNat_setWidth_of_le (by decide), BitVec.toNat_ofBool, Nat.shiftLeft_eq, Nat.mul_comm]

theorem lfsrOut_iff (v : Byte) : lfsrOut v = true ↔ v.toNat % 2 = 1 := by
  simp [lfsrOut, BitVec.getLsbD, Nat.testBit_zero]

/-- Settles O18: the sum's two parts are the shift and the feedback bit. -/
theorem lfsrStepShiftsInTheTapParity : Obligations.LfsrStepShiftsInTheTapParity :=
  fun v => ⟨(toNat_lfsrNext v).trans (congrArg _ (toNat_lfsrFeedback v)), lfsrOut_iff v⟩

/-! ### The output bit in a word and in a byte -/

theorem setWidth_ofBool_lfsrOut (v : Byte) : (BitVec.ofBool (lfsrOut v)).setWidth 8 = v &&& 1 :=
  BitVec.and_one_eq_setWidth_ofBool_getLsbD.symm

/-- What LFSR.STEP puts in `RES` (R105). -/
theorem setWidth_32_ofBool_lfsrOut (v : Byte) : (BitVec.ofBool (lfsrOut v)).setWidth 32 = v.setWidth 32 &&& 1 := by
  have hbit : (v.setWidth 32).getLsbD 0 = lfsrOut v := by simp [lfsrOut]
  rw [← hbit]
  exact BitVec.and_one_eq_setWidth_ofBool_getLsbD.symm

theorem handshakeByte_lfsrOut (v : Byte) : handshakeByte (lfsrOut v) = 0xFE ||| (v &&& 1) := by
  rw [handshakeByte, setWidth_ofBool_lfsrOut]

theorem and_one_eq_iff (y v : Byte) : y &&& 1 = v &&& 1 ↔ y.getLsbD 0 = lfsrOut v := by
  rw [← setWidth_ofBool_lfsrOut, ← setWidth_ofBool_lfsrOut]
  change _ ↔ lfsrOut y = lfsrOut v
  cases lfsrOut y <;> cases lfsrOut v <;> decide

/-- The check of LFSR.CHK, with the bits as masked bytes (R107). -/
theorem handshakePasses_iff (y v : Byte) : handshakePasses y (lfsrOut v) = true ↔ (y = 0xFE ∨ y = 0xFF) ∧ y &&& 1 = v &&& 1 := by
  simp only [handshakePasses, and_one_eq_iff, Bool.and_eq_true, Bool.or_eq_true, beq_iff_eq]

/-! ### LFSR.SEED, LFSR.STEP, LFSR.TX, LFSR.CHK outside a session -/

section
variable {s : State}

theorem exec_lfsrSeed (v : Byte) (h : s.seq.st ≠ .run) : exec (.lfsrSeed v) s = .next { s with lfsr := v } :=
  congrArg Host.Outcome.next (accept_effect h)

theorem exec_lfsrStep (h : s.seq.st ≠ .run) :
    exec .lfsrStep s = .next { s with res := s.lfsr.setWidth 32 &&& 1, lfsr := lfsrNext s.lfsr } := by
  rw [← setWidth_32_ofBool_lfsrOut]
  exact congrArg Host.Outcome.next (accept_effect h)

theorem exec_lfsrTx (h : s.seq.st ≠ .run) :
    exec .lfsrTx s = .next { s with tx := s.tx ++ [0xFE ||| (s.lfsr &&& 1)], lfsr := lfsrNext s.lfsr } := by
  rw [← handshakeByte_lfsrOut]
  exact congrArg Host.Outcome.next (accept_effect h)

theorem exec_lfsrChk (h : s.seq.st ≠ .run) : exec .lfsrChk s = .next (lfsrChkEffect s) :=
  congrArg Host.Outcome.next (accept_effect h)

theorem lfsrChkEffect_of_nil (h : s.rx = []) : lfsrChkEffect s = { s with res := 2 } := by
  rcases lfsrChkEffect_cases s with ⟨-, heff⟩ | ⟨y, rest, hrx, -⟩
  · exact heff
  · cases h.symm.trans hrx

theorem lfsrChkEffect_of_cons {y : Byte} {rest : List Byte} (h : s.rx = y :: rest) :
    lfsrChkEffect s = if handshakePasses y (lfsrOut s.lfsr) then { s with rx := rest, res := 1, lfsr := lfsrNext s.lfsr }
      else { s with rx := rest, res := 0, flt := s.flt ||| 0x8 } := by
  rcases lfsrChkEffect_cases s with ⟨hrx, -⟩ | ⟨z, more, hrx, hverdict⟩
  · cases h.symm.trans hrx
  · cases h.symm.trans hrx
    rcases hverdict with ⟨hpass, heff⟩ | ⟨hfail, heff⟩
    · rw [heff, if_pos hpass]
    · rw [heff, hfail]
      rfl

end

/-- Settles O20: the rows of the three commands give words and faults, their effects the states. -/
theorem lfsrSeedStepAndTransmit : Obligations.LfsrSeedStepAndTransmit :=
  ⟨fun v => ⟨append_setWidth_eq _ v (by decide), faultsBusy_of_not_acceptedInSession rfl⟩, faultsIll_of_instr (.lfsrSeed 0),
    by decide, faultsIll_of_instr .lfsrStep, faultsBusy_of_not_acceptedInSession rfl,
    by decide, faultsIll_of_instr .lfsrTx, faultsBusy_of_not_acceptedInSession rfl,
    fun _ hst => ⟨fun v => exec_lfsrSeed v hst, exec_lfsrStep hst, exec_lfsrTx hst⟩⟩

/-- Settles O21: LFSR.CHK by whether RX is empty, and then by whether the byte passes. -/
theorem lfsrCheckComparesTheEchoedBit : Obligations.LfsrCheckComparesTheEchoedBit := by
  refine ⟨by decide, faultsIll_of_instr .lfsrChk, faultsBusy_of_not_acceptedInSession rfl,
    fun s hst => ⟨fun hnil => ?empty, fun y rest hcons => ⟨fun hpass => ?pass, fun hfail => ?fail⟩⟩⟩
  case empty => rw [exec_lfsrChk hst, lfsrChkEffect_of_nil hnil]
  case pass => rw [exec_lfsrChk hst, lfsrChkEffect_of_cons hcons, if_pos ((handshakePasses_iff y s.lfsr).2 hpass)]
  case fail => rw [exec_lfsrChk hst, lfsrChkEffect_of_cons hcons, if_neg (mt (handshakePasses_iff y s.lfsr).1 hfail)]

end Sys2Proof.Machine
end

section
/-! The checksum commands (42_checksum.md R120 to R131). `SUM` is a sum in the ring of bytes, so one byte of a sequence settles the sum as soon
as the others are given: that is both the checksum byte of R128 and the changed byte of R127. -/

namespace Sys2Proof.Machine

/-! ### Sums of bytes as numbers and in the ring of bytes -/

/-- An addition to a register, as numbers (R121). -/
theorem add_ofNat_eq_ofNat_mod (x : Byte) (n : Nat) : x + BitVec.ofNat 8 n = BitVec.ofNat 8 ((x.toNat + n) % 256) := by
  apply BitVec.eq_of_toNat_eq
  simp

theorem add_eq_ofNat_mod (x y : Byte) : x + y = BitVec.ofNat 8 ((x.toNat + y.toNat) % 256) := by
  rw [← add_ofNat_eq_ofNat_mod, BitVec.ofNat_toNat, BitVec.setWidth_eq]

theorem sumBytes_eq_sum (bs : List Byte) : sumBytes bs = bs.sum := List.sum_eq_foldl.symm

/-- The sum modulo 256 is the sum of the numbers, cut to a byte (R120, R121). -/
theorem sumBytes_eq_ofNat (bs : List Byte) : sumBytes bs = BitVec.ofNat 8 (bs.map BitVec.toNat).sum := by
  rw [sumBytes_eq_sum]
  induction bs with
  | nil => rfl
  | cons b bs ih =>
    rw [List.sum_cons, ih, List.map_cons, List.sum_cons, BitVec.ofNat_add, BitVec.ofNat_toNat, BitVec.setWidth_eq]

/-- One byte of a sequence enters the sum as itself. -/
theorem sumBytes_set {bs : List Byte} {k : Nat} (hk : k < bs.length) (b : Byte) :
    sumBytes (bs.set k b) = sumBytes (bs.set k 0) + b := by
  simp only [sumBytes_eq_sum, List.sum_set, if_pos hk]
  ring

/-- The source's eight marker bytes are the marker constant: a sequence is valid exactly when the two add up to 0 (R120, R127). -/
theorem sumBytes_add_markerSum_eq_zero_iff (bs : List Byte) :
    sumBytes bs + markerSum false = 0 ↔ ((bs.map BitVec.toNat).sum + 2 * (0xFF + 0xFF + 0xF9 + 0xFF)) % 256 = 0 := by
  have hmarker : markerSum false = BitVec.ofNat 8 (2 * (0xFF + 0xFF + 0xF9 + 0xFF)) := by decide
  rw [sumBytes_eq_ofNat, hmarker, ← BitVec.ofNat_add, ← BitVec.toNat_inj, BitVec.toNat_ofNat]
  rfl

/-- Settles O26: the byte is what the rest of the sum and the marker constant leave to 0. -/
theorem checksumByteMakesTheImageValid : Obligations.ChecksumByteMakesTheImageValid := by
  intro bs b hlen
  rw [← sumBytes_add_markerSum_eq_zero_iff, sumBytes_set hlen, checksumByte]
  constructor
  · intro hzero
    linear_combination hzero
  · intro hbyte
    linear_combination hbyte

/-! ### The bytes of an image -/

theorem Memory.getElem_bytes (m : Memory) (p n : Nat) {k : Nat} (hk : k < (m.bytes p n).length) :
    (m.bytes p n)[k] = m.byte (p + k) := by
  simp [Memory.bytes]

theorem Memory.sum_map_toNat_bytes (m : Memory) (p n : Nat) : ((m.bytes p n).map BitVec.toNat).sum = m.byteSum p n := by
  rw [Memory.bytes, List.map_map]
  rfl

theorem Memory.checksumValid_iff (m : Memory) (p n : Nat) :
    m.checksumValid p n ↔ sumBytes (m.bytes p n) + markerSum false = 0 := by
  rw [sumBytes_add_markerSum_eq_zero_iff, Memory.sum_map_toNat_bytes]
  rfl

/-- A memory that differs at one address of the image has the same image with that byte put in. -/
theorem Memory.bytes_eq_set {m m' : Memory} {p k : Nat} (n : Nat) (hrest : ∀ b, b ≠ p + k → m.byte b = m'.byte b) :
    m'.bytes p n = (m.bytes p n).set k (m'.byte (p + k)) := by
  apply List.ext_getElem
  · simp
  · intro i _ _
    rw [Memory.getElem_bytes, List.getElem_set]
    split
    case isTrue hik => rw [hik]
    case isFalse hik => rw [Memory.getElem_bytes, hrest (p + i) (by omega)]

/-- Two valid images that agree in all bytes but one agree in that byte too (R127). -/
theorem Memory.byte_eq_of_checksumValid {m m' : Memory} {p n k : Nat} (hk : k < n)
    (hrest : ∀ b, b ≠ p + k → m.byte b = m'.byte b) (hm : m.checksumValid p n) (hm' : m'.checksumValid p n) :
    m.byte (p + k) = m'.byte (p + k) := by
  have hlen : k < (m.bytes p n).length := by rwa [Memory.length_bytes]
  rw [Memory.checksumValid_iff, Memory.bytes_eq_set n fun _ _ => rfl, sumBytes_set hlen] at hm
  rw [Memory.checksumValid_iff, Memory.bytes_eq_set n hrest, sumBytes_set hlen] at hm'
  linear_combination hm - hm'

/-! ### The checksum commands outside a session -/

section
variable {s : State}

theorem exec_sumClr (h : s.seq.st ≠ .run) : exec .sumClr s = .next { s with sum := 0 } :=
  congrArg Host.Outcome.next (accept_effect h)

theorem exec_sumAdd (b : Byte) (h : s.seq.st ≠ .run) : exec (.sumAdd b) s = .next { s with sum := s.sum + b } :=
  congrArg Host.Outcome.next (accept_effect h)

theorem exec_sumMark (m : Bool) (h : s.seq.st ≠ .run) : exec (.sumMark m) s = .next { s with sum := s.sum + markerSum m } :=
  congrArg Host.Outcome.next (accept_effect h)

theorem exec_sumTest (h : s.seq.st ≠ .run) : exec .sumTest s = .next { s with res := if s.sum = 0 then 1 else 0 } :=
  congrArg Host.Outcome.next (accept_effect h)

theorem exec_lrcClr (h : s.seq.st ≠ .run) : exec .lrcClr s = .next { s with lrc := 0 } :=
  congrArg Host.Outcome.next (accept_effect h)

theorem exec_lrcXor (b : Byte) (h : s.seq.st ≠ .run) : exec (.lrcXor b) s = .next { s with lrc := s.lrc ^^^ b } :=
  congrArg Host.Outcome.next (accept_effect h)

variable {c : CoreId}

theorem exec_sumImg_eq_accept : exec (.sumImg c) s = .next (accept (imageOperandLegal c s) (sumImgEffect c) s) := rfl

theorem imageOperandLegal_of_entry {e : PlanEntry} (he : s.plan.entry? c = some e) :
    imageOperandLegal c s = (e.valid && e.fits s.imem) := by
  rw [imageOperandLegal, he]

theorem sumImgEffect_of_entry {e : PlanEntry} (he : s.plan.entry? c = some e) :
    sumImgEffect c s = { s with sum := s.sum + sumBytes (s.imem.bytes e.ptr.toNat e.len.toNat) } := by
  rw [sumImgEffect, he]
  rfl

theorem exec_sumImg {e : PlanEntry} (h : s.seq.st ≠ .run) (he : s.plan.entry? c = some e) (hvalid : e.valid = true)
    (hfits : e.ptr.toNat + e.len.toNat ≤ s.imem.size.val) :
    exec (.sumImg c) s = .next { s with sum := s.sum + sumBytes (s.imem.bytes e.ptr.toNat e.len.toNat) } := by
  have hlegal : imageOperandLegal c s = true := by simp [imageOperandLegal_of_entry he, hvalid, PlanEntry.fits, hfits]
  rw [exec_sumImg_eq_accept, hlegal, accept_effect h, sumImgEffect_of_entry he]

/-- Each of the three causes of RANGE makes the operand illegal (R124, R204). -/
theorem imageOperandLegal_eq_false (hbad : operandOutOfRange (.sumImg c) s) : imageOperandLegal c s = false := by
  rcases hbad with hcore | ⟨e, he, hinvalid | houtside⟩
  · rw [imageOperandLegal, Plan.entry?_eq_none.2 hcore]
  · rw [imageOperandLegal_of_entry he, hinvalid, Bool.false_and]
  · simp [imageOperandLegal_of_entry he, PlanEntry.fits, houtside]

theorem faultsRange_sumImg (c : CoreId) : faultsRange (.sumImg c) (operandOutOfRange (.sumImg c)) := by
  intro s hst hbad
  rw [exec_sumImg_eq_accept, imageOperandLegal_eq_false hbad, accept_range hst]
  rfl

end

/-- Settles O24: the row of SUM.IMG gives word and faults, its effect the sum of the image as a number. -/
theorem sumImgAddsEveryImageByte : Obligations.SumImgAddsEveryImageByte := by
  refine ⟨fun c => ⟨append_setWidth_eq _ c (by decide), faultsBusy_of_not_acceptedInSession rfl, faultsRange_sumImg c⟩,
    faultsIll_of_instr (.sumImg 0), fun c e s hst he hvalid hfits => ?_⟩
  rw [exec_sumImg hst he hvalid hfits, sumBytes_eq_ofNat, Memory.sum_map_toNat_bytes, add_ofNat_eq_ofNat_mod]

/-- Settles O25: the four commands leave in `SUM` what the source tests; the changed byte by `Memory.byte_eq_of_checksumValid`. -/
theorem validateSequenceDecidesTheChecksum : Obligations.ValidateSequenceDecidesTheChecksum := by
  refine ⟨fun c e s hst he hvalid hfits => ?commands, fun m m' p n a hpa han hbyte hrest hm hm' => ?mutation⟩
  case commands =>
    refine ⟨_, _, _, _, exec_sumClr hst, exec_sumImg hst he hvalid hfits, exec_sumMark false hst, exec_sumTest hst, ?_⟩
    dsimp only
    rw [Memory.checksumValid_iff, zero_add]
    split
    case isTrue hzero => exact ⟨iff_of_true rfl hzero, .inr rfl⟩
    case isFalse hzero => exact ⟨iff_of_false (by decide) hzero, .inl rfl⟩
  case mutation =>
    obtain ⟨k, rfl⟩ := Nat.exists_eq_add_of_le hpa
    exact hbyte (Memory.byte_eq_of_checksumValid (by omega) hrest hm hm')

/-- Settles O23: the rows of the four commands give words and faults, their effects the states, with the additions as numbers. -/
theorem sumClearAddMarkAndTest : Obligations.SumClearAddMarkAndTest := by
  refine ⟨by decide, faultsIll_of_instr .sumClr, faultsBusy_of_not_acceptedInSession rfl,
    fun b => ⟨append_setWidth_eq _ b (by decide), faultsBusy_of_not_acceptedInSession rfl⟩, faultsIll_of_instr (.sumAdd 0),
    by decide, by decide, faultsIll_of_instr (.sumMark false), fun m => faultsBusy_of_not_acceptedInSession rfl,
    by decide, faultsIll_of_instr .sumTest, faultsBusy_of_not_acceptedInSession rfl, fun s hst => ?_⟩
  refine ⟨exec_sumClr hst, fun b => ?add, ?mark, ?markTwice, fun hzero => ?valid, fun hnonzero => ?invalid⟩
  case add => rw [exec_sumAdd b hst, add_eq_ofNat_mod]
  case mark => rw [exec_sumMark false hst, add_eq_ofNat_mod]; rfl
  case markTwice => rw [exec_sumMark true hst, add_eq_ofNat_mod]; rfl
  case valid => rw [exec_sumTest hst, if_pos hzero]
  case invalid => rw [exec_sumTest hst, if_neg hnonzero]

/-- Settles O27: the rows of the two commands give words and faults, their effects the states. -/
theorem lrcClearAndXor : Obligations.LrcClearAndXor :=
  ⟨by decide, faultsIll_of_instr .lrcClr, faultsBusy_of_not_acceptedInSession rfl,
    fun b => ⟨append_setWidth_eq _ b (by decide), faultsBusy_of_not_acceptedInSession rfl⟩, faultsIll_of_instr (.lrcXor 0),
    fun _ hst => ⟨exec_lrcClr hst, fun b => exec_lrcXor b hst⟩⟩

end Sys2Proof.Machine
end

section
/-! The encoder (43_encoder.md R140 to R143). The source masks the shifted value where the model takes a group of its bits; the masks lie inside
the group, so the two agree. ENC.MEM reads the little-endian word of R41, here as a number. -/

namespace Sys2Proof.Machine

/-! ### The source's loop (R140) -/

/-- A mask of the low n bits sees nothing above them. -/
theorem setWidth_setWidth_and {w n : Nat} (u : BitVec w) {m : BitVec w} (hm : (m.setWidth n).setWidth w = m) :
    (u.setWidth n).setWidth w &&& m = u &&& m := by
  rw [← hm]
  ext i hi
  simp only [BitVec.getElem_and, BitVec.getElem_setWidth, BitVec.getLsbD_setWidth]
  by_cases hin : i < n
  · simp [hin, BitVec.getLsbD_eq_getElem hi]
  · simp [hin]

/-- A data byte is what the source computes of the value shifted so far. -/
theorem encoderData_setWidth (u : Word) :
    encoderData (u.setWidth 3) = ((0x92 : Word) ||| (u &&& 1) ||| ((u &&& 2) <<< 2) ||| ((u &&& 4) <<< 4)).setWidth 8 := by
  have hgroup : ∀ g : BitVec 3, encoderData g =
      ((0x92 : Word) ||| (g.setWidth 32 &&& 1) ||| ((g.setWidth 32 &&& 2) <<< 2) ||| ((g.setWidth 32 &&& 4) <<< 4)).setWidth 8 := by decide
  rw [hgroup, setWidth_setWidth_and u (by decide), setWidth_setWidth_and u (by decide), setWidth_setWidth_and u (by decide)]

/-- The final byte is what the source computes of the value that the ten shifts leave. -/
theorem encoderFinal_setWidth (u : Word) :
    encoderFinal (u.setWidth 2) = ((0xF2 : Word) ||| (u &&& 1) ||| ((u &&& 2) <<< 2)).setWidth 8 := by
  have hgroup : ∀ g : BitVec 2, encoderFinal g =
      ((0xF2 : Word) ||| (g.setWidth 32 &&& 1) ||| ((g.setWidth 32 &&& 2) <<< 2)).setWidth 8 := by decide
  rw [hgroup, setWidth_setWidth_and u (by decide), setWidth_setWidth_and u (by decide)]

/-! ### The fixed bits (R141) -/

/-- Bits 7, 4, 1 are set and bit 2 is clear. -/
abbrev EncoderFixedBits (b : Byte) : Prop :=
  b.getLsbD 7 = true ∧ b.getLsbD 4 = true ∧ b.getLsbD 1 = true ∧ b.getLsbD 2 = false

theorem encoderFixedBits_encoderData : ∀ g : BitVec 3, EncoderFixedBits (encoderData g) := by decide

theorem encoderFixedBits_encoderFinal : ∀ g : BitVec 2, EncoderFixedBits (encoderFinal g) := by decide

theorem encoderFixedBits_of_mem_enc {v : Word} {b : Byte} (h : b ∈ enc v) : EncoderFixedBits b := by
  rcases List.mem_append.1 h with hdata | hfinal
  · obtain ⟨k, -, rfl⟩ := List.mem_map.1 hdata
    exact encoderFixedBits_encoderData _
  · obtain rfl := List.mem_singleton.1 hfinal
    exact encoderFixedBits_encoderFinal _

/-- Settles O28: each byte stands at its place in `enc`, and is the source's byte of the shifted value. -/
theorem encoderIsTheSourceLoop : Obligations.EncoderIsTheSourceLoop := by
  refine fun v => ⟨length_enc v, fun k hk => ?data, ?final, fun b => encoderFixedBits_of_mem_enc⟩
  case data => rw [getElem?_enc_data v hk, ← BitVec.setWidth_ushiftRight_eq_extractLsb, encoderData_setWidth]
  case final => rw [getElem?_enc_final, ← BitVec.setWidth_ushiftRight_eq_extractLsb, encoderFinal_setWidth]

/-! ### The word ENC.MEM reads (R41) -/

/-- A concatenation as a number: the low part, and the high part above it. -/
theorem toNat_append_eq_add {m n : Nat} (hi : BitVec m) (lo : BitVec n) : (hi ++ lo).toNat = lo.toNat + 2 ^ n * hi.toNat := by
  rw [BitVec.toNat_append, ← Nat.shiftLeft_add_eq_or_of_lt lo.isLt, Nat.shiftLeft_eq, Nat.mul_comm, Nat.add_comm]

/-- Little-endian: the byte at the lowest address is the lowest. -/
theorem Memory.toNat_word (m : Memory) (a : Nat) :
    (m.word a).toNat = (m.byte a).toNat + 2 ^ 8 * (m.byte (a + 1)).toNat + 2 ^ 16 * (m.byte (a + 2)).toNat +
      2 ^ 24 * (m.byte (a + 3)).toNat := by
  simp only [Memory.word, toNat_append_eq_add]
  ring

/-! ### The encoder commands outside a session (R142, R143) -/

section
variable {s : State}

theorem exec_encWord (v : Word) (h : s.seq.st ≠ .run) : exec (.encWord v) s = .next { s with tx := s.tx ++ enc v } :=
  congrArg Host.Outcome.next (accept_effect h)

variable {a : Address}

theorem exec_encMem_eq_accept :
    exec (.encMem a) s = .next (accept (wordOperandLegal a s) (fun t => t.txPut (enc (t.imem.word a.toNat))) s) := rfl

theorem wordOperandLegal_iff : wordOperandLegal a s = true ↔ a.toNat % 4 = 0 ∧ a.toNat + 4 ≤ s.imem.size.val := by
  simp [wordOperandLegal]

/-- RANGE is for exactly the operands that are not legal (R143, R204). -/
theorem operandOutOfRange_encMem_iff : operandOutOfRange (.encMem a) s ↔ wordOperandLegal a s = false := by
  rw [← Bool.not_eq_true, wordOperandLegal_iff, not_and_or, Nat.not_le]
  rfl

theorem exec_encMem (h : s.seq.st ≠ .run) (halign : a.toNat % 4 = 0) (hfits : a.toNat + 4 ≤ s.imem.size.val) :
    exec (.encMem a) s = .next { s with tx := s.tx ++ enc (s.imem.word a.toNat) } := by
  rw [exec_encMem_eq_accept, wordOperandLegal_iff.2 ⟨halign, hfits⟩, accept_effect h]
  rfl

theorem faultsRange_encMem (a : Address) : faultsRange (.encMem a) (operandOutOfRange (.encMem a)) := by
  intro s hst hbad
  rw [exec_encMem_eq_accept, operandOutOfRange_encMem_iff.1 hbad, accept_range hst]
  rfl

end

/-- Settles O30: the rows of the two commands give words and faults, their effects the states; the word read is fixed by its number. -/
theorem encWordAndEncMemSendElevenBytes : Obligations.EncWordAndEncMemSendElevenBytes := by
  refine ⟨fun v => ⟨rfl, faultsBusy_of_not_acceptedInSession rfl⟩,
    fun a => ⟨append_setWidth_eq _ a (by decide), faultsBusy_of_not_acceptedInSession rfl, faultsRange_encMem a⟩,
    faultsIll_of_instr (.encMem 0), fun s hst => ⟨fun v => exec_encWord v hst, fun a v halign hfits hv => ?_⟩⟩
  obtain rfl : s.imem.word a.toNat = v := BitVec.eq_of_toNat_eq ((Memory.toNat_word s.imem a.toNat).trans hv.symm)
  exact exec_encMem hst halign hfits

end Sys2Proof.Machine
end

section
/-! The framing commands (44_framing.md R152 to R155). Outside a session each is a `TxPut` of its bytes, and puts in a row add up: a page
that the host builds is the bytes of its field words and payload, one after the other. -/

namespace Sys2Proof.Machine

/-! ### Commands in a row, puts in a row -/

/-- A command that answers a next state hands it to the rest of the sequence (R243). -/
theorem execAll_cons_of_next {i : Instr} {s t : State} (h : exec i s = .next t) (is : List Instr) : execAll (i :: is) s = execAll is t := by
  rw [execAll, h]

@[simp] theorem State.txPut_nil (s : State) : s.txPut [] = s :=
  congrArg (fun tx => { s with tx := tx }) (List.append_nil s.tx)

@[simp] theorem State.txPut_txPut (xs ys : List Byte) (s : State) : (s.txPut xs).txPut ys = s.txPut (xs ++ ys) :=
  congrArg (fun tx => { s with tx := tx }) (List.append_assoc s.tx xs ys)

/-! ### The bytes of a field -/

@[simp] theorem be32_append (b₃ b₂ b₁ b₀ : Byte) : be32 (b₃ ++ b₂ ++ b₁ ++ b₀) = [b₃, b₂, b₁, b₀] := by
  simp (disch := decide) only [be32, BitVec.extractLsb'_append_eq_of_le, extractLsb'_append_of_start_eq_zero,
    Nat.reduceSub, BitVec.extractLsb'_eq_self]

/-- Most significant byte first, each stuffed (R150, R154). -/
theorem field_append (b₃ b₂ b₁ b₀ : Byte) : field (b₃ ++ b₂ ++ b₁ ++ b₀) = stuff1 b₃ ++ (stuff1 b₂ ++ (stuff1 b₁ ++ stuff1 b₀)) := by
  simp only [field, be32_append, stuff_cons, stuff_nil, List.append_nil]

/-! ### FRM.SYNC, FRM.BYTE, FRM.FIELD outside a session -/

section
variable {s : State}

theorem exec_frmSync (p : Byte) (h : s.seq.st ≠ .run) : exec (.frmSync p) s = .next (s.txPut [0xFF, p]) :=
  congrArg Host.Outcome.next (accept_effect h)

theorem exec_frmByte (b : Byte) (h : s.seq.st ≠ .run) : exec (.frmByte b) s = .next (s.txPut (stuff1 b)) :=
  congrArg Host.Outcome.next (accept_effect h)

theorem exec_frmField (w : Word) (h : s.seq.st ≠ .run) : exec (.frmField w) s = .next (s.txPut (field w)) :=
  congrArg Host.Outcome.next (accept_effect h)

/-- One FRM.BYTE per byte sends the stuffed sequence: a put leaves `ST` as it is, so the next command is accepted too. -/
theorem execAll_map_frmByte (bs : List Byte) (h : s.seq.st ≠ .run) : execAll (bs.map .frmByte) s = .next (s.txPut (stuff bs)) := by
  induction bs generalizing s with
  | nil => exact congrArg Host.Outcome.next s.txPut_nil.symm
  | cons b bs ih =>
    calc execAll (.frmByte b :: bs.map .frmByte) s
      _ = execAll (bs.map .frmByte) (s.txPut (stuff1 b)) := execAll_cons_of_next (exec_frmByte b h) _
      _ = .next ((s.txPut (stuff1 b)).txPut (stuff bs)) := ih h
      _ = .next (s.txPut (stuff (b :: bs))) := by rw [State.txPut_txPut, stuff_cons]

/-- Two fields and a payload, sent by hand. -/
theorem execAll_frmField_frmField_frmByte (header size : Word) (payload : List Byte) (h : s.seq.st ≠ .run) :
    execAll ([.frmField header, .frmField size] ++ payload.map .frmByte) s =
      .next (s.txPut (field header ++ field size ++ stuff payload)) := by
  calc execAll (.frmField header :: .frmField size :: payload.map .frmByte) s
    _ = execAll (.frmField size :: payload.map .frmByte) (s.txPut (field header)) := execAll_cons_of_next (exec_frmField header h) _
    _ = execAll (payload.map .frmByte) ((s.txPut (field header)).txPut (field size)) :=
      execAll_cons_of_next (exec_frmField (s := s.txPut (field header)) size h) _
    _ = .next (((s.txPut (field header)).txPut (field size)).txPut (stuff payload)) := execAll_map_frmByte payload h
    _ = .next (s.txPut (field header ++ field size ++ stuff payload)) := by
      rw [State.txPut_txPut, State.txPut_txPut, List.append_assoc]

end

/-- Settles O32: the grammar's data page is those two fields and that payload. -/
theorem handBuiltPageSendsTheSameBytes : Obligations.HandBuiltPageSendsTheSameBytes :=
  fun _s c base j _e hst => execAll_frmField_frmField_frmByte (headerWord c (base + 512 * j)) _ _ hst

/-- Settles O31: the rows of the three commands give words and faults, their effects the bytes; FRM.BYTE by whether the byte is 0xFF. -/
theorem framingCommandsSendTheirBytes : Obligations.FramingCommandsSendTheirBytes := by
  refine ⟨fun p => ⟨append_setWidth_eq _ p (by decide), faultsBusy_of_not_acceptedInSession rfl⟩, faultsIll_of_instr (.frmSync 0),
    fun b => ⟨append_setWidth_eq _ b (by decide), faultsBusy_of_not_acceptedInSession rfl⟩, faultsIll_of_instr (.frmByte 0),
    fun w => ⟨rfl, faultsBusy_of_not_acceptedInSession rfl⟩,
    fun s hst => ⟨fun p => exec_frmSync p hst, exec_frmByte 0xFF hst, fun b hb => ?byte, fun b₃ b₂ b₁ b₀ => ?field⟩⟩
  case byte => rw [exec_frmByte b hst, stuff1_of_ne hb, State.txPut]
  case field => simp only [exec_frmField _ hst, field_append, State.txPut, List.append_assoc]

end Sys2Proof.Machine
end

section
/-! The plan commands and SEQ.START (45_sequencer.md R161 to R165). A core id in 1..8 names one index of the table; the facts that the model
states over core ids (the number of valid entries, the legality of a session) are here facts over the eight indices. -/

namespace Sys2Proof.Machine

/-! ### Words and faults of commands with two operand fields, or with a legal set -/

/-- Two operand fields side by side, narrower together than the operand, stand below zeros (R76). -/
theorem append_setWidth_append_eq {m n₁ n₂ k : Nat} (hi : BitVec m) (x : BitVec n₁) (y : BitVec n₂) (h : n₁ + n₂ ≤ k) :
    hi ++ (x ++ y).setWidth k = (hi ++ (0 : BitVec (k - (n₁ + n₂))) ++ x ++ y).cast (by omega) := by
  rw [append_setWidth_eq hi (x ++ y) h, BitVec.append_assoc (x₂ := x) (x₃ := y)]
  rfl

/-- A command whose operand is legal has its effect outside a session (R203 check 5). -/
theorem exec_of_accept {i : Instr} {legal : Bool} {effect : State → State} {s : State} (hexec : exec i s = .next (accept legal effect s))
    (h : s.seq.st ≠ .run) (hlegal : legal = true) : exec i s = .next (effect s) := by
  rw [hexec, hlegal, accept_effect h]

/-- A command with a legal set answers RANGE for each cause that makes its operand illegal (R203 check 4). -/
theorem faultsRange_of_accept {i : Instr} {legal : State → Bool} {effect : State → State} {bad : State → Prop}
    (hexec : ∀ s, exec i s = .next (accept (legal s) effect s)) (hbad : ∀ s, bad s → legal s = false) : faultsRange i bad := by
  intro s hst hs
  rw [hexec, hbad s hs, accept_range hst]
  rfl

theorem coreIdLegal_eq_false {c : CoreId} : coreIdLegal c = false ↔ ¬coreInRange c := by
  simp [coreIdLegal, coreInRange]

theorem coreIdLegal_of_index {c : CoreId} {k : Fin 8} (h : c.toNat = k.val + 1) : coreIdLegal c = true := by
  rw [← Bool.not_eq_false, coreIdLegal_eq_false, not_not, coreInRange]
  omega

/-! ### The plan commands (R161 to R164) -/

theorem Plan.modify_of_index {p : Plan} {c : CoreId} {k : Fin 8} (h : c.toNat = k.val + 1) (f : PlanEntry → PlanEntry) :
    p.modify c f = p.set k (f p[k]) := by
  rw [Plan.modify, coreIndex?_eq_some.2 h]

section
variable {s : State} {c : CoreId} {k : Fin 8}

theorem exec_planClr (h : s.seq.st ≠ .run) :
    exec .planClr s = .next { s with plan := Vector.replicate 8 { valid := false, ptr := 0, len := 0 } } :=
  congrArg Host.Outcome.next (accept_effect h)

theorem exec_planPtr (h : s.seq.st ≠ .run) (hk : c.toNat = k.val + 1) (p : Address) :
    exec (.planPtr c p) s = .next { s with plan := s.plan.set k { s.plan[k] with ptr := p } } :=
  (exec_of_accept rfl h (coreIdLegal_of_index hk)).trans (by rw [State.setPlan, Plan.modify_of_index hk])

theorem exec_planLen {l : Address} (h : s.seq.st ≠ .run) (hk : c.toNat = k.val + 1) (hl : l.toNat % 4 = 0) :
    exec (.planLen c l) s = .next { s with plan := s.plan.set k { s.plan[k] with len := l, valid := true } } :=
  have hlegal : lenOperandLegal c l = true := by simp [lenOperandLegal, coreIdLegal_of_index hk, hl]
  (exec_of_accept rfl h hlegal).trans (by rw [State.setPlan, Plan.modify_of_index hk])

theorem exec_planDel (h : s.seq.st ≠ .run) (hk : c.toNat = k.val + 1) :
    exec (.planDel c) s = .next { s with plan := s.plan.set k { s.plan[k] with valid := false } } :=
  (exec_of_accept rfl h (coreIdLegal_of_index hk)).trans (by rw [State.setPlan, Plan.modify_of_index hk])

end

theorem faultsRange_planPtr (c : CoreId) (p : Address) : faultsRange (.planPtr c p) (operandOutOfRange (.planPtr c p)) :=
  faultsRange_of_accept (fun _ => rfl) (fun _ => coreIdLegal_eq_false.2)

theorem faultsRange_planLen (c : CoreId) (l : Address) : faultsRange (.planLen c l) (operandOutOfRange (.planLen c l)) := by
  refine faultsRange_of_accept (legal := fun _ => lenOperandLegal c l) (fun _ => rfl) fun _ hbad => ?_
  rcases hbad with hcore | halign
  · rw [lenOperandLegal, coreIdLegal_eq_false.2 hcore, Bool.false_and]
  · simp [lenOperandLegal, halign]

theorem faultsRange_planDel (c : CoreId) : faultsRange (.planDel c) (operandOutOfRange (.planDel c)) :=
  faultsRange_of_accept (fun _ => rfl) (fun _ => coreIdLegal_eq_false.2)

/-- Settles O34: the rows of the four commands give words and faults, their effects the changed entry. -/
theorem planCommandsChangeOneEntry : Obligations.PlanCommandsChangeOneEntry :=
  ⟨by decide, faultsIll_of_instr .planClr, faultsBusy_of_not_acceptedInSession rfl,
    fun c p => ⟨append_setWidth_append_eq _ c p (by decide), faultsBusy_of_not_acceptedInSession rfl, faultsRange_planPtr c p⟩,
    faultsIll_of_instr (.planPtr 0 0),
    fun c l => ⟨append_setWidth_append_eq _ c l (by decide), faultsBusy_of_not_acceptedInSession rfl, faultsRange_planLen c l⟩,
    faultsIll_of_instr (.planLen 0 0),
    fun c => ⟨append_setWidth_eq _ c (by decide), faultsBusy_of_not_acceptedInSession rfl, faultsRange_planDel c⟩,
    faultsIll_of_instr (.planDel 0),
    fun _ hst => ⟨exec_planClr hst, fun _ _ hk =>
      ⟨exec_planPtr hst hk, fun _ hl => exec_planLen hst hk hl, exec_planDel hst hk⟩⟩⟩

/-! ### SEQ.START (R165) -/

/-- The core ids in ascending order are the eight indices plus one (R19). -/
theorem coreIds_eq_map : coreIds = (List.finRange 8).map (fun k => BitVec.ofNat 4 (k.val + 1)) := by decide

theorem Plan.toList_eq_map (p : Plan) : p.toList = (List.finRange 8).map (fun k => p[k]) :=
  List.ext_getElem (by simp) (fun i _ _ => by simp)

theorem Plan.isValid_of_entry {p : Plan} {c : CoreId} {e : PlanEntry} (h : p.entry? c = some e) : p.isValid c = e.valid := by
  simp [Plan.isValid, h]

theorem Plan.isValid_index (p : Plan) (k : Fin 8) : p.isValid (BitVec.ofNat 4 (k.val + 1)) = p[k].valid := by
  refine Plan.isValid_of_entry (Plan.entry?_of_index ?_)
  rw [BitVec.toNat_ofNat]
  omega

/-- `N` counts the valid entries of the table (R165). -/
theorem Plan.countValid_eq_countP (p : Plan) : p.countValid = p.toList.countP (·.valid) := by
  rw [Plan.countValid, ← List.countP_eq_length_filter, coreIds_eq_map, Plan.toList_eq_map, List.countP_map, List.countP_map]
  exact List.countP_congr fun k _ => by simp [Plan.isValid_index]

theorem sessionLegal_iff {s : State} : sessionLegal s = true ↔ (∃ k : Fin 8, (s.plan[k]).valid = true) ∧
    ∀ k : Fin 8, (s.plan[k]).valid = true → (s.plan[k]).ptr.toNat + (s.plan[k]).len.toNat ≤ s.imem.size.val := by
  rw [sessionLegal, Bool.and_eq_true, Plan.toList_eq_map, List.any_map, List.all_map]
  refine and_congr ?some ?inside
  case some => simp
  case inside => simp [PlanEntry.fits, or_iff_not_imp_left]

/-- RANGE is for exactly the plans that are no session: no valid entry, or one that lies outside image memory (R165, R204). -/
theorem operandOutOfRange_seqStart_iff {run eeprom : Bool} {s : State} :
    operandOutOfRange (.seqStart run eeprom) s ↔ sessionLegal s = false := by
  rw [← Bool.not_eq_true, sessionLegal_iff]
  simp only [operandOutOfRange, not_and_or, not_exists, not_forall, Bool.not_eq_true, Nat.not_le, exists_prop]

theorem exec_seqStart {s : State} (h : s.seq.st ≠ .run) (hlegal : sessionLegal s = true) (run eeprom : Bool) :
    exec (.seqStart run eeprom) s = .next (seqStartEffect run eeprom s) :=
  exec_of_accept rfl h hlegal

/-- Settles O35: the row of SEQ.START gives word and faults, its effect the session's starting values with `N` as the number of valid
entries. -/
theorem seqStartOpensASession : Obligations.SeqStartOpensASession := by
  refine ⟨fun run eeprom => ⟨append_setWidth_append_eq _ _ _ (by decide), faultsBusy_of_not_acceptedInSession rfl,
    faultsRange_of_accept (fun _ => rfl) (fun _ => operandOutOfRange_seqStart_iff.1)⟩, faultsIll_of_instr (.seqStart false false),
    fun run eeprom s hst hsome hfits => ?_⟩
  rw [exec_seqStart hst (sessionLegal_iff.2 ⟨hsome, hfits⟩), ← Plan.countValid_eq_countP]
  rfl

end Sys2Proof.Machine
end

section
/-! The steps of the sequencer (45_sequencer.md R167 to R181). For each phase one lemma says what its step answers where the entry, the
byte or the acknowledgment is known; the phases CSYNC and ACK share the start of a page (R172). -/

namespace Sys2Proof.Machine

open Host (Outcome)

/-! ### When the sequencer has a step, and the next valid core (R167) -/

theorem sequencerEnabled_iff {s : State} : sequencerEnabled s = true ↔ s.seq.st = .run ∧
    (s.seq.ph = .ssync ∨ s.seq.ph = .csync ∨ s.seq.ph = .hdr ∨ s.seq.ph = .pay ∨ s.seq.ph = .next ∨ (s.seq.ph = .ack ∧ s.rx ≠ [])) := by
  cases hph : s.seq.ph <;> simp [sequencerEnabled, hph]

section
variable {p : Plan} {k : Nat} {c : CoreId}

theorem Plan.isValid_eq_false_iff : p.isValid c = false ↔ ∀ e, p.entry? c = some e → e.valid = false := by
  rw [← Bool.not_eq_true, Plan.isValid_iff]
  simp only [not_exists, not_and, Bool.not_eq_true]

theorem Plan.nextValid_eq_none_iff : p.nextValid k = none ↔ ∀ d, k ≤ d.toNat → p.isValid d = false := by
  constructor
  case mp =>
    intro hnone d hk
    by_contra hvalid
    rw [Bool.not_eq_false] at hvalid
    have hlisted := Plan.nextValid_eq_none hnone d (Plan.mem_coreIds_of_isValid hvalid)
    simp [hvalid, hk] at hlisted
  case mpr =>
    intro hinvalid
    refine List.find?_eq_none.2 fun d _ hfound => ?_
    obtain ⟨hk, hvalid⟩ := Bool.and_eq_true_iff.1 hfound
    exact Bool.eq_false_iff.1 (hinvalid d (of_decide_eq_true hk)) hvalid

/-- No valid core from k on lies below `NextValid(k)`. -/
theorem Plan.isValid_eq_false_of_lt_nextValid (h : p.nextValid k = some c) {d : CoreId} (hk : k ≤ d.toNat) (hd : d.toNat < c.toNat) :
    p.isValid d = false := by
  obtain ⟨-, -, below, above, hsplit, hbelow⟩ := Plan.nextValid_eq_some h
  by_contra hvalid
  rw [Bool.not_eq_false] at hvalid
  have hmem := Plan.mem_coreIds_of_isValid hvalid
  rw [hsplit, List.mem_append, List.mem_cons] at hmem
  rcases hmem with hmem | rfl | hmem
  · simpa [hvalid, hk] using hbelow d hmem
  · exact absurd hd (lt_irrefl _)
  · exact absurd hd ((coreIds_split hsplit).2 d hmem).not_gt

theorem Plan.nextValid_eq_some_iff : p.nextValid k = some c ↔
    (k ≤ c.toNat ∧ p.isValid c = true) ∧ ∀ d : CoreId, k ≤ d.toNat → d.toNat < c.toNat → p.isValid d = false := by
  constructor
  case mp =>
    intro h
    obtain ⟨hk, hvalid, -⟩ := Plan.nextValid_eq_some h
    exact ⟨⟨hk, hvalid⟩, fun _ => Plan.isValid_eq_false_of_lt_nextValid h⟩
  case mpr =>
    rintro ⟨⟨hk, hvalid⟩, hleast⟩
    cases hnext : p.nextValid k with
    | none => simp [Plan.nextValid_eq_none_iff.1 hnext c hk] at hvalid
    | some d =>
      obtain ⟨hkd, hvalidd, -⟩ := Plan.nextValid_eq_some hnext
      rcases lt_trichotomy d.toNat c.toNat with hlt | heq | hgt
      · simp [hleast d hkd hlt] at hvalidd
      · rw [BitVec.eq_of_toNat_eq heq]
      · simp [Plan.isValid_eq_false_of_lt_nextValid hnext hk hgt] at hvalid

end

/-- Settles O36: the phases one by one, the hold of a disabled sequencer, and the least valid core of the list of core ids. -/
theorem sequencerHasAStepExactlyWhenEnabled : Obligations.SequencerHasAStepExactlyWhenEnabled := by
  refine ⟨fun _ => sequencerEnabled_iff, fun _ => sequencerStep_of_disabled, fun p k c => ?least, fun p k => ?none⟩
  case least => simp only [Plan.nextValid_eq_some_iff, Plan.isValid_iff, Plan.isValid_eq_false_iff, imp_forall_iff]
  case none => simp only [Plan.nextValid_eq_none_iff, Plan.isValid_eq_false_iff, imp_forall_iff]

/-! ### The step of each phase of a session -/

section
variable {s : State} (hrun : s.seq.st = .run)
include hrun

theorem sequencerStep_ssync (hph : s.seq.ph = .ssync) : sequencerStep s = stepSsync s := by rw [sequencerStep_of_run hrun, hph]

theorem sequencerStep_csync (hph : s.seq.ph = .csync) : sequencerStep s = stepCsync s := by rw [sequencerStep_of_run hrun, hph]

theorem sequencerStep_hdr (hph : s.seq.ph = .hdr) : sequencerStep s = stepHdr s := by rw [sequencerStep_of_run hrun, hph]

theorem sequencerStep_pay (hph : s.seq.ph = .pay) : sequencerStep s = stepPay s := by rw [sequencerStep_of_run hrun, hph]

theorem sequencerStep_ack (hph : s.seq.ph = .ack) : sequencerStep s = stepAck s := by rw [sequencerStep_of_run hrun, hph]

theorem sequencerStep_next (hph : s.seq.ph = .next) : sequencerStep s = stepNext s := by rw [sequencerStep_of_run hrun, hph]

end

/-- Settles O37: the step of phase SSYNC is the session's sync signal. -/
theorem sessionSyncAnnouncesTheImageCount : Obligations.SessionSyncAnnouncesTheImageCount :=
  fun _ hrun hph => sequencerStep_ssync hrun hph

/-! ### The start of a page, and phase CSYNC (R171, R172) -/

section
variable {o : Address} {e : PlanEntry}

theorem pageStarted_of_lt (h : o.toNat < e.len.toNat) (s : State) : pageStarted o e s = { s with
    lrc := 0
    seq := { s.seq with marker := false, chunk := BitVec.ofNat 10 (min 512 (e.len.toNat - o.toNat)), idx := 0, ph := .hdr } } := by
  simp only [pageStarted, pageSize, h, decide_true, Bool.not_true, if_true]

theorem pageStarted_of_le (h : e.len.toNat ≤ o.toNat) (s : State) :
    pageStarted o e s = { s with lrc := 0, seq := { s.seq with marker := true, chunk := 0, idx := 0, ph := .hdr } } := by
  simp only [pageStarted, Nat.not_lt.2 h, decide_false, Bool.not_false, if_false]

theorem stepCsync_of_nextValid {s : State} {c : CoreId} (hnext : s.plan.nextValid s.seq.scan.toNat = some c)
    (he : s.plan.entry? c = some e) : stepCsync s = .next (pageStarted 0 e (coreSynced c s)) := by
  rw [stepCsync, hnext]
  exact startPage_of_entry he

end

/-- Settles O38: the core is `NextValid(SCAN)`, and its first page starts at offset 0, by whether the image has a byte. -/
theorem coreSyncServesTheNextCore : Obligations.CoreSyncServesTheNextCore := by
  intro s c e hrun hph hscan he hvalid hleast
  have hnext : s.plan.nextValid s.seq.scan.toNat = some c := Plan.nextValid_eq_some_iff.2
    ⟨⟨hscan, Plan.isValid_iff.2 ⟨e, he, hvalid⟩⟩, fun d hd hlt => Plan.isValid_eq_false_iff.2 fun e' => hleast d e' hd hlt⟩
  rw [sequencerStep_csync hrun hph, stepCsync_of_nextValid hnext he]
  refine ⟨fun hbytes => ?data, fun hempty => ?marker⟩
  case data => exact congrArg Outcome.next (pageStarted_of_lt (o := 0) hbytes _)
  case marker => exact congrArg Outcome.next (pageStarted_of_le (Nat.le_of_eq (congrArg BitVec.toNat hempty)) _)

/-! ### Phase HDR (R173, R174) -/

section
variable {q : SeqRegs} {a₂ a₁ a₀ z₁ z₀ : Byte}

theorem pageAddress_of_marker (h : q.marker = true) : pageAddress q = 0xFFFFFE := if_pos h

theorem toNat_pageAddress_of_data (h : q.marker = false) : (pageAddress q).toNat = (q.base.toNat + q.off.toNat) % 2 ^ 24 := by
  rw [pageAddress, h, if_neg Bool.false_ne_true, BitVec.toNat_setWidth, BitVec.toNat_add, BitVec.toNat_setWidth_of_le (by decide)]
  exact Nat.mod_mod_of_dvd _ (by decide)

/-- The first header field is the core id above the 24-bit address (R173). -/
theorem headerField_eq_append (a : Address) (c : CoreId) : a.setWidth 32 ||| (c.setWidth 32 <<< 24) = c.setWidth 8 ++ a := by
  refine BitVec.eq_of_getLsbD_eq fun i hi => ?_
  rw [BitVec.getLsbD_append]
  by_cases hlow : i < 24
  case pos => simp [hlow, hi]
  case neg =>
    have hbyte : i - 24 < 8 := by omega
    simp [hlow, hi, hbyte, BitVec.getLsbD_of_ge a i (Nat.not_lt.1 hlow)]

/-- The size field of a page is below 2^16 (R173). -/
theorem setWidth_chunk_eq_append (hz : (z₁ ++ z₀ : BitVec 16).toNat = q.chunk.toNat) :
    q.chunk.setWidth 32 = (0 : Byte) ++ (0 : Byte) ++ z₁ ++ z₀ := by
  rw [toNat_append_eq_add] at hz
  refine BitVec.eq_of_toNat_eq ?_
  simp only [toNat_append_eq_add, BitVec.toNat_setWidth_of_le (show 10 ≤ 32 by decide)]
  rw [← hz]
  rfl

/-- The eight header bytes of a page whose address field and size are known byte by byte. -/
theorem headerBytes_eq (ha : pageAddress q = a₂ ++ a₁ ++ a₀) (hz : (z₁ ++ z₀ : BitVec 16).toNat = q.chunk.toNat) :
    headerBytes q = [q.cog.setWidth 8, a₂, a₁, a₀, 0x00, 0x00, z₁, z₀] := by
  have hfield : (pageAddress q).setWidth 32 ||| (q.cog.setWidth 32 <<< 24) = q.cog.setWidth 8 ++ a₂ ++ a₁ ++ a₀ := by
    simp only [headerField_eq_append, ha, BitVec.append_assoc, BitVec.cast_eq]
  rw [headerBytes, hfield, setWidth_chunk_eq_append hz, be32_append, be32_append]
  rfl

theorem stepHdr_of_byte {s : State} {b : Byte} (h : (headerBytes s.seq)[s.seq.idx.toNat]? = some b) :
    stepHdr s = .next { s with
      tx := s.tx ++ stuff1 b
      seq := if s.seq.idx = 7 then { s.seq with idx := 0, ackn := 0, ph := if s.seq.marker then .ack else .pay }
        else { s.seq with idx := s.seq.idx + 1 } } := by
  rw [stepHdr, h]
  rfl

end

/-- Settles O39: the byte is the one that the list of the eight header bytes has at `IDX`. -/
theorem headerPhaseSendsTheHeaderByte : Obligations.HeaderPhaseSendsTheHeaderByte := by
  intro s a₂ a₁ a₀ z₁ z₀ hrun hph hidx hmarker hdata hsize
  have haddress : pageAddress s.seq = a₂ ++ a₁ ++ a₀ := by
    cases hmk : s.seq.marker
    case true => rw [pageAddress_of_marker hmk, hmarker hmk]
    case false => exact BitVec.eq_of_toNat_eq ((toNat_pageAddress_of_data hmk).trans (hdata hmk).symm)
  have hbytes := headerBytes_eq haddress hsize
  obtain ⟨b, hb⟩ : ∃ b, [s.seq.cog.setWidth 8, a₂, a₁, a₀, 0x00, 0x00, z₁, z₀][s.seq.idx.toNat]? = some b :=
    ⟨_, List.getElem?_eq_getElem (Nat.lt_succ_of_le hidx)⟩
  rw [sequencerStep_hdr hrun hph, stepHdr_of_byte (hbytes ▸ hb)]
  refine ⟨b, hb, fun hearlier => ?_, fun hlast => ?_⟩
  · rw [if_neg hearlier]
  · rw [if_pos hlast]

/-! ### Phase PAY (R176) -/

section
variable {s : State} {e : PlanEntry} (he : s.plan.entry? s.seq.cog = some e)
  (hexists : e.ptr.toNat + s.seq.off.toNat + s.seq.idx.toNat < s.imem.size.val)
include he hexists

theorem stepPay_of_last (hlast : s.seq.idx.toNat + 1 = s.seq.chunk.toNat) : stepPay s = .next { s with
    tx := s.tx ++ stuff1 (s.imem.byte (e.ptr.toNat + s.seq.off.toNat + s.seq.idx.toNat))
    lrc := s.lrc ^^^ s.imem.byte (e.ptr.toNat + s.seq.off.toNat + s.seq.idx.toNat)
    seq := { s.seq with idx := 0, ph := .ack } } := by
  simp only [stepPay, he, Memory.byteAt?_eq_some.2 ⟨hexists, rfl⟩, if_pos hlast]
  rfl

/-- `CHUNK` is a register of ten bits, so an `IDX` below it can advance. -/
theorem stepPay_of_more (hmore : s.seq.idx.toNat + 1 < s.seq.chunk.toNat) : stepPay s = .next { s with
    tx := s.tx ++ stuff1 (s.imem.byte (e.ptr.toNat + s.seq.off.toNat + s.seq.idx.toNat))
    lrc := s.lrc ^^^ s.imem.byte (e.ptr.toNat + s.seq.off.toNat + s.seq.idx.toNat)
    seq := { s.seq with idx := s.seq.idx + 1 } } := by
  have hroom : s.seq.idx.toNat + 1 < 1024 := hmore.trans s.seq.chunk.isLt
  simp only [stepPay, he, Memory.byteAt?_eq_some.2 ⟨hexists, rfl⟩, if_neg hmore.ne, if_pos hroom]
  rfl

end

/-- Settles O40: the last byte of the page and the bytes before it. -/
theorem payloadPhaseSendsTheImageByte : Obligations.PayloadPhaseSendsTheImageByte := by
  rintro s e b hrun hph he hexists - rfl
  rw [sequencerStep_pay hrun hph]
  exact ⟨stepPay_of_last he hexists, stepPay_of_more he hexists⟩

/-! ### Phase ACK: a byte taken, and the verdict on a data page (R178, R179) -/

section
variable {s : State}

/-- The byte received is stored at the place that `ACKN` counts. -/
theorem ackStored_of_index {k : Fin 3} (hk : s.seq.ackn.toNat = k.val) (y : Byte) (rest : List Byte) (h : s.seq.ackn.toNat < 3) :
    ackStored y rest s h =
      { s with rx := rest, seq := { s.seq with ackb := s.seq.ackb.set k y, ackn := BitVec.ofNat 2 (k.val + 1) } } := by
  have hcount : s.seq.ackn + 1 = BitVec.ofNat 2 (k.val + 1) := by bv_omega
  simp only [ackStored, hk, hcount]

theorem set_third_eq (v : Vector Byte 3) (y : Byte) : v.set 2 y = #v[v[0], v[1], y] := by
  refine Vector.ext fun i hi => ?_
  interval_cases i <;> simp

/-- The third byte of a data page's acknowledgment is stored and the verdict is given (R178). -/
theorem stepAck_of_third {y : Byte} {rest : List Byte} (hmarker : s.seq.marker = false) (hackn : s.seq.ackn = 2) (hrx : s.rx = y :: rest) :
    stepAck s =
      dataVerdict { s with rx := rest, seq := { s.seq with ackb := #v[s.seq.ackb[0], s.seq.ackb[1], y], ackn := 3 } } := by
  have hk : s.seq.ackn.toNat = 2 := congrArg BitVec.toNat hackn
  have hlt : s.seq.ackn.toNat < 3 := by omega
  have hneed : s.seq.ackn.toNat + 1 = ackNeed s := by rw [hk, ackNeed, hmarker]; rfl
  simp only [stepAck, hrx, dif_pos hlt, if_pos hneed, hmarker, Bool.false_eq_true, if_false, ackStored_of_index (k := 2) hk]
  rw [← set_third_eq]
  rfl

theorem dataVerdict_of_missingSync (h₁ : s.seq.ackb[0] ≠ 0xFF) : dataVerdict s = .next (s.abort .missingSyncByte) := if_pos h₁

theorem dataVerdict_of_cogMismatch (h₁ : s.seq.ackb[0] = 0xFF) (h₂ : s.seq.ackb[1] ≠ s.seq.cog.setWidth 8) :
    dataVerdict s = .next (s.abort .cogMismatch) := by
  rw [dataVerdict, if_neg (not_not.2 h₁), if_pos h₂]

theorem dataVerdict_of_checksumMismatch (h₁ : s.seq.ackb[0] = 0xFF) (h₂ : s.seq.ackb[1] = s.seq.cog.setWidth 8)
    (h₃ : s.seq.ackb[2] ≠ s.lrc) : dataVerdict s = .next (s.abort .checksumMismatch) := by
  rw [dataVerdict, if_neg (not_not.2 h₁), if_neg (not_not.2 h₂), if_pos h₃]

/-- With the three bytes right `OFF` advances by `CHUNK` and the page at the new offset starts. -/
theorem dataVerdict_of_accepted {e : PlanEntry} {o : Address} (h₁ : s.seq.ackb[0] = 0xFF) (h₂ : s.seq.ackb[1] = s.seq.cog.setWidth 8)
    (h₃ : s.seq.ackb[2] = s.lrc) (he : s.plan.entry? s.seq.cog = some e) (ho : o.toNat = s.seq.off.toNat + s.seq.chunk.toNat) :
    dataVerdict s = .next (pageStarted o e { s with seq := { s.seq with off := o } }) := by
  have hsum : s.seq.off + s.seq.chunk.setWidth 24 = o := by bv_omega
  have hroom : s.seq.off.toNat + s.seq.chunk.toNat < 2 ^ 24 := ho ▸ o.isLt
  rw [dataVerdict, if_neg (not_not.2 h₁), if_neg (not_not.2 h₂), if_neg (not_not.2 h₃), if_pos hroom, offsetAdvanced, hsum]
  exact startPage_of_entry he

end

/-- Settles O42: the three tests in their order, then the page at the advanced offset. -/
theorem dataPageVerdict : Obligations.DataPageVerdict := by
  rintro s e b₁ b₂ b₃ rest q hrun hph hmarker hackn rfl rfl hrx rfl
  rw [sequencerStep_ack hrun hph, stepAck_of_third hmarker hackn hrx]
  refine ⟨fun h₁ => dataVerdict_of_missingSync h₁, fun h₁ h₂ => dataVerdict_of_cogMismatch h₁ h₂,
    fun h₁ h₂ h₃ => dataVerdict_of_checksumMismatch h₁ h₂ h₃, fun h₁ h₂ h₃ he o ho => ⟨fun hbytes => ?data, fun hdone => ?marker⟩⟩
  case data => exact Eq.trans (dataVerdict_of_accepted h₁ h₂ h₃ he ho) (congrArg Outcome.next (pageStarted_of_lt hbytes _))
  case marker => exact Eq.trans (dataVerdict_of_accepted h₁ h₂ h₃ he ho) (congrArg Outcome.next (pageStarted_of_le hdone _))

/-! ### Phase NEXT (R181) -/

section
variable {s : State} {e : PlanEntry} (he : s.plan.entry? s.seq.cog = some e)
include he

theorem stepNext_of_further {c : CoreId} (h : s.plan.nextValid (s.seq.cog.toNat + 1) = some c) :
    stepNext s = .next { s with seq := { imageDone e s.seq with ph := .csync } } := by
  rw [stepNext, he, h]
  rfl

theorem stepNext_of_none (h : s.plan.nextValid (s.seq.cog.toNat + 1) = none) :
    stepNext s = .next { s with seq := { imageDone e s.seq with st := .success, ph := .none } } := by
  rw [stepNext, he, h]
  rfl

end

theorem imageDone_eq (e : PlanEntry) (q : SeqRegs) : imageDone e q =
    { q with base := BitVec.ofNat 32 (q.base.toNat + e.len.toNat), scan := BitVec.ofNat 4 (q.cog.toNat + 1), marker := false } := by
  have hbase : q.base + e.len.setWidth 32 = BitVec.ofNat 32 (q.base.toNat + e.len.toNat) := by bv_omega
  have hscan : q.cog + 1 = BitVec.ofNat 4 (q.cog.toNat + 1) := by bv_omega
  rw [imageDone, hbase, hscan]

/-- Settles O44: by whether a valid core lies above `COG`. -/
theorem nextPhaseAdvancesTheBase : Obligations.NextPhaseAdvancesTheBase := by
  rintro s e q hrun hph he rfl
  rw [sequencerStep_next hrun hph, ← imageDone_eq]
  refine ⟨?further, ?last⟩
  case further =>
    rintro ⟨c, e', hc, he', hvalid⟩
    cases hnext : s.plan.nextValid (s.seq.cog.toNat + 1) with
    | some d => exact stepNext_of_further he hnext
    | none =>
      have hinvalid : e'.valid = false := Plan.isValid_eq_false_iff.1 (Plan.nextValid_eq_none_iff.1 hnext c hc) e' he'
      exact absurd (hvalid.symm.trans hinvalid) (by decide)
  case last =>
    intro hnone
    exact stepNext_of_none he (Plan.nextValid_eq_none_iff.2 fun d hd => Plan.isValid_eq_false_iff.2 fun e' => hnone d e' hd)

end Sys2Proof.Machine
end

section
/-! The checks of one command (60_exceptions.md R203, R204). A command that a session refuses is `accept` of a legality that fails exactly for
the RANGE causes of R204, and of an effect that sets none of ILL, BUSY, RANGE; NOP, RESET and RDR stand apart. -/

namespace Sys2Proof.Machine

/-! ### The RANGE causes of R204 against the legal sets of the model -/

section
variable {s : State} {c : CoreId}

theorem operandOutOfRange_sumImg_iff : operandOutOfRange (.sumImg c) s ↔ imageOperandLegal c s = false := by
  refine ⟨imageOperandLegal_eq_false, fun hlegal => ?_⟩
  cases he : s.plan.entry? c with
  | none => exact .inl (Plan.entry?_eq_none.1 he)
  | some e =>
    rw [imageOperandLegal_of_entry he, Bool.and_eq_false_iff] at hlegal
    exact .inr ⟨e, he, hlegal.imp_right fun houtside => by simpa [PlanEntry.fits] using houtside⟩

theorem operandOutOfRange_planLen_iff {l : Address} : operandOutOfRange (.planLen c l) s ↔ lenOperandLegal c l = false := by
  rw [lenOperandLegal, Bool.and_eq_false_iff, coreIdLegal_eq_false, beq_eq_false_iff_ne]
  rfl

theorem readRegister_eq_none_iff {r : Byte} : readRegister r s = none ↔ r ∉ registerNumbers := by
  refine ⟨fun hnone hmem => ?_, readRegister_of_not_mem⟩
  by_cases hptr : 0x11 ≤ r.toNat ∧ r.toNat ≤ 0x18
  · rw [readRegister_of_ptr hptr, Option.map_eq_none_iff, Plan.entry?_eq_none, BitVec.toNat_ofNat] at hnone
    omega
  by_cases hlen : 0x21 ≤ r.toNat ∧ r.toNat ≤ 0x28
  · rw [readRegister_of_len hlen, Option.map_eq_none_iff, Plan.entry?_eq_none, BitVec.toNat_ofNat] at hnone
    omega
  rw [mem_registerNumbers] at hmem
  unfold readRegister at hnone
  split at hnone
  case h_11 =>
    simp only [imp_false] at *
    omega
  all_goals cases hnone

end

/-- The command index is no part of any RANGE cause. -/
theorem operandOutOfRange_countCommand {i : Instr} {s : State} : operandOutOfRange i s.countCommand ↔ operandOutOfRange i s := by
  cases i <;> rfl

/-! ### Commands that set none of ILL, BUSY, RANGE -/

/-- From s to t the bits ILL, BUSY and RANGE of `FLT` stay (R18). -/
def KeepsCheckBits (s t : State) : Prop := t.flt &&& 0x7 = s.flt &&& 0x7

theorem keepsCheckBits_of_flt_eq {s t : State} (h : t.flt = s.flt) : KeepsCheckBits s t := congrArg (· &&& 0x7) h

/-- HSF is bit 3, outside the three (R202). -/
theorem raise_hsf_keepsCheckBits (s : State) : KeepsCheckBits s (s.raise .hsf) := by
  have hmask : FltBit.hsf.mask &&& 0x7 = 0 := by decide
  rw [KeepsCheckBits, State.raise_flt, BitVec.and_or_distrib_right, hmask]
  exact BitVec.or_zero

theorem rxGetEffect_keepsCheckBits (s : State) : KeepsCheckBits s (rxGetEffect s) := by
  rcases rxGetEffect_cases s with ⟨-, h⟩ | ⟨y, rest, -, h⟩ <;> rw [h] <;> rfl

theorem sumImgEffect_keepsCheckBits (c : CoreId) (s : State) : KeepsCheckBits s (sumImgEffect c s) := by
  obtain ⟨b, h⟩ := sumImgEffect_cases c s
  rw [h]
  rfl

/-- LFSR.CHK is the one command that sets a bit of `FLT` as its effect, and the bit is HSF (R107, R202). -/
theorem lfsrChkEffect_keepsCheckBits (s : State) : KeepsCheckBits s (lfsrChkEffect s) := by
  rcases lfsrChkEffect_cases s with ⟨-, h⟩ | ⟨y, rest, -, ⟨-, h⟩ | ⟨-, h⟩⟩ <;> rw [h]
  case inr.inr => exact raise_hsf_keepsCheckBits { s with rx := rest, res := 0 }
  all_goals rfl

/-! ### The checks in their order (R203) -/

theorem acceptedInSession_iff {i : Instr} : acceptedInSession i = true ↔ i = .nop ∨ i = .reset ∨ ∃ r, i = .rdr r := by
  cases i <;> simp [acceptedInSession]

/-- What a session refuses goes through BUSY and RANGE, the latter by the causes of R204, before its effect. -/
theorem exec_eq_accept {i : Instr} (h : acceptedInSession i = false) (s : State) : ∃ legal effect,
    exec i s = .next (accept legal effect s) ∧ (operandOutOfRange i s ↔ legal = false) ∧ KeepsCheckBits s (effect s) := by
  cases i
  case nop | reset | rdr => cases h
  case rxGet => exact ⟨_, _, rfl, iff_of_false id Bool.noConfusion, rxGetEffect_keepsCheckBits s⟩
  case lfsrChk => exact ⟨_, _, rfl, iff_of_false id Bool.noConfusion, lfsrChkEffect_keepsCheckBits s⟩
  case sumImg c => exact ⟨_, _, rfl, operandOutOfRange_sumImg_iff, sumImgEffect_keepsCheckBits c s⟩
  case encMem => exact ⟨_, _, rfl, operandOutOfRange_encMem_iff, rfl⟩
  case planPtr | planDel => exact ⟨_, _, rfl, coreIdLegal_eq_false.symm, rfl⟩
  case planLen => exact ⟨_, _, rfl, operandOutOfRange_planLen_iff, rfl⟩
  case seqStart => exact ⟨_, _, rfl, operandOutOfRange_seqStart_iff, rfl⟩
  all_goals exact ⟨_, _, rfl, iff_of_false id Bool.noConfusion, rfl⟩

section
variable {i : Instr} {s : State} (hst : s.seq.st ≠ .run ∨ acceptedInSession i = true)
include hst

/-- Check 4: not BUSY, and an operand value outside its legal set. -/
theorem exec_of_operandOutOfRange (hbad : operandOutOfRange i s) : exec i s = .next (s.raise .range) := by
  cases hacc : acceptedInSession i with
  | false =>
    obtain ⟨legal, effect, hexec, hlegal, -⟩ := exec_eq_accept hacc s
    rw [hexec, hlegal.1 hbad, accept_range (hst.resolve_right (by simp [hacc]))]
  | true =>
    obtain rfl | rfl | ⟨r, rfl⟩ := acceptedInSession_iff.1 hacc
    · exact hbad.elim
    · exact hbad.elim
    · exact exec_rdr_of_not_mem hbad

/-- Check 5: a command other than RESET that passes every check. -/
theorem exec_keepsCheckBits (hok : ¬operandOutOfRange i s) (hreset : i ≠ .reset) : ∃ t, exec i s = .next t ∧ KeepsCheckBits s t := by
  cases hacc : acceptedInSession i with
  | false =>
    obtain ⟨legal, effect, hexec, hlegal, heff⟩ := exec_eq_accept hacc s
    rw [hlegal, Bool.not_eq_false] at hok
    exact ⟨effect s, exec_of_accept hexec (hst.resolve_right (by simp [hacc])) hok, heff⟩
  | true =>
    obtain rfl | rfl | ⟨r, rfl⟩ := acceptedInSession_iff.1 hacc
    · exact ⟨s, exec_nop s, rfl⟩
    · exact absurd rfl hreset
    · obtain ⟨v, hv⟩ := Option.ne_none_iff_exists'.1 (mt readRegister_eq_none_iff.1 hok)
      exact ⟨_, exec_rdr_of_readRegister hv, rfl⟩

end

theorem issueWord_of_decode {w : CommandWord} {i : Instr} (h : decode w = .ok i) (s : State) : issueWord w s = exec i s.countCommand := by
  rw [issueWord, h]

/-- Settles O9: each clause is one check, taken in the state whose command index has advanced. -/
theorem commandChecksInOrder : Obligations.CommandChecksInOrder := by
  refine fun w s => ⟨fun hill => issueWord_of_illegal hill s, fun i hdec => ?_⟩
  rw [issueWord_of_decode hdec]
  refine ⟨rfl, fun hrun hacc => ?busy, fun hst hbad => ?range, fun hst hok hreset => ?passed⟩
  case busy => exact faultsBusy_of_not_acceptedInSession hacc s.countCommand hrun
  case range => exact exec_of_operandOutOfRange (s := s.countCommand) hst (operandOutOfRange_countCommand.2 hbad)
  case passed => exact exec_keepsCheckBits (s := s.countCommand) hst (mt operandOutOfRange_countCommand.1 hok) hreset

end Sys2Proof.Machine
end

section
/-! The words of commands (30_encoding.md part B): decoding and encoding undo each other, the rows of the table decide what a word names, and
an assembler line stands for its words. Each operand form is one fact about the fields of `arg`: which bits they are, and that with the
reserved bits 0 there are no others. -/

namespace Sys2Proof

/-! ### The operand fields of `arg` (R76) -/

/-- A field that stands at bit 0 is read back. -/
theorem extractLsb'_setWidth_self {n : Nat} (x : BitVec n) (h : n ≤ 32) : (x.setWidth 32).extractLsb' 0 n = x := by
  rw [BitVec.extractLsb'_setWidth_of_le (by omega), BitVec.extractLsb'_eq_self]

theorem getLsbD_setWidth_ofBool (b : Bool) : ((BitVec.ofBool b).setWidth 32).getLsbD 0 = b := by
  cases b <;> rfl

/-- The fields of form P are read back, the lower one at bit 0 and the upper one above it. -/
theorem extractLsb'_setWidth_append_low (c : CoreId) (a : Address) : ((c ++ a).setWidth 32).extractLsb' 0 24 = a := by
  rw [BitVec.extractLsb'_setWidth_of_le (by decide), BitVec.extractLsb'_append_eq_right]

theorem extractLsb'_setWidth_append_high (c : CoreId) (a : Address) : ((c ++ a).setWidth 32).extractLsb' 24 4 = c := by
  rw [BitVec.extractLsb'_setWidth_of_le (by decide), BitVec.extractLsb'_append_eq_of_le (by decide)]
  exact BitVec.extractLsb'_eq_self

/-- Where every bit from n on is reserved and 0, the low n bits are the whole operand. -/
theorem setWidth_extractLsb'_of_reserved {n : Nat} {arg reserved : Word} (hclean : arg &&& reserved = 0)
    (hreserved : ∀ k < 32, n ≤ k → reserved.getLsbD k = true) : (arg.extractLsb' 0 n).setWidth 32 = arg := by
  refine BitVec.eq_of_getLsbD_eq fun k hk => ?_
  rw [BitVec.getLsbD_setWidth, BitVec.getLsbD_extractLsb', Nat.zero_add]
  by_cases hn : k < n
  case pos => simp [hk, hn]
  case neg =>
    have hzero : arg.getLsbD k = false := by
      have hbit := congrArg (·.getLsbD k) hclean
      simpa [hreserved k hk (by omega)] using hbit
    simp [hn, hzero]

theorem ofBool_getLsbD_eq_extractLsb' (arg : Word) : BitVec.ofBool (arg.getLsbD 0) = arg.extractLsb' 0 1 := by
  refine BitVec.eq_of_getLsbD_eq fun k hk => ?_
  obtain rfl : k = 0 := by omega
  simp

theorem ofBool_append_ofBool_eq_extractLsb' (arg : Word) :
    BitVec.ofBool (arg.getLsbD 1) ++ BitVec.ofBool (arg.getLsbD 0) = arg.extractLsb' 0 2 := by
  refine BitVec.eq_of_getLsbD_eq fun k hk => ?_
  obtain rfl | rfl : k = 0 ∨ k = 1 := by omega
  all_goals rw [BitVec.getLsbD_append]; simp

theorem extractLsb'_append_extractLsb'_eq (arg : Word) : arg.extractLsb' 24 4 ++ arg.extractLsb' 0 24 = arg.extractLsb' 0 28 :=
  BitVec.extractLsb'_append_extractLsb'_eq_extractLsb' rfl

/-! ### Decoding an encoded command -/

/-- No encoding has a reserved bit (R76, R79). -/
theorem arg_and_reserved (i : Instr) : i.arg &&& i.form.reserved = 0 := by
  cases i
  case encWord | frmField => exact BitVec.and_zero
  case rdr | txRaw | lfsrSeed | sumAdd | lrcXor | frmSync | frmByte => exact Laws.setWidth_and_eq_zero _ (Form.reserved .B) (by decide)
  case sumImg | planDel => exact Laws.setWidth_and_eq_zero _ (Form.reserved .C) (by decide)
  case sumMark => exact Laws.setWidth_and_eq_zero _ (Form.reserved .M) (by decide)
  case seqStart => exact Laws.setWidth_and_eq_zero _ (Form.reserved .F) (by decide)
  case encMem => exact Laws.setWidth_and_eq_zero _ (Form.reserved .A) (by decide)
  case planPtr | planLen => exact Laws.setWidth_and_eq_zero _ (Form.reserved .P) (by decide)
  all_goals rfl

/-- The decoder reads an operand back from where the encoder put it (R75, R76, R79). -/
theorem decode_encode (i : Instr) : decode (encode i) = .ok i := by
  have hclean := arg_and_reserved i
  unfold decode
  rw [opcodeField_encode, argField_encode]
  cases i
  case encWord | frmField => exact checkReserved_eq_ok.2 ⟨hclean, rfl⟩
  case rdr | txRaw | lfsrSeed | sumAdd | lrcXor | frmSync | frmByte =>
    exact checkReserved_eq_ok.2 ⟨hclean, congrArg _ (extractLsb'_setWidth_self _ (by decide))⟩
  case sumImg | planDel | encMem => exact checkReserved_eq_ok.2 ⟨hclean, congrArg _ (extractLsb'_setWidth_self _ (by decide))⟩
  case sumMark m => exact checkReserved_eq_ok.2 ⟨hclean, congrArg _ (getLsbD_setWidth_ofBool m)⟩
  case planPtr | planLen =>
    exact checkReserved_eq_ok.2 ⟨hclean, congrArg₂ _ (extractLsb'_setWidth_append_high _ _) (extractLsb'_setWidth_append_low _ _)⟩
  case seqStart run eeprom => cases run <;> cases eeprom <;> rfl
  all_goals exact checkReserved_eq_ok.2 ⟨hclean, rfl⟩

/-- Settles O1: by the command, each operand field read back. -/
theorem decodeInvertsEncode : Obligations.DecodeInvertsEncode := decode_encode

/-! ### Encoding a decoded word -/

/-- A legal operand has no bit outside its form's fields, so the encoder puts it together again (R76, R78). -/
theorem arg_eq_of_decode_eq_ok {w : CommandWord} {i : Instr} (h : decode w = .ok i) : i.arg = argField w := by
  unfold decode at h
  dsimp only at h
  split at h
  case h_28 => cases h
  all_goals
    obtain ⟨hclean, rfl⟩ := checkReserved_eq_ok.1 h
    clear h
  -- forms W, B, C, A, M, F, P, and Z
  case h_18 | h_22 => rfl
  case h_3 | h_5 | h_7 | h_12 | h_17 | h_20 | h_21 => exact setWidth_extractLsb'_of_reserved hclean (by decide)
  case h_13 | h_26 => exact setWidth_extractLsb'_of_reserved hclean (by decide)
  case h_19 => exact setWidth_extractLsb'_of_reserved hclean (by decide)
  case h_14 => rw [Instr.arg, ofBool_getLsbD_eq_extractLsb', setWidth_extractLsb'_of_reserved hclean (by decide)]
  case h_27 => rw [Instr.arg, ofBool_append_ofBool_eq_extractLsb', setWidth_extractLsb'_of_reserved hclean (by decide)]
  case h_24 | h_25 => rw [Instr.arg, extractLsb'_append_extractLsb'_eq, setWidth_extractLsb'_of_reserved hclean (by decide)]
  all_goals exact (BitVec.and_allOnes.symm.trans hclean).symm

theorem encode_of_decode_eq_ok {w : CommandWord} {i : Instr} (h : decode w = .ok i) : encode i = w := by
  obtain ⟨hop, -⟩ := opcode_and_reserved_of_decode_eq_ok h
  rw [word_eq_append w, hop, ← arg_eq_of_decode_eq_ok h]
  rfl

/-- Settles O2. -/
theorem encodeInvertsDecode : Obligations.EncodeInvertsDecode := fun _ _ => encode_of_decode_eq_ok

/-! ### The rows of the opcode table (R77) -/

theorem opcodeTable_row_unique {row row' : String × Byte × Form} (h : row ∈ opcodeTable) (h' : row' ∈ opcodeTable)
    (hop : row.2.1 = row'.2.1) : row = row' :=
  List.inj_on_of_nodup_map nodup_usedOpcodes h h' (congrArg BitVec.toNat hop)

/-- `C & mask == match` says that the opcode is the row's and that no reserved bit of its form is 1. -/
theorem and_rowMask_eq_rowMatch_iff {w : CommandWord} {op : Byte} {f : Form} :
    w &&& rowMask f = rowMatch op ↔ opcodeField w = op ∧ argField w &&& f.reserved = 0 := by
  have hmasked : w &&& rowMask f = opcodeField w ++ (argField w &&& f.reserved) := by
    conv_lhs => rw [word_eq_append w, rowMask, BitVec.and_append]
    exact congrArg (· ++ _) BitVec.and_allOnes
  rw [hmasked, rowMatch]
  constructor
  case mp => exact fun h => ⟨by simpa using congrArg opcodeField h, by simpa using congrArg argField h⟩
  case mpr => rintro ⟨rfl, hclean⟩; rw [hclean]

theorem and_rowMask_eq_rowMatch_iff_decode {row : String × Byte × Form} (hrow : row ∈ opcodeTable) (w : CommandWord) :
    w &&& rowMask row.2.2 = rowMatch row.2.1 ↔ ∃ i, decode w = .ok i ∧ i.opcode = row.2.1 := by
  rw [and_rowMask_eq_rowMatch_iff]
  constructor
  case mp =>
    rintro ⟨hop, hclean⟩
    obtain ⟨i, hdec⟩ := decode_of_row row hrow w hop
    rw [checkReserved, if_pos hclean] at hdec
    exact ⟨i, hdec, (opcode_and_reserved_of_decode_eq_ok hdec).1.symm.trans hop⟩
  case mpr =>
    rintro ⟨i, hdec, hop⟩
    obtain ⟨hopcode, hclean⟩ := opcode_and_reserved_of_decode_eq_ok hdec
    obtain rfl := opcodeTable_row_unique (mem_opcodeTable i) hrow hop
    exact ⟨hopcode, hclean⟩

/-- Settles O3: a legal word matches the row of its command. -/
theorem decodeFollowsOpcodeTable : Obligations.DecodeFollowsOpcodeTable := by
  refine ⟨rfl, fun w row hrow => and_rowMask_eq_rowMatch_iff_decode hrow w, fun w hnone => ?_⟩
  cases hdec : decode w with
  | error e => exact ⟨e, rfl⟩
  | ok i => exact absurd ((and_rowMask_eq_rowMatch_iff_decode (mem_opcodeTable i) w).2 ⟨i, hdec, rfl⟩) (hnone _ (mem_opcodeTable i))

/-- Settles O5, by evaluation of the ten words. -/
theorem writtenOutWordsDecode : Obligations.WrittenOutWordsDecode := by
  unfold Obligations.WrittenOutWordsDecode
  decide

/-! ### Assembler lines (R79, R80) -/

theorem opcodeTable_lookup_mnemonic (i : Instr) : opcodeTable.lookup i.mnemonic = some (i.opcode, i.form) := by
  cases i <;> rfl

/-- One number fills `arg` as it is. -/
theorem assembleArg_toNat {n : Nat} (x : BitVec n) (hn : n ≤ 32) {f : Form} (hZ : f ≠ .Z) (hP : f ≠ .P) :
    assembleArg f [x.toNat] = some (x.setWidth 32) := by
  have hfits : x.toNat < 2 ^ 32 := x.isLt.trans_le (Nat.pow_le_pow_right (by decide) hn)
  have hword : assembleArg f [x.toNat] = if x.toNat < 2 ^ 32 then some (BitVec.ofNat 32 x.toNat) else none := by
    cases f
    case Z => exact absurd rfl hZ
    case P => exact absurd rfl hP
    all_goals rfl
  rw [hword, if_pos hfits, BitVec.ofNat_toNat]

theorem assembleArg_toNat_toNat (c : CoreId) (a : Address) : assembleArg .P [c.toNat, a.toNat] = some ((c ++ a).setWidth 32) := by
  have hsum : BitVec.ofNat 32 (c.toNat * 2 ^ 24 + a.toNat) = (c ++ a).setWidth 32 := by
    have happend := Machine.toNat_append_eq_add c a
    refine BitVec.eq_of_toNat_eq ?_
    rw [BitVec.toNat_ofNat, BitVec.toNat_setWidth, happend]
    congr 1
    ring
  exact (if_pos ⟨c.isLt, a.isLt⟩).trans (congrArg some hsum)

theorem assembleArg_operands (i : Instr) : assembleArg i.form i.operands = some i.arg := by
  cases i
  case rdr | txRaw | lfsrSeed | sumAdd | lrcXor | frmSync | frmByte => exact assembleArg_toNat _ (by decide) Form.noConfusion Form.noConfusion
  case sumImg | planDel | encMem => exact assembleArg_toNat _ (by decide) Form.noConfusion Form.noConfusion
  case encWord w | frmField w => 
    exact (assembleArg_toNat w le_rfl Form.noConfusion Form.noConfusion).trans (congrArg some (BitVec.setWidth_eq w))
  case planPtr c a | planLen c a => exact assembleArg_toNat_toNat c a
  case sumMark m => cases m <;> rfl
  case seqStart run eeprom => cases run <;> cases eeprom <;> rfl
  all_goals rfl

theorem assembleCommand_operands (i : Instr) : assembleCommand i.mnemonic i.operands = some (encode i) := by
  rw [assembleCommand, opcodeTable_lookup_mnemonic]
  exact congrArg (Option.map _) (assembleArg_operands i)

/-- `HS.TX n` is n LFSR.TX (R80). -/
theorem assembleAny_hsTx (n : Nat) : assembleAny "HS.TX" [n] = some (List.replicate n 0x1200000000) := by
  have hone : assembleCommand "LFSR.TX" [] = some 0x1200000000 := assembleCommand_operands .lfsrTx
  change (List.replicate n ("LFSR.TX", [])).mapM (fun x => assembleCommand x.1 x.2) = _
  induction n with
  | zero => rfl
  | succ n ih => simp [List.replicate_succ, hone, ih]

/-- Settles O6: a command's word from its row and its operands; the lines of text by evaluation; `HS.TX` by induction on its count. -/
theorem assembledLinesAreTheirWords : Obligations.AssembledLinesAreTheirWords :=
  ⟨fun i => ⟨assembleCommand_operands i, mem_opcodeTable i⟩, by decide, by decide, by decide, by decide, by decide, by decide,
    by decide, assembleAny_hsTx⟩

end Sys2Proof
end

section
/-! The step of each agent (00_scope.md R7), the reset (70_reset_and_hazards.md R230, R231), what a session leaves a command to write
(40_system.md R92), and what every step leaves of the two byte streams and of the fault bits (10_state.md R18, R27, R28). -/

namespace Sys2Proof.Machine

open Host (Outcome)

/-! ### The event that is next -/

section
variable {s : State} {rest : List Event}

theorem step_of_pending {e : Event} (h : s.pending = e :: rest) : step s = takeEvent e { s with pending := rest } := by
  rw [step, nextEvent, h]

theorem step_of_nothing_pending (h : s.pending = []) : step s = takeEvent (Config.freeEvent s.turn) { s with turn := s.turn + 1 } := by
  rw [step, nextEvent, h]

end

/-- A table word that is read as a command is the word that its bits put on the port. -/
theorem decode_wordOfBits {w : Nat} {i : Instr} (h : decodeTableWord 40 w = some i) : decode (wordOfBits w) = .ok i := by
  unfold decodeTableWord at h
  split at h
  · cases hdec : decode (BitVec.ofNat 40 w) with
    | ok j =>
      rw [hdec] at h
      cases h
      exact hdec
    | error e =>
      rw [hdec] at h
      cases h
  · cases h

/-- Settles O7: the word is the pending event, and the port runs the command it decodes to. -/
theorem stepRunsDecodedCommand : Obligations.StepRunsDecodedCommand := by
  refine ⟨fun s w rest hpending => step_of_pending hpending, fun s w rest i hpending hdec => ?decoded, fun s w i hword => ?fetched⟩
  case decoded => exact (step_of_pending hpending).trans (issueWord_of_decode hdec _)
  case fetched =>
    exact (step_of_pending (e := .command (wordOfBits w)) (rest := s.pending) rfl).trans (issueWord_of_decode (decode_wordOfBits hword) s)

/-- Settles O8: by the event at the head of the list. -/
theorem stepTakesOtherAgentsTurns : Obligations.StepTakesOtherAgentsTurns :=
  fun _ _ => ⟨step_of_pending, fun _ => step_of_pending, step_of_pending, step_of_nothing_pending⟩

/-! ### Reset -/

theorem exec_reset (s : State) : exec .reset s = .next s.resetBlock := rfl

/-- The empty plan is eight invalid entries (R32). -/
theorem Plan.reset_eq_replicate : Plan.reset = Vector.replicate 8 { valid := false, ptr := 0, len := 0 } := rfl

/-- Settles O12: `resetBlock` with its values written out. -/
theorem resetGivesEveryRegisterItsValue : Obligations.ResetGivesEveryRegisterItsValue :=
  ⟨by decide, faultsIll_of_instr .reset, fun _ => rfl, fun s => exec_reset s⟩

/-- Settles O13: `resetBlock` is the initial state with TX and the model's own fields put back. -/
theorem initialStateIsResetStateWithTxEmpty : Obligations.InitialStateIsResetStateWithTxEmpty := by
  refine ⟨?reset, fun _ _ => ⟨rfl, rfl⟩, _, _, rfl⟩
  case reset =>
    rintro m l s rfl rfl
    exact exec_reset s

/-! ### A command in a session (R92) -/

theorem exec_in_session {i : Instr} {s t : State} (hrun : s.seq.st = .run) (hi : i ≠ .reset) (h : exec i s = .next t) :
    t = { s with res := t.res, flt := t.flt } := by
  rcases exec_cases i s with ⟨-, hnop⟩ | ⟨hreset, -⟩ | ⟨r, -, hrdr⟩ | ⟨legal, effect, hbusy, -⟩
  · cases hnop.symm.trans h
    rfl
  · exact absurd hreset hi
  · rcases execRdr_cases r s with ⟨v, -, hv⟩ | ⟨-, hrange⟩
    · cases hv.symm.trans (hrdr.symm.trans h)
      rfl
    · cases hrange.symm.trans (hrdr.symm.trans h)
      rfl
  · rw [accept_busy hrun] at hbusy
    cases hbusy.symm.trans h
    rfl

/-- Settles O10: NOP writes nothing, RDR writes `RES` or raises RANGE, and every other command raises BUSY. -/
theorem commandsInSessionTouchOnlyResAndFlt : Obligations.CommandsInSessionTouchOnlyResAndFlt :=
  fun _ _ _ hrun hi h => exec_in_session hrun hi h

/-! ### TX, RX and FLT -/

/-- From s to t, TX is a log, RX a queue, and the bits of `FLT` are sticky (R27, R28, R201). -/
structure KeepsStreams (s t : State) : Prop where
  tx : ∃ bs, t.tx = s.tx ++ bs
  rx : t.rx = s.rx ∨ (∃ b, t.rx = s.rx ++ [b]) ∨ (∃ b, s.rx = b :: t.rx) ∨ t.rx = []
  flt : s.flt &&& t.flt = s.flt

section
variable {s t : State}

theorem keepsStreams_of_append (bs : List Byte) (htx : t.tx = s.tx ++ bs) (hrx : t.rx = s.rx) (hflt : t.flt = s.flt) : KeepsStreams s t :=
  ⟨⟨bs, htx⟩, .inl hrx, by rw [hflt, BitVec.and_self]⟩

theorem keepsStreams_of_eq (htx : t.tx = s.tx) (hrx : t.rx = s.rx) (hflt : t.flt = s.flt) : KeepsStreams s t :=
  keepsStreams_of_append [] (htx.trans (List.append_nil _).symm) hrx hflt

theorem keepsStreams_of_take {y : Byte} (htx : t.tx = s.tx) (hrx : s.rx = y :: t.rx) (hflt : s.flt &&& t.flt = s.flt) : KeepsStreams s t :=
  ⟨⟨[], htx.trans (List.append_nil _).symm⟩, .inr (.inr (.inl ⟨y, hrx⟩)), hflt⟩

end

/-- A raised bit joins the bits that are set (R201). -/
theorem and_raise_flt (f : FltBit) (s : State) : s.flt &&& (s.raise f).flt = s.flt := by
  rw [State.raise_flt, BitVec.and_or_distrib_left, BitVec.and_self]
  refine BitVec.eq_of_getLsbD_eq fun k _ => ?_
  rw [BitVec.getLsbD_or, BitVec.getLsbD_and]
  cases s.flt.getLsbD k <;> rfl

theorem raise_keepsStreams (f : FltBit) (s : State) : KeepsStreams s (s.raise f) :=
  ⟨⟨[], (List.append_nil _).symm⟩, .inl rfl, and_raise_flt f s⟩

/-! ### The command port -/

theorem accept_keepsStreams {legal : Bool} {effect : State → State} {s : State} (h : KeepsStreams s (effect s)) :
    KeepsStreams s (accept legal effect s) :=
  accept_ind (fun f => raise_keepsStreams f s) (fun _ _ => h)

theorem rxGetEffect_keepsStreams (s : State) : KeepsStreams s (rxGetEffect s) := by
  rcases rxGetEffect_cases s with ⟨-, h⟩ | ⟨y, rest, hrx, h⟩ <;> rw [h]
  case inl => exact keepsStreams_of_eq rfl rfl rfl
  case inr => exact keepsStreams_of_take rfl hrx BitVec.and_self

theorem lfsrChkEffect_keepsStreams (s : State) : KeepsStreams s (lfsrChkEffect s) := by
  rcases lfsrChkEffect_cases s with ⟨-, h⟩ | ⟨y, rest, hrx, ⟨-, h⟩ | ⟨-, h⟩⟩ <;> rw [h]
  case inl => exact keepsStreams_of_eq rfl rfl rfl
  case inr.inl => exact keepsStreams_of_take rfl hrx BitVec.and_self
  case inr.inr => exact keepsStreams_of_take rfl hrx (and_raise_flt .hsf s)

theorem sumImgEffect_keepsStreams (c : CoreId) (s : State) : KeepsStreams s (sumImgEffect c s) := by
  obtain ⟨b, h⟩ := sumImgEffect_cases c s
  rw [h]
  exact keepsStreams_of_eq rfl rfl rfl

theorem execRdr_keepsStreams {r : Byte} {s t : State} (h : execRdr r s = .next t) : KeepsStreams s t := by
  rcases execRdr_cases r s with ⟨v, -, hv⟩ | ⟨-, hrange⟩
  · cases hv.symm.trans h
    exact keepsStreams_of_eq rfl rfl rfl
  · cases hrange.symm.trans h
    exact raise_keepsStreams .range s

/-- The commands that send append to TX; RX.GET and LFSR.CHK take the first byte of RX, RX.FLUSH empties it. -/
theorem exec_keepsStreams {i : Instr} {s t : State} (hi : i ≠ .reset) (h : exec i s = .next t) : KeepsStreams s t := by
  cases i
  case reset => exact absurd rfl hi
  case rdr r => exact execRdr_keepsStreams h
  all_goals cases h
  case nop => exact keepsStreams_of_eq rfl rfl rfl
  case rxFlush => exact accept_keepsStreams ⟨⟨[], (List.append_nil _).symm⟩, .inr (.inr (.inr rfl)), BitVec.and_self⟩
  case rxGet => exact accept_keepsStreams (rxGetEffect_keepsStreams s)
  case lfsrChk => exact accept_keepsStreams (lfsrChkEffect_keepsStreams s)
  case sumImg c => exact accept_keepsStreams (sumImgEffect_keepsStreams c s)
  case txRaw | lfsrTx | encWord | encMem | frmSync | frmByte | frmField =>
    exact accept_keepsStreams (keepsStreams_of_append _ rfl rfl rfl)
  all_goals exact accept_keepsStreams (keepsStreams_of_eq rfl rfl rfl)

/-! ### The sequencer -/

/-- From s to t, TX, RX and `FLT` stay. -/
structure SameStreams (s t : State) : Prop where
  tx : t.tx = s.tx
  rx : t.rx = s.rx
  flt : t.flt = s.flt

theorem dataVerdict_sameStreams {s t : State} (h : dataVerdict s = .next t) : SameStreams s t := by
  rcases dataVerdict_next h with ⟨-, rfl⟩ | ⟨-, -, rfl⟩ | ⟨-, -, -, rfl⟩ | ⟨-, -, -, -, e, -, rfl⟩ <;> exact ⟨rfl, rfl, rfl⟩

theorem markerVerdict_sameStreams (s : State) : SameStreams s (markerVerdict s) := by
  rcases markerVerdict_cases s with ⟨r, -, h⟩ | h <;> rw [h] <;> exact ⟨rfl, rfl, rfl⟩

/-- Phase ACK with a byte received takes it off RX and sends nothing (R178). -/
theorem stepAck_streams {s t : State} {y : Byte} {rest : List Byte} (hrx : s.rx = y :: rest) (h : stepAck s = .next t) :
    t.tx = s.tx ∧ t.rx = rest ∧ t.flt = s.flt := by
  rcases stepAck_next h with ⟨hnil, -⟩ | ⟨y', rest', hcons, hk, hstored⟩
  · cases hrx.symm.trans hnil
  · cases hrx.symm.trans hcons
    rcases hstored with ⟨-, rfl⟩ | ⟨-, -, rfl⟩ | ⟨-, -, hdata⟩
    · exact ⟨rfl, rfl, rfl⟩
    · obtain ⟨htx, hrx', hflt⟩ := markerVerdict_sameStreams (ackStored y rest s hk)
      exact ⟨htx, hrx', hflt⟩
    · obtain ⟨htx, hrx', hflt⟩ := dataVerdict_sameStreams hdata
      exact ⟨htx, hrx', hflt⟩

theorem stepAck_keepsStreams {s t : State} (h : stepAck s = .next t) : KeepsStreams s t := by
  cases hrx : s.rx with
  | nil =>
    rcases stepAck_next h with ⟨-, rfl⟩ | ⟨y, rest, hcons, -⟩
    · exact keepsStreams_of_eq rfl rfl rfl
    · cases hrx.symm.trans hcons
  | cons y rest =>
    obtain ⟨htx, hrest, hflt⟩ := stepAck_streams hrx h
    exact keepsStreams_of_take htx (by rw [hrx, hrest]) (by rw [hflt, BitVec.and_self])

theorem sequencerStep_keepsStreams {s t : State} (h : sequencerStep s = .next t) : KeepsStreams s t := by
  by_cases hrun : s.seq.st = .run
  · rw [sequencerStep_of_run hrun] at h
    cases hph : s.seq.ph <;> simp only [hph] at h
    case none => cases h; exact keepsStreams_of_eq rfl rfl rfl
    case ssync => rw [stepSsync_next h]; exact keepsStreams_of_append _ rfl rfl rfl
    case csync => obtain ⟨c, e, -, -, rfl⟩ := stepCsync_next h; exact keepsStreams_of_append _ rfl rfl rfl
    case hdr => obtain ⟨b, -, rfl⟩ := stepHdr_next h; exact keepsStreams_of_append _ rfl rfl rfl
    case pay => obtain ⟨e, -, -, ⟨-, rfl⟩ | ⟨-, -, rfl⟩⟩ := stepPay_next h <;> exact keepsStreams_of_append _ rfl rfl rfl
    case ack => exact stepAck_keepsStreams h
    case next => obtain ⟨e, -, ⟨-, rfl⟩ | ⟨-, rfl⟩⟩ := stepNext_next h <;> exact keepsStreams_of_eq rfl rfl rfl
  · rw [sequencerStep_of_not_run hrun] at h
    cases h
    exact keepsStreams_of_eq rfl rfl rfl

/-! ### The step of any agent -/

/-- What an event does: a reset of the block, a command other than RESET or an illegal word, the sequencer's step, or a delivery (R7). -/
theorem takeEvent_cases {e : Event} {s t : State} (h : takeEvent e s = .next t) :
    (Event.isReset e ∧ t = s.countCommand.resetBlock) ∨
      (∃ i, i ≠ .reset ∧ exec i s.countCommand = .next t) ∨ t = s.countCommand.raise .ill ∨
      (e = .sequencer ∧ sequencerStep s = .next t) ∨ ∃ b, t = s.rxPut b := by
  cases e with
  | command w =>
    rcases issueWord_cases w s with ⟨i, hdec, hi⟩ | hill
    · have hexec : exec i s.countCommand = .next t := hi.symm.trans h
      by_cases hreset : i = .reset
      · subst hreset
        cases hexec
        exact .inl ⟨.inr ⟨w, rfl, hdec⟩, rfl⟩
      · exact .inr (.inl ⟨i, hreset, hexec⟩)
    · cases hill.symm.trans h
      exact .inr (.inr (.inl rfl))
  | hardwareReset => cases h; exact .inl ⟨.inl rfl, rfl⟩
  | sequencer => exact .inr (.inr (.inr (.inl ⟨rfl, h⟩)))
  | deliver b => cases h; exact .inr (.inr (.inr (.inr ⟨b, rfl⟩)))

theorem takeEvent_keepsStreams {e : Event} {s t : State} (h : takeEvent e s = .next t) :
    (Event.isReset e ∧ t.tx = s.tx ∧ t.rx = []) ∨ KeepsStreams s t := by
  rcases takeEvent_cases h with ⟨hreset, rfl⟩ | ⟨i, hi, hexec⟩ | rfl | ⟨-, hseq⟩ | ⟨b, rfl⟩
  · exact .inl ⟨hreset, rfl, rfl⟩
  · obtain ⟨htx, hrx, hflt⟩ := exec_keepsStreams hi hexec
    exact .inr ⟨htx, hrx, hflt⟩
  · obtain ⟨htx, hrx, hflt⟩ := raise_keepsStreams .ill s.countCommand
    exact .inr ⟨htx, hrx, hflt⟩
  · exact .inr (sequencerStep_keepsStreams hseq)
  · exact .inr ⟨⟨[], (List.append_nil _).symm⟩, .inr (.inl ⟨b, rfl⟩), BitVec.and_self⟩

/-- The list of events and the counter are no part of the block. -/
theorem nextEvent_sameStreams (s : State) : SameStreams s (nextEvent s).2 := by
  unfold nextEvent
  split <;> exact ⟨rfl, rfl, rfl⟩

theorem step_keepsStreams {s t : State} (h : step s = .next t) :
    (Event.isReset (nextEvent s).1 ∧ t.tx = s.tx ∧ t.rx = []) ∨ KeepsStreams s t := by
  obtain ⟨htx, hrx, hflt⟩ := nextEvent_sameStreams s
  rcases takeEvent_keepsStreams h with ⟨hreset, htx', hrx'⟩ | ⟨htx', hrx', hflt'⟩
  · exact .inl ⟨hreset, htx'.trans htx, hrx'⟩
  · rw [htx] at htx'
    rw [hrx] at hrx'
    rw [hflt] at hflt'
    exact .inr ⟨htx', hrx', hflt'⟩

/-- Settles O48: no step removes a byte of TX, the reset included. -/
theorem transmittedBytesStay : Obligations.TransmittedBytesStay := by
  intro s t h
  rcases step_keepsStreams h with ⟨-, htx, -⟩ | hkeeps
  · exact ⟨[], htx.trans (List.append_nil _).symm⟩
  · exact hkeeps.tx

/-- Settles O49: the reset empties RX, every other step moves it as a queue. -/
theorem receivedBytesAreTakenInOrder : Obligations.ReceivedBytesAreTakenInOrder := by
  intro s t h
  rcases step_keepsStreams h with ⟨-, -, hrx⟩ | hkeeps
  · exact .inr (.inr (.inr hrx))
  · exact hkeeps.rx

/-- Settles O50: what is no reset only raises bits. -/
theorem faultBitsStayUntilReset : Obligations.FaultBitsStayUntilReset := by
  intro s t h
  rcases step_keepsStreams h with ⟨hreset, -⟩ | hkeeps
  · exact .inl hreset
  · exact .inr hkeeps.flt

end Sys2Proof.Machine
end

section
/-! The LFSR commands in a row (41_lfsr.md R102, R108): each command takes the head of the bit sequence and leaves the LFSR where the tail
starts, so a row of them is an induction on its length. -/

namespace Sys2Proof.Machine

theorem lfsrBit_zero (v : Byte) : lfsrBit v 0 = lfsrOut v := rfl

theorem lfsrBit_succ (v : Byte) (k : Nat) : lfsrBit v (k + 1) = lfsrBit (lfsrNext v) k := rfl

/-- The handshake bytes of the first n bits of the sequence from v (R61, R102). -/
def handshakeBytes (v : Byte) (n : Nat) : List Byte := (List.range n).map (fun k => handshakeByte (lfsrBit v k))

theorem handshakeBytes_succ (v : Byte) (n : Nat) :
    handshakeBytes v (n + 1) = handshakeByte (lfsrOut v) :: handshakeBytes (lfsrNext v) n := by
  simp only [handshakeBytes, List.range_succ_eq_map, List.map_cons, List.map_map, lfsrBit_zero]
  rfl

/-- The handshake byte of the expected bit passes (R61, R107). -/
theorem handshakePasses_handshakeByte (b : Bool) : handshakePasses (handshakeByte b) b = true := by
  cases b <;> rfl

theorem execAll_replicate_lfsrTx (n : Nat) {s : State} (h : s.seq.st ≠ .run) : execAll (List.replicate n .lfsrTx) s =
    .next { s with tx := s.tx ++ handshakeBytes s.lfsr n, lfsr := lfsrIterate n s.lfsr } := by
  induction n generalizing s with
  | zero => exact congrArg Host.Outcome.next s.txPut_nil.symm
  | succ n ih =>
    have hfirst := exec_lfsrTx h
    rw [← handshakeByte_lfsrOut] at hfirst
    rw [List.replicate_succ, execAll_cons_of_next hfirst, handshakeBytes_succ, List.append_cons _ _ (handshakeBytes _ n)]
    exact ih (s := { s with tx := s.tx ++ [handshakeByte (lfsrOut s.lfsr)], lfsr := lfsrNext s.lfsr }) h

theorem exec_lfsrChk_of_pass {s : State} {rest : List Byte} (h : s.seq.st ≠ .run) (hrx : s.rx = handshakeByte (lfsrOut s.lfsr) :: rest) :
    exec .lfsrChk s = .next { s with rx := rest, res := 1, lfsr := lfsrNext s.lfsr } := by
  rw [exec_lfsrChk h, lfsrChkEffect_of_cons hrx, if_pos (handshakePasses_handshakeByte _)]

theorem execAll_replicate_lfsrChk (n : Nat) {s : State} {rest : List Byte} (h : s.seq.st ≠ .run)
    (hrx : s.rx = handshakeBytes s.lfsr (n + 1) ++ rest) : execAll (List.replicate (n + 1) .lfsrChk) s =
    .next { s with rx := rest, res := 1, lfsr := lfsrIterate (n + 1) s.lfsr } := by
  induction n generalizing s with
  | zero => exact execAll_cons_of_next (exec_lfsrChk_of_pass h hrx) []
  | succ n ih =>
    rw [handshakeBytes_succ, List.cons_append] at hrx
    rw [List.replicate_succ, execAll_cons_of_next (exec_lfsrChk_of_pass h hrx)]
    exact ih (s := { s with rx := handshakeBytes (lfsrNext s.lfsr) (n + 1) ++ rest, res := 1, lfsr := lfsrNext s.lfsr }) h rfl

/-- Settles O22, by induction on the number of commands. -/
theorem lfsrCommandsRunTheBitSequence : Obligations.LfsrCommandsRunTheBitSequence :=
  ⟨fun _ => rfl, fun n _ hst => ⟨execAll_replicate_lfsrTx n hst, fun _ hrx => execAll_replicate_lfsrChk n hst hrx⟩⟩

end Sys2Proof.Machine
end

section
/-! Phase ACK (45_sequencer.md R178, R180) and the end of a session (R182, R210); FLAGS, which no rule of the sequencer reads (R166). -/

namespace Sys2Proof.Machine

open Host (Outcome)

/-! ### Phase ACK before and at the last byte of the marker's acknowledgment -/

section
variable {s : State} {y : Byte} {rest : List Byte}

/-- The bytes of the page's acknowledgment, with `MARKER_ACK_LEN` as a number (R178, R180). -/
theorem ackNeed_eq (s : State) : ackNeed s = if s.seq.marker then markerAckCount s else 3 := rfl

theorem stepAck_of_nil (hrx : s.rx = []) : stepAck s = .next s := by
  rw [stepAck, hrx]

theorem stepAck_of_more (hrx : s.rx = y :: rest) (hk : s.seq.ackn.toNat < 3) (hmore : s.seq.ackn.toNat + 1 ≠ ackNeed s) :
    stepAck s = .next (ackStored y rest s hk) := by
  simp only [stepAck, hrx, dif_pos hk, if_neg hmore]

theorem stepAck_of_marker_last (hrx : s.rx = y :: rest) (hk : s.seq.ackn.toNat < 3) (hlast : s.seq.ackn.toNat + 1 = ackNeed s)
    (hmarker : s.seq.marker = true) : stepAck s = .next (markerVerdict (ackStored y rest s hk)) := by
  simp only [stepAck, hrx, dif_pos hk, if_pos hlast, if_pos hmarker]

theorem stepAck_of_data_last (hrx : s.rx = y :: rest) (hk : s.seq.ackn.toNat < 3) (hlast : s.seq.ackn.toNat + 1 = ackNeed s)
    (hmarker : s.seq.marker = false) : stepAck s = dataVerdict (ackStored y rest s hk) := by
  simp only [stepAck, hrx, dif_pos hk, if_pos hlast, hmarker, Bool.false_eq_true, if_false]

theorem markerVerdict_of_two (h : s.markerAckLen = .two) : markerVerdict s =
    if s.seq.ackb[0] ≠ 0xFF then s.abort .missingSyncByte
    else if s.seq.ackb[1] ≠ s.seq.cog.setWidth 8 then s.abort .cogMismatch
    else { s with seq := { s.seq with ph := .next } } := by
  simp only [markerVerdict, h]

theorem markerVerdict_of_one (h : s.markerAckLen = .one) : markerVerdict s =
    if s.seq.ackb[0] ≠ s.seq.cog.setWidth 8 then s.abort .cogMismatch else { s with seq := { s.seq with ph := .next } } := by
  simp only [markerVerdict, h]

theorem markerVerdict_of_missingSync (h : s.markerAckLen = .two) (h₀ : s.seq.ackb[0] ≠ 0xFF) :
    markerVerdict s = s.abort .missingSyncByte := by
  rw [markerVerdict_of_two h, if_pos h₀]

theorem markerVerdict_of_two_cogMismatch (h : s.markerAckLen = .two) (h₀ : s.seq.ackb[0] = 0xFF)
    (h₁ : s.seq.ackb[1] ≠ s.seq.cog.setWidth 8) : markerVerdict s = s.abort .cogMismatch := by
  rw [markerVerdict_of_two h, if_neg (not_not.2 h₀), if_pos h₁]

theorem markerVerdict_of_two_accepted (h : s.markerAckLen = .two) (h₀ : s.seq.ackb[0] = 0xFF)
    (h₁ : s.seq.ackb[1] = s.seq.cog.setWidth 8) : markerVerdict s = { s with seq := { s.seq with ph := .next } } := by
  rw [markerVerdict_of_two h, if_neg (not_not.2 h₀), if_neg (not_not.2 h₁)]

theorem markerVerdict_of_one_cogMismatch (h : s.markerAckLen = .one) (h₀ : s.seq.ackb[0] ≠ s.seq.cog.setWidth 8) :
    markerVerdict s = s.abort .cogMismatch := by
  rw [markerVerdict_of_one h, if_pos h₀]

theorem markerVerdict_of_one_accepted (h : s.markerAckLen = .one) (h₀ : s.seq.ackb[0] = s.seq.cog.setWidth 8) :
    markerVerdict s = { s with seq := { s.seq with ph := .next } } := by
  rw [markerVerdict_of_one h, if_neg (not_not.2 h₀)]

end

/-- Settles O41: the byte is not the last, so it is stored and counted and no verdict is given. -/
theorem ackPhaseStoresTheByte : Obligations.AckPhaseStoresTheByte := by
  intro s y rest k hrun hph hrx hk hmore
  have hlt : s.seq.ackn.toNat < 3 := hk ▸ k.isLt
  rw [← ackNeed_eq, ← hk] at hmore
  rw [sequencerStep_ack hrun hph, stepAck_of_more hrx hlt hmore.ne, ackStored_of_index hk]

/-- Settles O43: by `MARKER_ACK_LEN`, then the tests in their order on the stored bytes. -/
theorem markerPageVerdict : Obligations.MarkerPageVerdict := by
  intro s y rest hrun hph hmarker hrx
  have hstep : ∀ k : Fin 3, s.seq.ackn.toNat = k.val → k.val + 1 = markerAckCount s → sequencerStep s = .next (markerVerdict
      { s with rx := rest, seq := { s.seq with ackb := s.seq.ackb.set k y, ackn := BitVec.ofNat 2 (k.val + 1) } }) := by
    intro k hk hlast
    have hlt : s.seq.ackn.toNat < 3 := hk ▸ k.isLt
    have hneed : s.seq.ackn.toNat + 1 = ackNeed s := by rw [hk, ackNeed_eq, hmarker, hlast]; rfl
    rw [sequencerStep_ack hrun hph, stepAck_of_marker_last hrx hlt hneed hmarker, ackStored_of_index hk]
  refine ⟨fun htwo hackn => ?two, fun hone hackn => ?one⟩
  case two =>
    have hlast := hstep 1 (by rw [hackn]; rfl) (by simp [markerAckCount, htwo])
    have hfirst : (s.seq.ackb.set 1 y)[0] = s.seq.ackb[0] := by simp
    have hsecond : (s.seq.ackb.set 1 y)[1] = y := by simp
    rintro q rfl
    refine ⟨fun h₀ => hlast.trans (congrArg Outcome.next ?missing), fun h₀ h₁ => hlast.trans (congrArg Outcome.next ?mismatch),
      fun h₀ h₁ => hlast.trans (congrArg Outcome.next ?accepted)⟩
    case missing => exact markerVerdict_of_missingSync htwo (hfirst ▸ h₀)
    case mismatch => exact markerVerdict_of_two_cogMismatch htwo (hfirst.trans h₀) (hsecond.symm ▸ h₁)
    case accepted => exact markerVerdict_of_two_accepted htwo (hfirst.trans h₀) (hsecond.trans h₁)
  case one =>
    have hlast := hstep 0 (by rw [hackn]; rfl) (by simp [markerAckCount, hone])
    have hfirst : (s.seq.ackb.set 0 y)[0] = y := by simp
    rintro q rfl
    refine ⟨fun h₀ => hlast.trans (congrArg Outcome.next ?mismatch), fun h₀ => hlast.trans (congrArg Outcome.next ?accepted)⟩
    case mismatch => exact markerVerdict_of_one_cogMismatch hone (hfirst.symm ▸ h₀)
    case accepted => exact markerVerdict_of_one_accepted hone (hfirst.trans h₀)

/-! ### The end of a session -/

section
variable {s t : State}

/-- What phase ACK answers outside `ST = RUN` is an abort, given with the byte taken (R178, R210). -/
theorem stepAck_of_end (hrun : s.seq.st = .run) (h : stepAck s = .next t) (hend : t.seq.st ≠ .run) :
    ∃ y rest, s.rx = y :: rest ∧ ∃ (hk : s.seq.ackn.toNat < 3) (r : Reason), r ≠ .none ∧ t = (ackStored y rest s hk).abort r := by
  rcases stepAck_next h with ⟨-, rfl⟩ | ⟨y, rest, hrx, hk, hstored⟩
  · exact absurd hrun hend
  · refine ⟨y, rest, hrx, hk, ?_⟩
    rcases hstored with ⟨-, rfl⟩ | ⟨-, -, rfl⟩ | ⟨-, -, hdata⟩
    · exact absurd hrun hend
    · rcases markerVerdict_cases (ackStored y rest s hk) with ⟨r, hr, habort⟩ | hnext
      · exact ⟨r, hr, habort⟩
      · rw [hnext] at hend
        exact absurd hrun hend
    · rcases dataVerdict_next hdata with ⟨-, rfl⟩ | ⟨-, -, rfl⟩ | ⟨-, -, -, rfl⟩ | ⟨-, -, -, -, e, -, rfl⟩
      · exact ⟨_, by decide, rfl⟩
      · exact ⟨_, by decide, rfl⟩
      · exact ⟨_, by decide, rfl⟩
      · exact absurd hrun hend

/-- A session that the sequencer ends: SUCCESS after the last core, or an abort (R181, R182, R210). -/
theorem sequencerStep_of_end (hrun : s.seq.st = .run) (h : sequencerStep s = .next t) (hend : t.seq.st ≠ .run) :
    (s.seq.ph = .next ∧ s.plan.nextValid (s.seq.cog.toNat + 1) = none ∧ ∃ e, s.plan.entry? s.seq.cog = some e ∧
        t = { s with seq := { imageDone e s.seq with st := .success, ph := .none } }) ∨
      (s.seq.ph = .ack ∧ ∃ y rest, s.rx = y :: rest ∧
        ∃ (hk : s.seq.ackn.toNat < 3) (r : Reason), r ≠ .none ∧ t = (ackStored y rest s hk).abort r) := by
  rw [sequencerStep_of_run hrun] at h
  cases hph : s.seq.ph <;> simp only [hph] at h
  case none => cases h; exact absurd hrun hend
  case ssync => rw [stepSsync_next h] at hend; exact absurd hrun hend
  case csync => obtain ⟨c, e, -, -, rfl⟩ := stepCsync_next h; exact absurd hrun hend
  case hdr =>
    obtain ⟨b, -, rfl⟩ := stepHdr_next h
    dsimp only at hend
    split at hend <;> exact absurd hrun hend
  case pay => obtain ⟨e, -, -, ⟨-, rfl⟩ | ⟨-, -, rfl⟩⟩ := stepPay_next h <;> exact absurd hrun hend
  case ack => exact .inr ⟨rfl, stepAck_of_end hrun h hend⟩
  case next =>
    obtain ⟨e, he, ⟨-, rfl⟩ | ⟨hnone, rfl⟩⟩ := stepNext_next h
    · exact absurd hrun hend
    · exact .inl ⟨rfl, hnone, e, he, rfl⟩

end

/-- Settles O52: among the events only a reset and the sequencer's turn touch `ST`. -/
theorem onlyTheseStepsEndASession : Obligations.OnlyTheseStepsEndASession := by
  intro s t hrun h hend
  have hseq := nextEvent_seq s
  have hplan := (nextEvent_keepsPlan s).plan
  obtain ⟨htx, hrx, -⟩ := nextEvent_sameStreams s
  have hrun' : (nextEvent s).2.seq.st = .run := by rw [hseq, hrun]
  rcases takeEvent_cases h with ⟨hreset, rfl⟩ | ⟨i, hi, hexec⟩ | rfl | ⟨hevent, hstep⟩ | ⟨b, rfl⟩
  · exact .inl ⟨rfl, hreset⟩
  · rw [exec_in_session (s := (nextEvent s).2.countCommand) hrun' hi hexec] at hend
    exact absurd hrun' hend
  · exact absurd hrun' hend
  · rcases sequencerStep_of_end hrun' hstep hend with ⟨hph, hnone, e, -, rfl⟩ | ⟨hph, y, rest, hcons, hk, r, hr, rfl⟩
    · rw [hseq] at hph hnone
      rw [hplan] at hnone
      exact .inr (.inl ⟨rfl, hevent, hph, hnone, htx⟩)
    · rw [hseq] at hph
      rw [hrx] at hcons
      refine .inr (.inr ⟨rfl, hevent, hph, hr, y, ⟨_, hk⟩, hcons, congrArg (·.ackn.toNat) hseq.symm, ?_⟩)
      rw [ackStored_of_index (k := ⟨_, hk⟩) rfl, ← hseq]
      rfl
  · exact absurd hrun' hend

/-! ### FLAGS (R166) -/

/-- `OFF` is a register of 24 bits, and the sum fits where the step checks it (R179). -/
theorem toNat_off_add_chunk {q : SeqRegs} (h : q.off.toNat + q.chunk.toNat < 2 ^ 24) :
    (q.off + q.chunk.setWidth 24).toNat = q.off.toNat + q.chunk.toNat := by
  rw [BitVec.toNat_add, BitVec.toNat_setWidth_of_le (by decide), Nat.mod_eq_of_lt h]

/-- A payload byte that is not the page's last, where `IDX` has room to advance (R176). -/
theorem stepPay_of_room {s : State} {e : PlanEntry} (he : s.plan.entry? s.seq.cog = some e)
    (hexists : e.ptr.toNat + s.seq.off.toNat + s.seq.idx.toNat < s.imem.size.val) (hmore : s.seq.idx.toNat + 1 ≠ s.seq.chunk.toNat)
    (hroom : s.seq.idx.toNat + 1 < 1024) : stepPay s = .next { s with
      tx := s.tx ++ stuff1 (s.imem.byte (e.ptr.toNat + s.seq.off.toNat + s.seq.idx.toNat))
      lrc := s.lrc ^^^ s.imem.byte (e.ptr.toNat + s.seq.off.toNat + s.seq.idx.toNat)
      seq := { s.seq with idx := s.seq.idx + 1 } } := by
  simp only [stepPay, he, Memory.byteAt?_eq_some.2 ⟨hexists, rfl⟩, if_neg hmore, if_pos hroom]
  rfl

/-- `FLAGS <- f`. -/
def State.setFlags (f : BitVec 2) (s : State) : State := { s with seq := { s.seq with flags := f } }

section
variable {s t : State} (f : BitVec 2)

theorem stepHdr_setFlags (h : stepHdr s = .next t) : stepHdr (s.setFlags f) = .next (t.setFlags f) := by
  obtain ⟨b, hb, rfl⟩ := stepHdr_next h
  have hstep := stepHdr_of_byte (s := s.setFlags f) hb
  by_cases hlast : s.seq.idx = 7
  · rw [hstep, if_pos (show (s.setFlags f).seq.idx = 7 from hlast), if_pos hlast]
    rfl
  · rw [hstep, if_neg (show ¬(s.setFlags f).seq.idx = 7 from hlast), if_neg hlast]
    rfl

theorem stepPay_setFlags (h : stepPay s = .next t) : stepPay (s.setFlags f) = .next (t.setFlags f) := by
  obtain ⟨e, he, hexists, ⟨hlast, rfl⟩ | ⟨hmore, hroom, rfl⟩⟩ := stepPay_next h
  · exact stepPay_of_last (s := s.setFlags f) he hexists hlast
  · exact stepPay_of_room (s := s.setFlags f) he hexists hmore hroom

theorem dataVerdict_setFlags (h : dataVerdict s = .next t) : dataVerdict (s.setFlags f) = .next (t.setFlags f) := by
  rcases dataVerdict_next h with ⟨h₁, rfl⟩ | ⟨h₁, h₂, rfl⟩ | ⟨h₁, h₂, h₃, rfl⟩ | ⟨h₁, h₂, h₃, hroom, e, he, rfl⟩
  · exact dataVerdict_of_missingSync (s := s.setFlags f) h₁
  · exact dataVerdict_of_cogMismatch (s := s.setFlags f) h₁ h₂
  · exact dataVerdict_of_checksumMismatch (s := s.setFlags f) h₁ h₂ h₃
  · exact dataVerdict_of_accepted (s := s.setFlags f) h₁ h₂ h₃ he (toNat_off_add_chunk hroom)

theorem markerVerdict_setFlags (s : State) : markerVerdict (s.setFlags f) = (markerVerdict s).setFlags f := by
  cases h : s.markerAckLen with
  | one =>
    rw [markerVerdict_of_one h, apply_ite (State.setFlags f)]
    exact markerVerdict_of_one (s := s.setFlags f) h
  | two =>
    rw [markerVerdict_of_two h, apply_ite (State.setFlags f), apply_ite (State.setFlags f)]
    exact markerVerdict_of_two (s := s.setFlags f) h

theorem stepAck_setFlags (h : stepAck s = .next t) : stepAck (s.setFlags f) = .next (t.setFlags f) := by
  rcases stepAck_next h with ⟨hnil, rfl⟩ | ⟨y, rest, hrx, hk, ⟨hmore, rfl⟩ | ⟨hlast, hmarker, rfl⟩ | ⟨hlast, hmarker, hdata⟩⟩
  · exact stepAck_of_nil (s := t.setFlags f) hnil
  · exact stepAck_of_more (s := s.setFlags f) hrx hk hmore
  · exact (stepAck_of_marker_last (s := s.setFlags f) hrx hk hlast hmarker).trans 
      (congrArg Outcome.next (markerVerdict_setFlags f (ackStored y rest s hk)))
  · exact (stepAck_of_data_last (s := s.setFlags f) hrx hk hlast hmarker).trans (dataVerdict_setFlags f hdata)

theorem stepNext_setFlags (h : stepNext s = .next t) : stepNext (s.setFlags f) = .next (t.setFlags f) := by
  obtain ⟨e, he, ⟨hsome, rfl⟩ | ⟨hnone, rfl⟩⟩ := stepNext_next h
  · obtain ⟨c, hc⟩ := Option.isSome_iff_exists.1 hsome
    exact stepNext_of_further (s := s.setFlags f) he hc
  · exact stepNext_of_none (s := s.setFlags f) he hnone

end

/-- Settles O53: phase by phase, each step reads registers other than FLAGS and leaves FLAGS. -/
theorem sessionFlagsHaveNoEffect : Obligations.SessionFlagsHaveNoEffect := by
  intro s t f h
  change sequencerStep (s.setFlags f) = .next (t.setFlags f)
  cases henabled : sequencerEnabled s with
  | false =>
    cases (sequencerStep_of_disabled henabled).symm.trans h
    exact sequencerStep_of_disabled (s := s.setFlags f) henabled
  | true =>
    obtain ⟨hrun, hph | hph | hph | hph | hph | ⟨hph, -⟩⟩ := sequencerEnabled_iff.1 henabled
    · cases (sequencerStep_ssync hrun hph).symm.trans h
      exact sequencerStep_ssync (s := s.setFlags f) hrun hph
    · obtain ⟨c, e, hc, he, rfl⟩ := stepCsync_next ((sequencerStep_csync hrun hph).symm.trans h)
      exact (sequencerStep_csync (s := s.setFlags f) hrun hph).trans (stepCsync_of_nextValid (s := s.setFlags f) hc he)
    · exact (sequencerStep_hdr (s := s.setFlags f) hrun hph).trans (stepHdr_setFlags f ((sequencerStep_hdr hrun hph).symm.trans h))
    · exact (sequencerStep_pay (s := s.setFlags f) hrun hph).trans (stepPay_setFlags f ((sequencerStep_pay hrun hph).symm.trans h))
    · exact (sequencerStep_next (s := s.setFlags f) hrun hph).trans (stepNext_setFlags f ((sequencerStep_next hrun hph).symm.trans h))
    · exact (sequencerStep_ack (s := s.setFlags f) hrun hph).trans (stepAck_setFlags f ((sequencerStep_ack hrun hph).symm.trans h))

end Sys2Proof.Machine
end

section
/-! The invariant of a session taken apart by phase (45_sequencer.md R184), and everything a turn of the sequencer can do in a state that
meets it. -/

namespace Sys2Proof.Machine

open Host (Outcome)

/-! ### The phases of a page -/

/-- The phases in which a page is in progress (R172 to R181). -/
def Phase.inPage : Phase → Bool
  | .hdr => true
  | .pay => true
  | .ack => true
  | .next => true
  | _ => false

/-- The page in progress is one of the image of `COG`, whose entry is e (R184). -/
structure PageOf (s : State) (e : PlanEntry) : Prop where
  entry : s.plan.entry? s.seq.cog = some e
  valid : e.valid = true
  base : s.seq.base.toNat = s.plan.lenBelow s.seq.cog
  page : s.pageLegal e

section
variable {s : State} {e : PlanEntry}

theorem phaseLegal_ssync (h : s.seq.ph = .ssync) : s.phaseLegal ↔ s.seq.scan = 1 ∧ s.seq.base = 0 := by
  simp only [State.phaseLegal, h]

theorem phaseLegal_csync (h : s.seq.ph = .csync) :
    s.phaseLegal ↔ (s.plan.nextValid s.seq.scan.toNat).isSome = true ∧ s.seq.base.toNat = s.plan.lenBelow s.seq.scan := by
  simp only [State.phaseLegal, h]

theorem phaseLegal_inPage (h : s.seq.ph.inPage = true) : s.phaseLegal ↔ ∃ e, PageOf s e ∧ s.progressLegal e := by
  have hpage : s.phaseLegal ↔ ∃ e, s.plan.entry? s.seq.cog = some e ∧ e.valid = true ∧ s.seq.base.toNat = s.plan.lenBelow s.seq.cog ∧
      s.pageLegal e ∧ s.progressLegal e := by
    unfold State.phaseLegal
    cases hph : s.seq.ph
    case none | ssync | csync => simp [hph, Phase.inPage] at h
    all_goals exact Iff.rfl
  rw [hpage]
  refine exists_congr fun e => ⟨?_, ?_⟩
  · rintro ⟨hentry, hvalid, hbase, hlegal, hprogress⟩
    exact ⟨⟨hentry, hvalid, hbase, hlegal⟩, hprogress⟩
  · rintro ⟨⟨hentry, hvalid, hbase, hlegal⟩, hprogress⟩
    exact ⟨hentry, hvalid, hbase, hlegal, hprogress⟩

theorem progressLegal_hdr (h : s.seq.ph = .hdr) : s.progressLegal e ↔ s.seq.idx.toNat ≤ 7 ∧ s.lrc = 0 := by
  simp only [State.progressLegal, h]

theorem progressLegal_pay (h : s.seq.ph = .pay) : s.progressLegal e ↔ s.seq.marker = false ∧ s.seq.ackn = 0 ∧
    s.seq.idx.toNat < s.seq.chunk.toNat ∧ s.lrc = xorBytes (s.imem.bytes (e.ptr.toNat + s.seq.off.toNat) s.seq.idx.toNat) := by
  simp only [State.progressLegal, h]

theorem progressLegal_ack (h : s.seq.ph = .ack) : s.progressLegal e ↔
    s.seq.ackn.toNat < ackNeed s ∧ s.lrc = xorBytes (s.imem.bytes (e.ptr.toNat + s.seq.off.toNat) s.seq.chunk.toNat) := by
  simp only [State.progressLegal, h]

theorem progressLegal_next (h : s.seq.ph = .next) : s.progressLegal e ↔ s.seq.marker = true ∧ s.lrc = 0 := by
  simp only [State.progressLegal, h]

theorem pageLegal_of_marker (h : s.seq.marker = true) : s.pageLegal e ↔ s.seq.off = e.len ∧ s.seq.chunk = 0 := by
  simp only [State.pageLegal, h, if_true]

theorem pageLegal_of_data (h : s.seq.marker = false) : s.pageLegal e ↔ s.seq.off.toNat < e.len.toNat ∧ s.seq.off.toNat % 512 = 0 ∧
    s.seq.chunk.toNat = min 512 (e.len.toNat - s.seq.off.toNat) := by
  simp only [State.pageLegal, h, Bool.false_eq_true, if_false, pageSize]

end

theorem Plan.isValid_of_entry_valid {p : Plan} {c : CoreId} {e : PlanEntry} (he : p.entry? c = some e) (hvalid : e.valid = true) :
    p.isValid c = true :=
  Plan.isValid_iff.2 ⟨e, he, hvalid⟩

theorem Plan.coreInRange_of_entry {p : Plan} {c : CoreId} {e : PlanEntry} (he : p.entry? c = some e) : coreInRange c := by
  by_contra hcore
  cases (Plan.entry?_eq_none.2 hcore).symm.trans he

namespace PageOf

variable {s : State} {e : PlanEntry} (h : PageOf s e)
include h

theorem isValid : s.plan.isValid s.seq.cog = true := Plan.isValid_of_entry_valid h.entry h.valid

theorem coreInRange : coreInRange s.seq.cog := Plan.coreInRange_of_entry h.entry

/-- The marker page stands at the image's end and is empty. -/
theorem marker (hmarker : s.seq.marker = true) : s.seq.off = e.len ∧ s.seq.chunk = 0 := (pageLegal_of_marker hmarker).1 h.page

theorem data (hdata : s.seq.marker = false) : s.seq.off.toNat < e.len.toNat ∧ s.seq.off.toNat % 512 = 0 ∧
    s.seq.chunk.toNat = min 512 (e.len.toNat - s.seq.off.toNat) :=
  (pageLegal_of_data hdata).1 h.page

/-- No page reaches beyond the image. -/
theorem off_add_chunk_le : s.seq.off.toNat + s.seq.chunk.toNat ≤ e.len.toNat := by
  cases hmarker : s.seq.marker with
  | true =>
    obtain ⟨hoff, hchunk⟩ := h.marker hmarker
    rw [hoff, hchunk]
    exact le_rfl
  | false =>
    obtain ⟨hoff, -, hchunk⟩ := h.data hmarker
    omega

/-- `OFF + CHUNK` fits its register. -/
theorem toNat_off_add_chunk : (s.seq.off + s.seq.chunk.setWidth 24).toNat = s.seq.off.toNat + s.seq.chunk.toNat :=
  Machine.toNat_off_add_chunk (h.off_add_chunk_le.trans_lt e.len.isLt)

/-- The page after a data page starts at a multiple of 512 or at the image's end. -/
theorem next_off_aligned (hdata : s.seq.marker = false) (hmore : s.seq.off.toNat + s.seq.chunk.toNat < e.len.toNat) :
    s.seq.chunk.toNat = 512 := by
  obtain ⟨-, -, hchunk⟩ := h.data hdata
  omega

end PageOf

/-! ### The registers of an acknowledgment -/

/-- The acknowledgment bytes received so far (R25). -/
def ackReceived (s : State) : List Byte := s.seq.ackb.toList.take s.seq.ackn.toNat

/-- The acknowledgment that the page in progress waits for (R179, R180). -/
def ackExpected (s : State) : List Byte :=
  if s.seq.marker then
    match s.markerAckLen with
    | .one => [s.seq.cog.setWidth 8]
    | .two => [0xFF, s.seq.cog.setWidth 8]
  else [0xFF, s.seq.cog.setWidth 8, s.lrc]

theorem length_ackExpected (s : State) : (ackExpected s).length = ackNeed s := by
  unfold ackExpected ackNeed
  cases s.seq.marker <;> cases s.markerAckLen <;> rfl

theorem ackNeed_le (s : State) : ackNeed s ≤ 3 := by
  unfold ackNeed
  cases s.seq.marker <;> cases s.markerAckLen <;> decide

section
variable {s : State} {y : Byte} {rest : List Byte} (hk : s.seq.ackn.toNat < 3)

theorem toNat_ackStored_ackn : (ackStored y rest s hk).seq.ackn.toNat = s.seq.ackn.toNat + 1 := by
  have hone : (1 : BitVec 2).toNat = 1 := rfl
  rw [ackStored, BitVec.toNat_add, hone]
  omega

theorem ackReceived_ackStored : ackReceived (ackStored y rest s hk) = ackReceived s ++ [y] := by
  have hlen : s.seq.ackn.toNat < (s.seq.ackb.toList.set s.seq.ackn.toNat y).length := by simpa using hk
  rw [ackReceived, toNat_ackStored_ackn, ackStored, Vector.toList_set, List.take_succ_eq_append_getElem hlen,
    List.getElem_set_self, List.take_set_of_le le_rfl]
  rfl

end

theorem toList_ackb (v : Vector Byte 3) : v.toList = [v[0], v[1], v[2]] := by
  refine List.ext_getElem (by simp) fun i hi _ => ?_
  rw [Vector.length_toList] at hi
  interval_cases i <;> simp

theorem ackReceived_of_one {s : State} (h : s.seq.ackn.toNat = 1) : ackReceived s = [s.seq.ackb[0]] := by
  rw [ackReceived, h, toList_ackb]
  rfl

theorem ackReceived_of_two {s : State} (h : s.seq.ackn.toNat = 2) : ackReceived s = [s.seq.ackb[0], s.seq.ackb[1]] := by
  rw [ackReceived, h, toList_ackb]
  rfl

theorem ackReceived_of_three {s : State} (h : s.seq.ackn.toNat = 3) :
    ackReceived s = [s.seq.ackb[0], s.seq.ackb[1], s.seq.ackb[2]] := by
  rw [ackReceived, h, toList_ackb]
  rfl

section
variable {s : State}

theorem ackExpected_of_data (h : s.seq.marker = false) : ackExpected s = [0xFF, s.seq.cog.setWidth 8, s.lrc] := by
  simp only [ackExpected, h, Bool.false_eq_true, if_false]

theorem ackExpected_of_one (h : s.seq.marker = true) (hlen : s.markerAckLen = .one) : ackExpected s = [s.seq.cog.setWidth 8] := by
  simp only [ackExpected, h, hlen, if_true]

theorem ackExpected_of_two (h : s.seq.marker = true) (hlen : s.markerAckLen = .two) : ackExpected s = [0xFF, s.seq.cog.setWidth 8] := by
  simp only [ackExpected, h, hlen, if_true]

/-- The verdict on a data page: the three bytes are the expected ones, or the session aborts (R179). -/
theorem dataVerdict_cases {e : PlanEntry} (hpage : PageOf s e) (hdata : s.seq.marker = false) (hackn : s.seq.ackn.toNat = 3) :
    (ackReceived s ≠ ackExpected s ∧ ∃ r, r ≠ Reason.none ∧ dataVerdict s = .next (s.abort r)) ∨
      (ackReceived s = ackExpected s ∧
        dataVerdict s = .next (pageStarted (s.seq.off + s.seq.chunk.setWidth 24) e (offsetAdvanced s))) := by
  rw [ackReceived_of_three hackn, ackExpected_of_data hdata]
  by_cases h₀ : s.seq.ackb[0] = 0xFF
  case neg => exact .inl ⟨fun heq => h₀ (List.cons.inj heq).1, _, by decide, dataVerdict_of_missingSync h₀⟩
  by_cases h₁ : s.seq.ackb[1] = s.seq.cog.setWidth 8
  case neg => exact .inl ⟨by simp [h₁], _, by decide, dataVerdict_of_cogMismatch h₀ h₁⟩
  by_cases h₂ : s.seq.ackb[2] = s.lrc
  case neg => exact .inl ⟨by simp [h₂], _, by decide, dataVerdict_of_checksumMismatch h₀ h₁ h₂⟩
  exact .inr ⟨by rw [h₀, h₁, h₂], dataVerdict_of_accepted h₀ h₁ h₂ hpage.entry hpage.toNat_off_add_chunk⟩

theorem markerAckLen_eq (l : MarkerAckLen) : l = .one ∨ l = .two := by
  cases l <;> simp

/-- The verdict on the marker page, for both values of `MARKER_ACK_LEN` (R180). -/
theorem markerVerdict_cases_of_complete (hmarker : s.seq.marker = true) (hackn : s.seq.ackn.toNat = ackNeed s) :
    (ackReceived s ≠ ackExpected s ∧ ∃ r, r ≠ Reason.none ∧ markerVerdict s = s.abort r) ∨
      (ackReceived s = ackExpected s ∧ markerVerdict s = { s with seq := { s.seq with ph := .next } }) := by
  rw [ackNeed, hmarker, if_pos rfl] at hackn
  rcases markerAckLen_eq s.markerAckLen with hlen | hlen
  case inl =>
    rw [hlen] at hackn
    rw [ackReceived_of_one hackn, ackExpected_of_one hmarker hlen]
    by_cases h₀ : s.seq.ackb[0] = s.seq.cog.setWidth 8
    case neg => exact .inl ⟨by simp [h₀], _, by decide, markerVerdict_of_one_cogMismatch hlen h₀⟩
    exact .inr ⟨by rw [h₀], markerVerdict_of_one_accepted hlen h₀⟩
  case inr =>
    rw [hlen] at hackn
    rw [ackReceived_of_two hackn, ackExpected_of_two hmarker hlen]
    by_cases h₀ : s.seq.ackb[0] = 0xFF
    case neg => exact .inl ⟨fun heq => h₀ (List.cons.inj heq).1, _, by decide, markerVerdict_of_missingSync hlen h₀⟩
    by_cases h₁ : s.seq.ackb[1] = s.seq.cog.setWidth 8
    case neg => exact .inl ⟨by simp [h₁], _, by decide, markerVerdict_of_two_cogMismatch hlen h₀ h₁⟩
    exact .inr ⟨by rw [h₀, h₁], markerVerdict_of_two_accepted hlen h₀ h₁⟩

end

/-! ### Everything a turn of the sequencer can do -/

/-- The state after a header or payload byte b has gone out and the session registers have become q. -/
def byteSent (b : Byte) (q : SeqRegs) (s : State) : State := { s.stuffPut b with seq := q }

/-- The state after the payload byte at `IDX` of a page of entry e has gone out: it is XORed into `LRC` (R176). -/
def payloadByteSent (e : PlanEntry) (q : SeqRegs) (s : State) : State :=
  { byteSent (s.imem.byte (e.ptr.toNat + s.seq.off.toNat + s.seq.idx.toNat)) q s with
    lrc := s.lrc ^^^ s.imem.byte (e.ptr.toNat + s.seq.off.toNat + s.seq.idx.toNat) }

/-- The steps of the sequencer in a session that meets the invariant, with what the invariant says of the phase (R170 to R181, R184). -/
inductive LegalStep (s : State) : State → Prop
  /-- SSYNC: the session's sync signal (R170). -/
  | sessionSync (hph : s.seq.ph = .ssync) (hscan : s.seq.scan = 1) (hbase : s.seq.base = 0) :
    LegalStep s { s.txPut (sync (s.seq.n.setWidth 8)) with seq := { s.seq with ph := .csync } }
  /-- CSYNC: the next core's sync signal and its first page (R171). -/
  | coreSync {c : CoreId} {e : PlanEntry} (hph : s.seq.ph = .csync) (hnext : s.plan.nextValid s.seq.scan.toNat = some c)
      (he : s.plan.entry? c = some e) (hbase : s.seq.base.toNat = s.plan.lenBelow s.seq.scan) :
    LegalStep s (pageStarted 0 e (coreSynced c s))
  /-- HDR before the eighth byte (R174). -/
  | header {e : PlanEntry} {b : Byte} (hpage : PageOf s e) (hph : s.seq.ph = .hdr) (hlrc : s.lrc = 0) (hidx : s.seq.idx.toNat < 7)
      (hb : (headerBytes s.seq)[s.seq.idx.toNat]? = some b) :
    LegalStep s (byteSent b { s.seq with idx := s.seq.idx + 1 } s)
  /-- HDR with the eighth byte (R174). -/
  | headerDone {e : PlanEntry} {b : Byte} (hpage : PageOf s e) (hph : s.seq.ph = .hdr) (hlrc : s.lrc = 0) (hidx : s.seq.idx.toNat = 7)
      (hb : (headerBytes s.seq)[s.seq.idx.toNat]? = some b) :
    LegalStep s (byteSent b { s.seq with idx := 0, ackn := 0, ph := if s.seq.marker then .ack else .pay } s)
  /-- PAY before the page's last byte (R176). -/
  | payload {e : PlanEntry} (hpage : PageOf s e) (hph : s.seq.ph = .pay) (hdata : s.seq.marker = false) (hackn : s.seq.ackn = 0)
      (hlrc : s.lrc = xorBytes (s.imem.bytes (e.ptr.toNat + s.seq.off.toNat) s.seq.idx.toNat))
      (hmore : s.seq.idx.toNat + 1 < s.seq.chunk.toNat) :
    LegalStep s (payloadByteSent e { s.seq with idx := s.seq.idx + 1 } s)
  /-- PAY with the page's last byte (R176). -/
  | payloadDone {e : PlanEntry} (hpage : PageOf s e) (hph : s.seq.ph = .pay) (hdata : s.seq.marker = false) (hackn : s.seq.ackn = 0)
      (hlrc : s.lrc = xorBytes (s.imem.bytes (e.ptr.toNat + s.seq.off.toNat) s.seq.idx.toNat))
      (hlast : s.seq.idx.toNat + 1 = s.seq.chunk.toNat) :
    LegalStep s (payloadByteSent e { s.seq with idx := 0, ph := .ack } s)
  /-- ACK with RX empty: a hold (R167). -/
  | ackHold (hph : s.seq.ph = .ack) (hrx : s.rx = []) : LegalStep s s
  /-- ACK before the last byte of the acknowledgment (R178). -/
  | ackByte {e : PlanEntry} {y : Byte} {rest : List Byte} {hk : s.seq.ackn.toNat < 3} (hpage : PageOf s e) (hph : s.seq.ph = .ack)
      (hlrc : s.lrc = xorBytes (s.imem.bytes (e.ptr.toNat + s.seq.off.toNat) s.seq.chunk.toNat)) (hrx : s.rx = y :: rest)
      (hmore : s.seq.ackn.toNat + 1 < ackNeed s) :
    LegalStep s (ackStored y rest s hk)
  /-- ACK with the last byte, and the bytes are not the expected ones (R179, R180, R210). -/
  | ackAborted {y : Byte} {rest : List Byte} {hk : s.seq.ackn.toNat < 3} {r : Reason} (hph : s.seq.ph = .ack) (hrx : s.rx = y :: rest)
      (hlast : s.seq.ackn.toNat + 1 = ackNeed s) (hwrong : ackReceived (ackStored y rest s hk) ≠ ackExpected s) (hr : r ≠ .none) :
    LegalStep s ((ackStored y rest s hk).abort r)
  /-- ACK with the last byte of a data page's acknowledgment, as expected (R179). -/
  | pageDone {e : PlanEntry} {y : Byte} {rest : List Byte} {hk : s.seq.ackn.toNat < 3} (hpage : PageOf s e) (hph : s.seq.ph = .ack)
      (hdata : s.seq.marker = false) (hrx : s.rx = y :: rest) (hlast : s.seq.ackn.toNat + 1 = 3) :
    LegalStep s (pageStarted (s.seq.off + s.seq.chunk.setWidth 24) e (offsetAdvanced (ackStored y rest s hk)))
  /-- ACK with the last byte of the marker page's acknowledgment, as expected (R180). -/
  | markerDone {e : PlanEntry} {y : Byte} {rest : List Byte} {hk : s.seq.ackn.toNat < 3} (hpage : PageOf s e) (hph : s.seq.ph = .ack)
      (hmarker : s.seq.marker = true) (hlrc : s.lrc = 0) (hrx : s.rx = y :: rest) (hlast : s.seq.ackn.toNat + 1 = ackNeed s) :
    LegalStep s { ackStored y rest s hk with seq := { (ackStored y rest s hk).seq with ph := .next } }
  /-- NEXT with a valid core above (R181). -/
  | imageDone {e : PlanEntry} {c : CoreId} (hpage : PageOf s e) (hph : s.seq.ph = .next) (hmarker : s.seq.marker = true)
      (hnext : s.plan.nextValid (s.seq.cog.toNat + 1) = some c) :
    LegalStep s { s with seq := { imageDone e s.seq with ph := .csync } }
  /-- NEXT of the last core (R181, R182). -/
  | sessionDone {e : PlanEntry} (hpage : PageOf s e) (hph : s.seq.ph = .next) (hmarker : s.seq.marker = true)
      (hnone : s.plan.nextValid (s.seq.cog.toNat + 1) = none) :
    LegalStep s { s with seq := { imageDone e s.seq with st := .success, ph := .none } }

theorem imagesInMemory_iff {s : State} :
    s.imagesInMemory ↔ ∀ c e, s.plan.entry? c = some e → e.valid = true → e.fits s.imem = true :=
  Plan.forall_entry (P := fun e => e.valid = true → e.fits s.imem = true)

/-- The sequencer's turn from s is one of the legal steps. -/
def TakesLegalStep (s : State) : Prop := ∃ t, sequencerStep s = .next t ∧ LegalStep s t

section
variable {s : State} {e : PlanEntry} (hrun : s.seq.st = .run)
include hrun

theorem takesLegalStep_ssync (hph : s.seq.ph = .ssync) (hphase : s.phaseLegal) : TakesLegalStep s := by
  obtain ⟨hscan, hbase⟩ := (phaseLegal_ssync hph).1 hphase
  exact ⟨_, sequencerStep_ssync hrun hph, .sessionSync hph hscan hbase⟩

theorem takesLegalStep_csync (hph : s.seq.ph = .csync) (hphase : s.phaseLegal) : TakesLegalStep s := by
  obtain ⟨hsome, hbase⟩ := (phaseLegal_csync hph).1 hphase
  obtain ⟨c, hc⟩ := Option.isSome_iff_exists.1 hsome
  obtain ⟨-, hvalid, -⟩ := Plan.nextValid_eq_some hc
  obtain ⟨e, he, -⟩ := Plan.isValid_iff.1 hvalid
  exact ⟨_, (sequencerStep_csync hrun hph).trans (stepCsync_of_nextValid hc he), .coreSync hph hc he hbase⟩

variable (hpage : PageOf s e)
include hpage

theorem takesLegalStep_hdr (hph : s.seq.ph = .hdr) (hprogress : s.progressLegal e) : TakesLegalStep s := by
  obtain ⟨hidx, hlrc⟩ := (progressLegal_hdr hph).1 hprogress
  obtain ⟨b, hb⟩ : ∃ b, (headerBytes s.seq)[s.seq.idx.toNat]? = some b := ⟨_, List.getElem?_eq_getElem (Nat.lt_succ_of_le hidx)⟩
  have hstep := (sequencerStep_hdr hrun hph).trans (stepHdr_of_byte hb)
  by_cases hlast : s.seq.idx = 7
  · rw [if_pos hlast] at hstep
    exact ⟨_, hstep, .headerDone hpage hph hlrc (congrArg BitVec.toNat hlast) hb⟩
  · rw [if_neg hlast] at hstep
    exact ⟨_, hstep, .header hpage hph hlrc (by bv_omega) hb⟩

/-- SEQ.START has checked that the image lies inside image memory, so every payload byte exists. -/
theorem takesLegalStep_pay (himages : s.imagesInMemory) (hph : s.seq.ph = .pay) (hprogress : s.progressLegal e) : TakesLegalStep s := by
  obtain ⟨hdata, hackn, hidx, hlrc⟩ := (progressLegal_pay hph).1 hprogress
  have hfits : e.ptr.toNat + e.len.toNat ≤ s.imem.size.val :=
    of_decide_eq_true (imagesInMemory_iff.1 himages _ _ hpage.entry hpage.valid)
  have hexists : e.ptr.toNat + s.seq.off.toNat + s.seq.idx.toNat < s.imem.size.val := by
    have := hpage.off_add_chunk_le
    omega
  have hstep := sequencerStep_pay hrun hph
  by_cases hlast : s.seq.idx.toNat + 1 = s.seq.chunk.toNat
  · exact ⟨_, hstep.trans (stepPay_of_last hpage.entry hexists hlast), .payloadDone hpage hph hdata hackn hlrc hlast⟩
  · have hmore : s.seq.idx.toNat + 1 < s.seq.chunk.toNat := by omega
    exact ⟨_, hstep.trans (stepPay_of_more hpage.entry hexists hmore), .payload hpage hph hdata hackn hlrc hmore⟩

/-- A data page waits for three bytes, the marker page for `MARKER_ACK_LEN`; the last one brings the verdict. -/
theorem takesLegalStep_ack (hph : s.seq.ph = .ack) (hprogress : s.progressLegal e) : TakesLegalStep s := by
  obtain ⟨hackn, hlrc⟩ := (progressLegal_ack hph).1 hprogress
  have hstep := sequencerStep_ack hrun hph
  cases hrx : s.rx with
  | nil => exact ⟨s, hstep.trans (stepAck_of_nil hrx), .ackHold hph hrx⟩
  | cons y rest =>
    have hk : s.seq.ackn.toNat < 3 := hackn.trans_le (ackNeed_le s)
    have hstored := toNat_ackStored_ackn (y := y) (rest := rest) hk
    by_cases hlast : s.seq.ackn.toNat + 1 = ackNeed s
    case neg => exact ⟨_, hstep.trans (stepAck_of_more hrx hk hlast), .ackByte hpage hph hlrc hrx (by omega)⟩
    cases hmarker : s.seq.marker with
    | true =>
      rw [stepAck_of_marker_last hrx hk hlast hmarker] at hstep
      rcases markerVerdict_cases_of_complete (s := ackStored y rest s hk) hmarker (hstored.trans hlast) with
        ⟨hwrong, r, hr, hverdict⟩ | ⟨-, hverdict⟩
      · exact ⟨_, hstep.trans (congrArg Outcome.next hverdict), .ackAborted hph hrx hlast hwrong hr⟩
      · have hzero : s.lrc = 0 := by rw [hlrc, (hpage.marker hmarker).2]; rfl
        exact ⟨_, hstep.trans (congrArg Outcome.next hverdict), .markerDone hpage hph hmarker hzero hrx hlast⟩
    | false =>
      rw [stepAck_of_data_last hrx hk hlast hmarker] at hstep
      have hthree : ackNeed s = 3 := by rw [ackNeed_eq, hmarker]; rfl
      have hpage' : PageOf (ackStored y rest s hk) e := ⟨hpage.entry, hpage.valid, hpage.base, hpage.page⟩
      rcases dataVerdict_cases hpage' hmarker (hstored.trans (hlast.trans hthree)) with ⟨hwrong, r, hr, hverdict⟩ | ⟨-, hverdict⟩
      · exact ⟨_, hstep.trans hverdict, .ackAborted hph hrx hlast hwrong hr⟩
      · exact ⟨_, hstep.trans hverdict, .pageDone hpage hph hmarker hrx (hlast.trans hthree)⟩

theorem takesLegalStep_next (hph : s.seq.ph = .next) (hprogress : s.progressLegal e) : TakesLegalStep s := by
  obtain ⟨hmarker, -⟩ := (progressLegal_next hph).1 hprogress
  have hstep := sequencerStep_next hrun hph
  cases hnext : s.plan.nextValid (s.seq.cog.toNat + 1) with
  | none => exact ⟨_, hstep.trans (stepNext_of_none hpage.entry hnext), .sessionDone hpage hph hmarker hnext⟩
  | some c => exact ⟨_, hstep.trans (stepNext_of_further hpage.entry hnext), .imageDone hpage hph hmarker hnext⟩

end

/-- In a session that meets the invariant the sequencer's turn is one of the legal steps, and none of the model's faults (R184). -/
theorem takesLegalStep {s : State} (hrun : s.seq.st = .run) (hsession : s.sessionInv) : TakesLegalStep s := by
  obtain ⟨-, -, himages, hphase⟩ := hsession
  cases hph : s.seq.ph
  case none => simp [State.phaseLegal, hph] at hphase
  case ssync => exact takesLegalStep_ssync hrun hph hphase
  case csync => exact takesLegalStep_csync hrun hph hphase
  all_goals obtain ⟨e, hpage, hprogress⟩ := (phaseLegal_inPage (by rw [hph]; rfl)).1 hphase
  case hdr => exact takesLegalStep_hdr hrun hpage hph hprogress
  case pay => exact takesLegalStep_pay hrun hpage himages hph hprogress
  case ack => exact takesLegalStep_ack hrun hpage hph hprogress
  case next => exact takesLegalStep_next hrun hpage hph hprogress

/-- What the sequencer answers in such a session is a legal step. -/
theorem legalStep_of_next {s t : State} (hrun : s.seq.st = .run) (hsession : s.sessionInv) (h : sequencerStep s = .next t) :
    LegalStep s t := by
  obtain ⟨u, hu, hstep⟩ := takesLegalStep hrun hsession
  cases hu.symm.trans h
  exact hstep

/-- The list of events and the counter are no part of the invariant. -/
theorem nextEvent_inv {s : State} (h : s.Inv) : (nextEvent s).2.Inv := by
  unfold nextEvent
  split <;> exact h

theorem State.Inv.session {s : State} (h : s.Inv) (hrun : s.seq.st = .run) : s.sessionInv := by
  obtain ⟨-, -, -, -, -, hsession⟩ := h
  exact hsession hrun

/-- In a legal state the sequencer's turn is a legal step or a hold. -/
theorem sequencerStep_isNext {s : State} (h : s.Inv) : ∃ t, sequencerStep s = .next t := by
  by_cases hrun : s.seq.st = .run
  · obtain ⟨t, ht, -⟩ := takesLegalStep hrun (h.session hrun)
    exact ⟨t, ht⟩
  · exact ⟨s, sequencerStep_of_not_run hrun⟩

/-- Settles O47: a command always answers, a delivery too, and the sequencer in a legal state. -/
theorem noStepStopsInALegalState : Obligations.NoStepStopsInALegalState := by
  intro s h
  unfold step
  cases (nextEvent s).1 with
  | command w =>
    rcases issueWord_cases w (nextEvent s).2 with ⟨i, -, hi⟩ | hill
    · obtain ⟨t, ht⟩ := exec_isNext i (nextEvent s).2.countCommand
      exact ⟨t, hi.trans ht⟩
    · exact ⟨_, hill⟩
  | hardwareReset => exact ⟨_, exec_reset _⟩
  | sequencer => exact sequencerStep_isNext (nextEvent_inv h)
  | deliver b => exact ⟨_, rfl⟩

end Sys2Proof.Machine
end

section
/-! The invariant is kept (45_sequencer.md R184, with R18, R20, R22, R23): what a session's step needs of the registers it leaves, the commands
outside a session, and the legal steps one by one. -/

namespace Sys2Proof.Machine

open Host (Outcome)

/-! ### The parts of the invariant that a session does not touch -/

/-- Reserved bits of `FLT` are 0 (R18). -/
def State.fltClean (s : State) : Prop := s.flt &&& 0xFFFFFFF0 = 0

theorem lengthsAligned_iff {s : State} : s.lengthsAligned ↔ ∀ c e, s.plan.entry? c = some e → e.len.toNat % 4 = 0 :=
  Plan.forall_entry (P := fun e => e.len.toNat % 4 = 0)

theorem raise_fltClean (f : FltBit) {s : State} (h : s.fltClean) : (s.raise f).fltClean := by
  have hmask : f.mask &&& 0xFFFFFFF0 = 0 := by cases f <;> decide
  rw [State.fltClean, State.raise_flt, BitVec.and_or_distrib_right, hmask, show s.flt &&& 0xFFFFFFF0 = 0 from h]
  exact BitVec.or_self

section
variable {s t : State} (h : s.Inv)
include h

/-- A state with the block's registers of a legal one, but for `RES`, `SUM`, `LFSR` and the byte streams, is legal. -/
theorem inv_of_same (hkeep : KeepsPlan s t) (hseq : t.seq = s.seq) (hlrc : t.lrc = s.lrc) (hflt : t.fltClean) : t.Inv := by
  obtain ⟨⟨himem, hack⟩, hplan⟩ := hkeep
  obtain ⟨-, hrest⟩ := h
  cases s
  cases t
  subst himem hack hplan hseq hlrc
  exact ⟨hflt, hrest⟩

/-- Outside a session the plan may change, its lengths multiples of 4. -/
theorem inv_of_not_run (hst : s.seq.st ≠ .run) (hseq : t.seq = s.seq) (himem : t.imem = s.imem) (halign : t.lengthsAligned)
    (hflt : t.fltClean) : t.Inv := by
  obtain ⟨-, -, hph, hreason, hmem, -⟩ := h
  rw [State.Inv, hseq, himem]
  exact ⟨hflt, halign, hph, hreason, hmem, fun hrun => absurd hrun hst⟩

variable (hkeep : KeepsPlan s t) (hflt : t.flt = s.flt)
include hkeep hflt

/-- A step inside a session keeps `ST`, `REASON`, `N` and the plan, and what is left to show is the phase. -/
theorem inv_of_phaseLegal (hrun : s.seq.st = .run) (hst : t.seq.st = s.seq.st) (hreason : t.seq.reason = s.seq.reason) (hn : t.seq.n = s.seq.n)
    (hphase : t.phaseLegal) : t.Inv := by
  obtain ⟨hclean, halign, -, hiff, hmem, hsession⟩ := h
  obtain ⟨hcount, hpos, himages, -⟩ := hsession hrun
  obtain ⟨⟨himem, -⟩, hplan⟩ := hkeep
  have hrun' : t.seq.st = .run := hst.trans hrun
  refine ⟨hflt ▸ hclean, ?_, fun hne => absurd hrun' hne, ?_, himem ▸ hmem, fun _ => ⟨?_, hplan ▸ hpos, ?_, hphase⟩⟩
  · rw [State.lengthsAligned, hplan]; exact halign
  · rw [hst, hreason]; exact hiff
  · rw [hn, hplan]; exact hcount
  · rw [State.imagesInMemory, hplan, himem]; exact himages

/-- A step that ends a session leaves PH NONE and a reason exactly with ABORTED. -/
theorem inv_of_ended (hst : t.seq.st ≠ .run) (hph : t.seq.ph = .none) (hreason : t.seq.st = .aborted ↔ t.seq.reason ≠ .none) : t.Inv := by
  obtain ⟨hclean, halign, -, -, hmem, -⟩ := h
  obtain ⟨⟨himem, -⟩, hplan⟩ := hkeep
  refine ⟨hflt ▸ hclean, ?_, fun _ => hph, hreason, himem ▸ hmem, fun hrun' => absurd hrun' hst⟩
  rw [State.lengthsAligned, hplan]; exact halign

end

/-! ### The initial states -/

theorem Plan.reset_aligned : ∀ k : Fin 8, (Plan.reset[k]).len.toNat % 4 = 0 := by decide

theorem State.initial_inv {m : Memory} (hm : m.wf) (l : MarkerAckLen) : (State.initial m l).Inv :=
  ⟨(by decide : (0 : Word) &&& 0xFFFFFFF0 = 0), Plan.reset_aligned, fun _ => rfl,
    (by decide : SeqRegs.reset.st = .aborted ↔ SeqRegs.reset.reason ≠ .none), hm, fun hrun => SessionState.noConfusion hrun⟩

/-- Settles O45: no session is open and every register is 0 or NONE. -/
theorem initialStatesSatisfyTheInvariant : Obligations.InitialStatesSatisfyTheInvariant :=
  ⟨fun _ l hm => State.initial_inv hm l, State.initial_inv State.reset_imem_wf _⟩

theorem resetBlock_inv {s : State} (h : s.Inv) : s.resetBlock.Inv := by
  obtain ⟨-, -, -, -, hmem, -⟩ := h
  exact State.initial_inv hmem s.markerAckLen

/-! ### Commands -/

/-- From s to t the sequencer registers stay, and so do the two facts about `FLT` and the plan that hold outside a session. -/
structure KeepsRegisters (s t : State) : Prop where
  seq : t.seq = s.seq
  aligned : s.lengthsAligned → t.lengthsAligned
  clean : s.fltClean → t.fltClean

theorem raise_keepsRegisters (f : FltBit) (s : State) : KeepsRegisters s (s.raise f) := ⟨rfl, id, raise_fltClean f⟩

theorem accept_keepsRegisters {legal : Bool} {effect : State → State} {s : State} (h : legal = true → KeepsRegisters s (effect s)) :
    KeepsRegisters s (accept legal effect s) :=
  accept_ind (fun f => raise_keepsRegisters f s) (fun _ => h)

theorem execRdr_keepsRegisters {r : Byte} {s t : State} (h : execRdr r s = .next t) : KeepsRegisters s t := by
  rcases execRdr_cases r s with ⟨v, -, hv⟩ | ⟨-, hrange⟩
  · cases hv.symm.trans h
    exact ⟨rfl, id, id⟩
  · cases hrange.symm.trans h
    exact raise_keepsRegisters .range s

theorem rxGetEffect_keepsRegisters (s : State) : KeepsRegisters s (rxGetEffect s) := by
  rcases rxGetEffect_cases s with ⟨-, h⟩ | ⟨y, rest, -, h⟩ <;> rw [h] <;> exact ⟨rfl, id, id⟩

theorem lfsrChkEffect_keepsRegisters (s : State) : KeepsRegisters s (lfsrChkEffect s) := by
  rcases lfsrChkEffect_cases s with ⟨-, h⟩ | ⟨y, rest, -, ⟨-, h⟩ | ⟨-, h⟩⟩ <;> rw [h]
  case inr.inr => exact ⟨rfl, id, raise_fltClean .hsf⟩
  all_goals exact ⟨rfl, id, id⟩

theorem sumImgEffect_keepsRegisters (c : CoreId) (s : State) : KeepsRegisters s (sumImgEffect c s) := by
  obtain ⟨b, h⟩ := sumImgEffect_cases c s
  rw [h]
  exact ⟨rfl, id, id⟩

/-- A changed entry keeps the lengths multiples of 4 if its own length stays one. -/
theorem modify_keepsRegisters {s : State} {c : CoreId} {f : PlanEntry → PlanEntry}
    (hf : ∀ e : PlanEntry, e.len.toNat % 4 = 0 → (f e).len.toNat % 4 = 0) : KeepsRegisters s (s.setPlan (s.plan.modify c f)) := by
  refine ⟨rfl, fun halign => ?_, id⟩
  rw [lengthsAligned_iff] at halign ⊢
  intro d e he
  rw [State.setPlan_plan, Plan.entry?_modify] at he
  split at he
  · obtain ⟨e', he', rfl⟩ := Option.map_eq_some_iff.1 he
    exact hf e' (halign d e' he')
  · exact halign d e he

theorem lenOperandLegal_aligned {c : CoreId} {l : Address} (h : lenOperandLegal c l = true) : l.toNat % 4 = 0 := by
  obtain ⟨-, hl⟩ := Bool.and_eq_true_iff.1 h
  exact beq_iff_eq.1 hl

/-- Every command but RESET and SEQ.START leaves the sequencer registers. -/
theorem exec_keepsRegisters {i : Instr} {s t : State} (hreset : i ≠ .reset) (hstart : ∀ run eeprom, i ≠ .seqStart run eeprom)
    (h : exec i s = .next t) : KeepsRegisters s t := by
  cases i
  case reset => exact absurd rfl hreset
  case seqStart run eeprom => exact absurd rfl (hstart run eeprom)
  case rdr r => exact execRdr_keepsRegisters h
  all_goals cases h
  case nop => exact ⟨rfl, id, id⟩
  case rxGet => exact accept_keepsRegisters fun _ => rxGetEffect_keepsRegisters s
  case lfsrChk => exact accept_keepsRegisters fun _ => lfsrChkEffect_keepsRegisters s
  case sumImg c => exact accept_keepsRegisters fun _ => sumImgEffect_keepsRegisters c s
  case planClr => exact accept_keepsRegisters fun _ => ⟨rfl, fun _ => Plan.reset_aligned, id⟩
  case planPtr | planDel => exact accept_keepsRegisters fun _ => modify_keepsRegisters fun _ he => he
  case planLen c l => exact accept_keepsRegisters fun hlegal => modify_keepsRegisters fun _ _ => lenOperandLegal_aligned hlegal
  all_goals exact accept_keepsRegisters fun _ => ⟨rfl, id, id⟩

/-- A session that SEQ.START opens is legal: its checks are what the invariant says of the plan (R165). -/
theorem seqStartEffect_inv {s : State} (h : s.Inv) (hlegal : sessionLegal s = true) (run eeprom : Bool) :
    (seqStartEffect run eeprom s).Inv := by
  obtain ⟨hclean, halign, -, -, hmem, -⟩ := h
  obtain ⟨⟨k, hk⟩, hfits⟩ := sessionLegal_iff.1 hlegal
  have hcount : (BitVec.ofNat 4 s.plan.countValid).toNat = s.plan.countValid := by
    have := s.plan.countValid_le
    rw [BitVec.toNat_ofNat]
    omega
  have hpos : 1 ≤ s.plan.countValid := by
    rw [Plan.countValid_eq_countP, Nat.one_le_iff_ne_zero, ← Nat.pos_iff_ne_zero, List.countP_pos_iff]
    exact ⟨s.plan[k], by simp, hk⟩
  refine ⟨hclean, halign, fun hne => absurd rfl hne, ?_, hmem, fun _ => ⟨hcount, hpos, ?_, ⟨rfl, rfl⟩⟩⟩
  · exact (by decide : SessionState.run = .aborted ↔ Reason.none ≠ .none)
  · exact fun j hj => decide_eq_true (hfits j hj)

/-- SEQ.START opens a session or raises BUSY or RANGE. -/
theorem exec_seqStart_cases {run eeprom : Bool} {s t : State} (h : exec (.seqStart run eeprom) s = .next t) :
    (∃ f, t = s.raise f) ∨ (sessionLegal s = true ∧ t = seqStartEffect run eeprom s) := by
  cases h
  rcases accept_cases (sessionLegal s) (seqStartEffect run eeprom) s with ⟨-, h⟩ | ⟨-, hlegal, h⟩ | ⟨-, -, h⟩
  · exact .inl ⟨_, h⟩
  · exact .inr ⟨hlegal, h⟩
  · exact .inl ⟨_, h⟩

theorem raise_inv {s : State} (h : s.Inv) (f : FltBit) : (s.raise f).Inv := by
  obtain ⟨hclean, hrest⟩ := h
  exact ⟨raise_fltClean f hclean, hrest⟩

theorem exec_inv {i : Instr} {s t : State} (h : s.Inv) (hexec : exec i s = .next t) : t.Inv := by
  have ⟨hclean, halign, _⟩ := h
  by_cases hreset : i = .reset
  · subst hreset
    cases hexec
    exact resetBlock_inv h
  by_cases hstart : ∃ run eeprom, i = .seqStart run eeprom
  · obtain ⟨run, eeprom, rfl⟩ := hstart
    rcases exec_seqStart_cases hexec with ⟨f, rfl⟩ | ⟨hlegal, rfl⟩
    · exact raise_inv h f
    · exact seqStartEffect_inv h hlegal run eeprom
  obtain ⟨hseq, haligned, hclean'⟩ := exec_keepsRegisters hreset (fun run eeprom hi => hstart ⟨run, eeprom, hi⟩) hexec
  by_cases hrun : s.seq.st = .run
  · have hlrc : t.lrc = s.lrc := by rw [exec_in_session hrun hreset hexec]
    exact inv_of_same h (exec_keepsPlan_of_run hrun hreset hexec) hseq hlrc (hclean' hclean)
  · exact inv_of_not_run h hrun hseq (exec_keepsParameters hexec).imem (haligned halign) (hclean' hclean)

/-! ### The sums of lengths below a core (R181, R184) -/

theorem Plan.lenBelow_one (p : Plan) : p.lenBelow 1 = 0 := by
  have hnone : coreIds.filter (fun d => p.isValid d && decide (d.toNat < (1 : CoreId).toNat)) = [] := by
    refine List.filter_eq_nil_iff.2 fun d hd => ?_
    have hpos := (mem_coreIds.1 hd).1
    have hone : (1 : CoreId).toNat = 1 := rfl
    simp only [Bool.and_eq_true, decide_eq_true_eq, hone]
    omega
  rw [Plan.lenBelow, hnone]
  rfl

theorem Plan.lenBelow_nextValid {p : Plan} {k c : CoreId} (h : p.nextValid k.toNat = some c) : p.lenBelow c = p.lenBelow k := by
  rw [Plan.lenBelow, Plan.below_next h, Plan.lenBelow]

theorem toNat_succ_core {c : CoreId} (h : coreInRange c) : (c + 1).toNat = c.toNat + 1 := by
  obtain ⟨-, hle⟩ := h
  have hone : (1 : CoreId).toNat = 1 := rfl
  rw [BitVec.toNat_add, hone]
  omega

theorem Plan.lenBelow_succ {p : Plan} {c : CoreId} {e : PlanEntry} (he : p.entry? c = some e) (hvalid : e.valid = true) :
    p.lenBelow (c + 1) = p.lenBelow c + e.len.toNat := by
  rw [Plan.lenBelow, toNat_succ_core (Plan.coreInRange_of_entry he), Plan.below_succ (Plan.isValid_of_entry_valid he hvalid),
    List.map_append, List.sum_append, List.map_singleton, List.sum_singleton, Plan.lenOf_of_entry he, Plan.lenBelow]

/-- The sum fits `BASE` (R181). -/
theorem toNat_imageDone_base {s : State} {e : PlanEntry} (hpage : PageOf s e) :
    (imageDone e s.seq).base.toNat = s.plan.lenBelow (s.seq.cog + 1) := by
  have hbelow := s.plan.lenBelow_lt s.seq.cog
  have hlen := e.len.isLt
  rw [imageDone, BitVec.toNat_add, BitVec.toNat_setWidth_of_le (by decide), hpage.base, Plan.lenBelow_succ hpage.entry hpage.valid,
    Nat.mod_eq_of_lt (by omega)]

/-! ### The legal steps -/

theorem ackNeed_pos (s : State) : 0 < ackNeed s := by
  unfold ackNeed
  cases s.seq.marker <;> cases s.markerAckLen <;> decide

section
variable {s : State} {e : PlanEntry} (hpage : PageOf s e)
include hpage

theorem phaseLegal_of_hdr (hph : s.seq.ph = .hdr) (hidx : s.seq.idx.toNat ≤ 7) (hlrc : s.lrc = 0) : s.phaseLegal :=
  (phaseLegal_inPage (congrArg Phase.inPage hph)).2 ⟨e, hpage, (progressLegal_hdr hph).2 ⟨hidx, hlrc⟩⟩

theorem phaseLegal_of_pay (hph : s.seq.ph = .pay) (hdata : s.seq.marker = false) (hackn : s.seq.ackn = 0)
    (hidx : s.seq.idx.toNat < s.seq.chunk.toNat)
    (hlrc : s.lrc = xorBytes (s.imem.bytes (e.ptr.toNat + s.seq.off.toNat) s.seq.idx.toNat)) : s.phaseLegal :=
  (phaseLegal_inPage (congrArg Phase.inPage hph)).2 ⟨e, hpage, (progressLegal_pay hph).2 ⟨hdata, hackn, hidx, hlrc⟩⟩

theorem phaseLegal_of_ack (hph : s.seq.ph = .ack) (hackn : s.seq.ackn.toNat < ackNeed s)
    (hlrc : s.lrc = xorBytes (s.imem.bytes (e.ptr.toNat + s.seq.off.toNat) s.seq.chunk.toNat)) : s.phaseLegal :=
  (phaseLegal_inPage (congrArg Phase.inPage hph)).2 ⟨e, hpage, (progressLegal_ack hph).2 ⟨hackn, hlrc⟩⟩

theorem phaseLegal_of_next (hph : s.seq.ph = .next) (hmarker : s.seq.marker = true) (hlrc : s.lrc = 0) : s.phaseLegal :=
  (phaseLegal_inPage (congrArg Phase.inPage hph)).2 ⟨e, hpage, (progressLegal_next hph).2 ⟨hmarker, hlrc⟩⟩

end

/-- A page that starts at the offset in `OFF`, a multiple of 512 or the image's end, is legal (R172). -/
theorem pageStarted_phaseLegal {o : Address} {e : PlanEntry} {s : State} (he : s.plan.entry? s.seq.cog = some e) (hvalid : e.valid = true)
    (hbase : s.seq.base.toNat = s.plan.lenBelow s.seq.cog) (hoff : s.seq.off = o) (hle : o.toNat ≤ e.len.toNat)
    (haligned : o.toNat < e.len.toNat → o.toNat % 512 = 0) : (pageStarted o e s).phaseLegal := by
  refine phaseLegal_of_hdr (e := e) ⟨he, hvalid, hbase, ?_⟩ rfl (Nat.zero_le 7) rfl
  subst hoff
  by_cases hbytes : s.seq.off.toNat < e.len.toNat
  · rw [pageStarted_of_lt hbytes]
    have hchunk : (BitVec.ofNat 10 (min 512 (e.len.toNat - s.seq.off.toNat))).toNat = min 512 (e.len.toNat - s.seq.off.toNat) := by
      rw [BitVec.toNat_ofNat]
      omega
    exact (pageLegal_of_data rfl).2 ⟨hbytes, haligned hbytes, hchunk⟩
  · have hend : s.seq.off = e.len := BitVec.eq_of_toNat_eq (le_antisymm hle (Nat.not_lt.1 hbytes))
    rw [pageStarted_of_le (Nat.not_lt.1 hbytes)]
    exact (pageLegal_of_marker rfl).2 ⟨hend, rfl⟩

theorem toNat_idx_succ {q : SeqRegs} (h : q.idx.toNat + 1 < 1024) : (q.idx + 1).toNat = q.idx.toNat + 1 := by
  have hone : (1 : BitVec 10).toNat = 1 := rfl
  rw [BitVec.toNat_add, hone, Nat.mod_eq_of_lt h]

/-- The payload bytes sent, one more (R176). -/
theorem xorBytes_bytes_succ (m : Memory) (p n : Nat) : xorBytes (m.bytes p (n + 1)) = xorBytes (m.bytes p n) ^^^ m.byte (p + n) := by
  rw [Memory.bytes_succ, xorBytes_concat]

section
variable {s : State} {e : PlanEntry}

/-- After the header comes the payload of a data page, which has a byte, or the acknowledgment of the empty marker page (R174). -/
theorem headerDone_phaseLegal (b : Byte) (hpage : PageOf s e) (hlrc : s.lrc = 0) :
    (byteSent b { s.seq with idx := 0, ackn := 0, ph := if s.seq.marker then .ack else .pay } s).phaseLegal := by
  cases hmarker : s.seq.marker with
  | true =>
    have hchunk : s.seq.chunk.toNat = 0 := by rw [(hpage.marker hmarker).2]; rfl
    refine phaseLegal_of_ack (e := e) ⟨hpage.entry, hpage.valid, hpage.base, hpage.page⟩ rfl (ackNeed_pos _) ?_
    change s.lrc = xorBytes (s.imem.bytes _ s.seq.chunk.toNat)
    rw [hchunk, hlrc]
    rfl
  | false =>
    obtain ⟨hoff, -, hchunk⟩ := hpage.data hmarker
    refine phaseLegal_of_pay (e := e) ⟨hpage.entry, hpage.valid, hpage.base, hpage.page⟩ rfl hmarker rfl ?_ hlrc
    change 0 < s.seq.chunk.toNat
    omega

/-- The page after an accepted data page starts where that page ended (R172, R179). -/
theorem pageDone_phaseLegal (y : Byte) (rest : List Byte) (hk : s.seq.ackn.toNat < 3) (hpage : PageOf s e) (hdata : s.seq.marker = false) :
    (pageStarted (s.seq.off + s.seq.chunk.setWidth 24) e (offsetAdvanced (ackStored y rest s hk))).phaseLegal := by
  obtain ⟨-, hoff, -⟩ := hpage.data hdata
  have hsum := hpage.toNat_off_add_chunk
  refine pageStarted_phaseLegal hpage.entry hpage.valid hpage.base rfl (hsum ▸ hpage.off_add_chunk_le) fun hmore => ?_
  have hchunk := hpage.next_off_aligned hdata (hsum ▸ hmore)
  omega

/-- After NEXT the base is the sum of the lengths below the core above (R181). -/
theorem imageDone_phaseLegal {c : CoreId} (hpage : PageOf s e) (hnext : s.plan.nextValid (s.seq.cog.toNat + 1) = some c) :
    ({ s with seq := { imageDone e s.seq with ph := .csync } } : State).phaseLegal := by
  refine (phaseLegal_csync rfl).2 ⟨?_, toNat_imageDone_base hpage⟩
  change (s.plan.nextValid (s.seq.cog + 1).toNat).isSome = true
  rw [toNat_succ_core hpage.coreInRange, hnext]
  rfl

/-- One payload byte more in the page and in `LRC` (R176). -/
theorem payloadByteSent_lrc (q : SeqRegs) (hlrc : s.lrc = xorBytes (s.imem.bytes (e.ptr.toNat + s.seq.off.toNat) s.seq.idx.toNat)) :
    (payloadByteSent e q s).lrc = xorBytes (s.imem.bytes (e.ptr.toNat + s.seq.off.toNat) (s.seq.idx.toNat + 1)) := by
  rw [xorBytes_bytes_succ, ← hlrc]
  rfl

end

theorem sessionSync_phaseLegal {s : State} (hpos : 1 ≤ s.plan.countValid) (hscan : s.seq.scan = 1) (hbase : s.seq.base = 0) :
    ({ s.txPut (sync (s.seq.n.setWidth 8)) with seq := { s.seq with ph := .csync } } : State).phaseLegal := by
  refine (phaseLegal_csync rfl).2 ⟨?_, ?_⟩
  · change (s.plan.nextValid s.seq.scan.toNat).isSome = true
    rw [hscan]
    exact Plan.nextValid_one_isSome hpos
  · change s.seq.base.toNat = s.plan.lenBelow s.seq.scan
    rw [hscan, hbase, Plan.lenBelow_one]
    rfl

/-- Every legal step keeps the invariant: inside the session by the phase it leads to, at its end by `ST` and `REASON`. -/
theorem legalStep_inv {s t : State} (h : s.Inv) (hrun : s.seq.st = .run) (hstep : LegalStep s t) : t.Inv := by
  obtain ⟨-, hpos, -, -⟩ := h.session hrun
  cases hstep
  case ackHold => exact h
  case ackAborted r hph hrx hlast hwrong hr =>
    exact inv_of_ended h ⟨⟨rfl, rfl⟩, rfl⟩ rfl SessionState.noConfusion rfl (iff_of_true rfl hr)
  case sessionDone hpage hph hmarker hnone =>
    have ⟨_, _, _, hreason, _, _⟩ := h
    have hnoreason : s.seq.reason = .none := by simpa [hrun] using hreason
    exact inv_of_ended h ⟨⟨rfl, rfl⟩, rfl⟩ rfl SessionState.noConfusion rfl (iff_of_false SessionState.noConfusion (not_not.2 hnoreason))
  all_goals refine inv_of_phaseLegal h ⟨⟨rfl, rfl⟩, rfl⟩ rfl hrun rfl rfl rfl ?_
  case sessionSync hph hscan hbase => exact sessionSync_phaseLegal hpos hscan hbase
  case coreSync c e hph hnext he hbase =>
    obtain ⟨-, hvalid, -⟩ := Plan.nextValid_eq_some hnext
    rw [Plan.isValid_of_entry he] at hvalid
    exact pageStarted_phaseLegal he hvalid (hbase.trans (Plan.lenBelow_nextValid hnext).symm) rfl (Nat.zero_le _) fun _ => rfl
  case header e b hpage hph hlrc hidx hb =>
    refine phaseLegal_of_hdr (e := e) ⟨hpage.entry, hpage.valid, hpage.base, hpage.page⟩ hph ?_ hlrc
    exact (toNat_idx_succ (by omega)).trans_le hidx
  case headerDone e b hpage hph hlrc hidx hb => exact headerDone_phaseLegal b hpage hlrc
  case payload e hpage hph hdata hackn hlrc hmore =>
    have hidx : (s.seq.idx + 1).toNat = s.seq.idx.toNat + 1 := toNat_idx_succ (hmore.trans s.seq.chunk.isLt)
    refine phaseLegal_of_pay (e := e) ⟨hpage.entry, hpage.valid, hpage.base, hpage.page⟩ hph hdata hackn (hidx ▸ hmore) ?_
    exact (payloadByteSent_lrc _ hlrc).trans (by rw [← hidx]; rfl)
  case payloadDone e hpage hph hdata hackn hlrc hlast =>
    refine phaseLegal_of_ack (e := e) ⟨hpage.entry, hpage.valid, hpage.base, hpage.page⟩ rfl ?_ ?_
    · change s.seq.ackn.toNat < ackNeed s
      rw [hackn]
      exact ackNeed_pos s
    · exact (payloadByteSent_lrc _ hlrc).trans (by rw [hlast]; rfl)
  case ackByte e y rest hk hpage hph hlrc hrx hmore =>
    refine phaseLegal_of_ack (e := e) ⟨hpage.entry, hpage.valid, hpage.base, hpage.page⟩ hph ?_ hlrc
    exact (toNat_ackStored_ackn hk).trans_lt hmore
  case pageDone e y rest hk hpage hph hdata hrx hlast => exact pageDone_phaseLegal y rest hk hpage hdata
  case markerDone e y rest hk hpage hph hmarker hlrc hrx hlast =>
    exact phaseLegal_of_next (e := e) ⟨hpage.entry, hpage.valid, hpage.base, hpage.page⟩ rfl hmarker hlrc
  case imageDone e c hpage hph hmarker hnext => exact imageDone_phaseLegal hpage hnext

/-! ### The step of any agent -/

theorem sequencerStep_inv {s t : State} (h : s.Inv) (hstep : sequencerStep s = .next t) : t.Inv := by
  by_cases hrun : s.seq.st = .run
  · exact legalStep_inv h hrun (legalStep_of_next hrun (h.session hrun) hstep)
  · cases (sequencerStep_of_not_run hrun).symm.trans hstep
    exact h

theorem takeEvent_inv {e : Event} {s t : State} (h : s.Inv) (htake : takeEvent e s = .next t) : t.Inv := by
  have hcount : s.countCommand.Inv := h
  rcases takeEvent_cases htake with ⟨-, rfl⟩ | ⟨i, -, hexec⟩ | rfl | ⟨-, hseq⟩ | ⟨b, rfl⟩
  · exact resetBlock_inv hcount
  · exact exec_inv hcount hexec
  · exact raise_inv hcount .ill
  · exact sequencerStep_inv h hseq
  · exact h

/-- Settles O46: by the event; RX, TX and the command index are no part of the invariant. -/
theorem everyStepKeepsTheInvariant : Obligations.EveryStepKeepsTheInvariant :=
  fun _ _ h hstep => takeEvent_inv (nextEvent_inv h) hstep

end Sys2Proof.Machine
end

section
/-! The header of a page (30_encoding.md R68, 20_memory.md R47). Image lengths are multiples of 4 and data pages start at multiples of 512, so the
address and the size of a data page are multiples of 4: neither ends in 0xFF, and no such address is the marker's. -/

namespace Sys2Proof.Machine

/-! ### Multiples of 4 -/

theorem Plan.lenBelow_mod_four {p : Plan} (h : ∀ c e, p.entry? c = some e → e.len.toNat % 4 = 0) (c : CoreId) : p.lenBelow c % 4 = 0 := by
  refine Nat.mod_eq_zero_of_dvd (List.dvd_sum fun n hn => ?_)
  obtain ⟨d, -, rfl⟩ := List.mem_map.1 hn
  cases he : p.entry? d with
  | none => simp [Plan.lenOf, he]
  | some e => rw [Plan.lenOf_of_entry he]; exact Nat.dvd_of_mod_eq_zero (h d e he)

namespace PageOf

variable {s : State} {e : PlanEntry} (h : PageOf s e) (halign : s.lengthsAligned)
include h halign

theorem toNat_pageAddress_mod_four (hdata : s.seq.marker = false) : (pageAddress s.seq).toNat % 4 = 0 := by
  obtain ⟨-, hoff, -⟩ := h.data hdata
  have hbase := Plan.lenBelow_mod_four (lengthsAligned_iff.1 halign) s.seq.cog
  rw [toNat_pageAddress_of_data hdata, h.base]
  omega

theorem toNat_chunk_mod_four : s.seq.chunk.toNat % 4 = 0 := by
  cases hmarker : s.seq.marker with
  | true => rw [(h.marker hmarker).2]; rfl
  | false =>
    obtain ⟨-, hoff, hchunk⟩ := h.data hmarker
    have hlen := lengthsAligned_iff.1 halign _ _ h.entry
    omega

omit halign in
theorem toNat_chunk_le : s.seq.chunk.toNat ≤ 512 := by
  cases hmarker : s.seq.marker with
  | true => rw [(h.marker hmarker).2]; exact Nat.zero_le _
  | false =>
    obtain ⟨-, -, hchunk⟩ := h.data hmarker
    omega

end PageOf

/-- A session past its sync signals has a page in progress. -/
theorem State.Inv.pageOf {s : State} (h : s.Inv) (hrun : s.seq.st = .run) (hssync : s.seq.ph ≠ .ssync) (hcsync : s.seq.ph ≠ .csync) :
    ∃ e, PageOf s e ∧ s.progressLegal e := by
  obtain ⟨-, -, -, hphase⟩ := h.session hrun
  refine (phaseLegal_inPage ?_).1 hphase
  cases hph : s.seq.ph
  case none => simp [State.phaseLegal, hph] at hphase
  case ssync => exact absurd hph hssync
  case csync => exact absurd hph hcsync
  all_goals rfl

/-- Settles O54: 0xFFFFFE is no multiple of 4. -/
theorem dataPagesNeverCarryTheMarkerAddress : Obligations.DataPagesNeverCarryTheMarkerAddress := by
  intro s h hrun hssync hcsync hdata haddress
  obtain ⟨e, hpage, -⟩ := h.pageOf hrun hssync hcsync
  obtain ⟨-, halign, -⟩ := h
  have hmod := hpage.toNat_pageAddress_mod_four halign hdata
  rw [haddress] at hmod
  exact absurd hmod (by decide)

/-! ### The bytes of a header -/

theorem eq_append_extractLsb' (a : Address) : a = a.extractLsb' 16 8 ++ a.extractLsb' 8 8 ++ a.extractLsb' 0 8 := by
  refine BitVec.eq_of_toNat_eq ?_
  simp only [toNat_append_eq_add, BitVec.extractLsb'_toNat, Nat.shiftRight_eq_div_pow]
  omega

theorem toNat_append_extractLsb' (z : BitVec 10) :
    ((z.setWidth 16).extractLsb' 8 8 ++ (z.setWidth 16).extractLsb' 0 8 : BitVec 16).toNat = z.toNat := by
  have hz := z.isLt
  simp only [toNat_append_eq_add, BitVec.extractLsb'_toNat, BitVec.toNat_setWidth, Nat.shiftRight_eq_div_pow]
  omega

/-- The eight bytes of a header, cut from the core id, the address and the size (R68, R173). -/
theorem headerBytes_eq_extractLsb' (q : SeqRegs) : headerBytes q =
    [q.cog.setWidth 8, (pageAddress q).extractLsb' 16 8, (pageAddress q).extractLsb' 8 8, (pageAddress q).extractLsb' 0 8, 0x00, 0x00,
      (q.chunk.setWidth 16).extractLsb' 8 8, (q.chunk.setWidth 16).extractLsb' 0 8] :=
  headerBytes_eq (eq_append_extractLsb' _) (toNat_append_extractLsb' _)

/-- A byte below 0xFF as a number is not 0xFF. -/
theorem ne_ff_of_toNat_ne {b : Byte} (h : b.toNat ≠ 255) : b ≠ 0xFF := fun hb => h (congrArg BitVec.toNat hb)

section
variable {s : State} {e : PlanEntry} (h : PageOf s e) (halign : s.lengthsAligned)
include h

theorem cog_ne_ff : s.seq.cog.setWidth 8 ≠ (0xFF : Byte) := by
  obtain ⟨-, hcore⟩ := h.coreInRange
  refine ne_ff_of_toNat_ne ?_
  rw [BitVec.toNat_setWidth]
  omega

/-- The size is at most 512. -/
theorem chunk_high_ne_ff : (s.seq.chunk.setWidth 16).extractLsb' 8 8 ≠ (0xFF : Byte) := by
  have hchunk := h.toNat_chunk_le
  refine ne_ff_of_toNat_ne ?_
  simp only [BitVec.extractLsb'_toNat, BitVec.toNat_setWidth, Nat.shiftRight_eq_div_pow]
  omega

include halign

theorem address_low_ne_ff : (pageAddress s.seq).extractLsb' 0 8 ≠ (0xFF : Byte) := by
  cases hmarker : s.seq.marker with
  | true => rw [pageAddress_of_marker hmarker]; decide
  | false =>
    have hmod := h.toNat_pageAddress_mod_four halign hmarker
    refine ne_ff_of_toNat_ne ?_
    simp only [BitVec.extractLsb'_toNat, Nat.shiftRight_eq_div_pow]
    omega

theorem chunk_low_ne_ff : (s.seq.chunk.setWidth 16).extractLsb' 0 8 ≠ (0xFF : Byte) := by
  have hmod := h.toNat_chunk_mod_four halign
  refine ne_ff_of_toNat_ne ?_
  simp only [BitVec.extractLsb'_toNat, BitVec.toNat_setWidth, Nat.shiftRight_eq_div_pow]
  omega

end

/-- Where only the second and third of eight bytes can be 0xFF, stuffing adds at most two. -/
theorem length_stuff_header {c a₂ a₁ a₀ z₁ z₀ : Byte} (hc : c ≠ 0xFF) (ha : a₀ ≠ 0xFF) (hz₁ : z₁ ≠ 0xFF) (hz₀ : z₀ ≠ 0xFF) :
    8 ≤ (stuff [c, a₂, a₁, a₀, 0x00, 0x00, z₁, z₀]).length ∧ (stuff [c, a₂, a₁, a₀, 0x00, 0x00, z₁, z₀]).length ≤ 10 := by
  have hzero : (0x00 : Byte) ≠ 0xFF := by decide
  simp only [stuff_cons, stuff_nil, List.length_append, length_stuff1, hc, ha, hz₁, hz₀, hzero, if_false, List.length_nil]
  split_ifs <;> decide

/-- Settles O55: the other six bytes are a core id, a multiple of 4, zeros, and the two bytes of a size up to 512 that is a multiple of 4. -/
theorem headerTakesEightToTenWireBytes : Obligations.HeaderTakesEightToTenWireBytes := by
  intro s h hrun hssync hcsync
  obtain ⟨e, hpage, -⟩ := h.pageOf hrun hssync hcsync
  obtain ⟨-, halign, -⟩ := h
  have hcog := cog_ne_ff hpage
  have haddress := address_low_ne_ff hpage halign
  have hhigh := chunk_high_ne_ff hpage
  have hlow := chunk_low_ne_ff hpage halign
  rw [headerBytes_eq_extractLsb']
  obtain ⟨hmin, hmax⟩ := length_stuff_header hcog haddress hhigh hlow
  refine ⟨hmin, hmax, fun k hk => ?_⟩
  obtain ⟨hlt, hff⟩ := List.getElem?_eq_some_iff.1 hk
  simp only [List.length_cons, List.length_nil] at hlt
  have hzero : (0x00 : Byte) ≠ 0xFF := by decide
  -- the bytes in order: core id, address (three), zeros (two), size (two)
  interval_cases k
  · exact absurd hff hcog
  · exact .inl rfl
  · exact .inr rfl
  · exact absurd hff haddress
  · exact absurd hff hzero
  · exact absurd hff hzero
  · exact absurd hff hhigh
  · exact absurd hff hlow

end Sys2Proof.Machine
end

section
/-! The session on the wire (30_encoding.md R72): how an image splits into pages, and, step by step, that what the sequencer sends is the
session's grammar up to its position. -/

namespace Sys2Proof.Machine

/-! ### Pages of an image (R183) -/

theorem le_pageCount_mul (len : Nat) : len ≤ 512 * pageCount len := by
  unfold pageCount pageSize
  omega

theorem pageCount_mul_lt (len : Nat) : 512 * pageCount len < len + 512 := by
  unfold pageCount pageSize
  omega

theorem pageCount_zero : pageCount 0 = 0 := rfl

theorem Memory.bytes_add (m : Memory) (p a b : Nat) : m.bytes p (a + b) = m.bytes p a ++ m.bytes (p + a) b := by
  simp only [Memory.bytes, List.range_add, List.map_append, List.map_map, Function.comp_def, Nat.add_assoc]

/-- The first k pages hold the first 512 k bytes of the image, as far as it goes. -/
theorem flatMap_bytes_page (m : Memory) (p len k : Nat) :
    (List.range k).flatMap (fun j => m.bytes (p + 512 * j) (min 512 (len - 512 * j))) = m.bytes p (min len (512 * k)) := by
  induction k with
  | zero => simp [Memory.bytes]
  | succ k ih =>
    rw [List.range_succ, List.flatMap_append, ih, List.flatMap_singleton]
    by_cases hmore : 512 * k ≤ len
    · rw [Nat.min_eq_right hmore, ← Memory.bytes_add]
      congr 1
      omega
    · have hnone : min 512 (len - 512 * k) = 0 := by omega
      have hall : min len (512 * k) = min len (512 * (k + 1)) := by omega
      rw [hnone, hall]
      exact List.append_nil _

theorem flatMap_bytes_pageCount (m : Memory) (p len : Nat) :
    (List.range (pageCount len)).flatMap (fun j => m.bytes (p + 512 * j) (min 512 (len - 512 * j))) = m.bytes p len := by
  rw [flatMap_bytes_page, Nat.min_eq_left (le_pageCount_mul len)]

/-- The sizes are the lengths of the payloads, so they sum to the length of the image. -/
theorem sum_page_sizes (len : Nat) : ((List.range (pageCount len)).map (fun j => min 512 (len - 512 * j))).sum = len := by
  have hlen := congrArg List.length (flatMap_bytes_pageCount ⟨0, []⟩ 0 len)
  simpa only [List.length_flatMap, Memory.length_bytes] using hlen

/-- Settles O58: the pages tile the image. -/
theorem pagesCoverTheImage : Obligations.PagesCoverTheImage := by
  refine fun m p len => ⟨le_pageCount_mul len, pageCount_mul_lt len, fun j hj => ?_, sum_page_sizes len, flatMap_bytes_pageCount m p len⟩
  have hend := pageCount_mul_lt len
  omega

/-- A page inside the image is followed by the next one or by the image's end. -/
theorem div_add_one_eq_pageCount {off len : Nat} (hoff : off % 512 = 0) (hlt : off < len) (hend : len ≤ off + 512) :
    off / 512 + 1 = pageCount len := by
  unfold pageCount pageSize
  omega

/-! ### The grammar's pages against the registers of the page in progress -/

theorem stuff_headerBytes (q : SeqRegs) : stuff (headerBytes q) = field (q.cog.setWidth 8 ++ pageAddress q) ++ field (q.chunk.setWidth 32) := by
  rw [headerBytes, stuff_append, headerField_eq_append, field, field]

section
variable {s : State} {e : PlanEntry} (h : PageOf s e)
include h

/-- The bytes of a data page are the grammar's page at `OFF / 512` (R72, R173, R176). -/
theorem stuff_page_of_data (hdata : s.seq.marker = false) :
    stuff (headerBytes s.seq) ++ stuff (s.imem.bytes (e.ptr.toNat + s.seq.off.toNat) s.seq.chunk.toNat) =
      dataPageWire s.imem s.seq.cog (s.plan.lenBelow s.seq.cog) e (s.seq.off.toNat / 512) := by
  obtain ⟨-, hoff, hchunk⟩ := h.data hdata
  have hplace : 512 * (s.seq.off.toNat / 512) = s.seq.off.toNat := by omega
  have haddress : pageAddress s.seq = BitVec.ofNat 24 (s.plan.lenBelow s.seq.cog + s.seq.off.toNat) := by
    refine BitVec.eq_of_toNat_eq ?_
    rw [toNat_pageAddress_of_data hdata, h.base, BitVec.toNat_ofNat]
  simp only [dataPageWire, pageSize, hplace, headerWord, ← haddress, ← hchunk, BitVec.ofNat_toNat]
  rw [stuff_headerBytes]

/-- The marker page has a header and no payload (R71). -/
theorem stuff_page_of_marker (hmarker : s.seq.marker = true) :
    stuff (headerBytes s.seq) ++ stuff (s.imem.bytes (e.ptr.toNat + s.seq.off.toNat) s.seq.chunk.toNat) = markerPageWire s.seq.cog := by
  obtain ⟨-, hchunk⟩ := h.marker hmarker
  rw [stuff_headerBytes, pageAddress_of_marker hmarker, hchunk]
  exact List.append_nil _

end

/-! ### Cores before the one in progress -/

theorem coresBelowWire_one (p : Plan) (m : Memory) : coresBelowWire p m 1 = [] := by
  have hnone : coreIds.filter (fun d => p.isValid d && decide (d.toNat < 1)) = [] := by
    refine List.filter_eq_nil_iff.2 fun d hd => ?_
    have hpos := (mem_coreIds.1 hd).1
    simp only [Bool.and_eq_true, decide_eq_true_eq]
    omega
  rw [coresBelowWire, hnone]
  rfl

theorem coresBelowWire_nextValid {p : Plan} {k : Nat} {c : CoreId} (m : Memory) (h : p.nextValid k = some c) :
    coresBelowWire p m c.toNat = coresBelowWire p m k := by
  rw [coresBelowWire, Plan.below_next h, coresBelowWire]

theorem coresBelowWire_succ {p : Plan} {c : CoreId} (m : Memory) (h : p.isValid c = true) :
    coresBelowWire p m (c.toNat + 1) = coresBelowWire p m c.toNat ++ coreWire p m c := by
  rw [coresBelowWire, Plan.below_succ h, List.flatMap_append, List.flatMap_singleton, coresBelowWire]

theorem sessionWire_of_none {p : Plan} {k : Nat} (m : Memory) (h : p.nextValid k = none) :
    sessionWire p m = sync (BitVec.ofNat 8 p.countValid) ++ coresBelowWire p m k := by
  rw [coresBelowWire, Plan.below_of_none h, sessionWire]

theorem dataPagesWire_succ (m : Memory) (c : CoreId) (base : Nat) (e : PlanEntry) (k : Nat) :
    dataPagesWire m c base e (k + 1) = dataPagesWire m c base e k ++ dataPageWire m c base e k := by
  rw [dataPagesWire, List.range_succ, List.flatMap_append, List.flatMap_singleton, dataPagesWire]

/-! ### What a session in progress has sent -/

/-- What the session has sent before the page in progress. -/
def sentBeforePage (s : State) (e : PlanEntry) : List Byte :=
  sync (BitVec.ofNat 8 s.plan.countValid) ++ coresBelowWire s.plan s.imem s.seq.cog.toNat ++ coreSentBefore s e

section
variable {s : State} {e : PlanEntry}

theorem sentSoFar_ssync (h : s.seq.ph = .ssync) : sentSoFar s = [] := by
  simp only [sentSoFar, h]

theorem sentSoFar_csync (h : s.seq.ph = .csync) :
    sentSoFar s = sync (BitVec.ofNat 8 s.plan.countValid) ++ coresBelowWire s.plan s.imem s.seq.scan.toNat := by
  simp only [sentSoFar, h]

theorem sentSoFar_inPage (h : s.seq.ph.inPage = true) (he : s.plan.entry? s.seq.cog = some e) :
    sentSoFar s = sentBeforePage s e ++ pageSent s e := by
  unfold sentSoFar
  cases hph : s.seq.ph
  case none | ssync | csync => simp [hph, Phase.inPage] at h
  all_goals simp only [he, sentBeforePage]

theorem pageSent_hdr (h : s.seq.ph = .hdr) : pageSent s e = stuff ((headerBytes s.seq).take s.seq.idx.toNat) := by
  simp only [pageSent, h]

theorem pageSent_pay (h : s.seq.ph = .pay) :
    pageSent s e = stuff (headerBytes s.seq) ++ stuff (s.imem.bytes (e.ptr.toNat + s.seq.off.toNat) s.seq.idx.toNat) := by
  simp only [pageSent, h]

theorem pageSent_pageStarted (o : Address) (e : PlanEntry) (s : State) : pageSent (pageStarted o e s) e = [] := rfl

/-- In phases ACK and NEXT the whole page is out. -/
theorem pageSent_of_out (h : s.seq.ph = .ack ∨ s.seq.ph = .next) :
    pageSent s e = stuff (headerBytes s.seq) ++ stuff (s.imem.bytes (e.ptr.toNat + s.seq.off.toNat) s.seq.chunk.toNat) := by
  rcases h with h | h <;> simp only [pageSent, h]

end

/-- The data pages of the current core that are out before the page in progress. -/
def pagesOut (s : State) (e : PlanEntry) : Nat := if s.seq.marker then pageCount e.len.toNat else s.seq.off.toNat / 512

theorem coreSentBefore_eq (s : State) (e : PlanEntry) : coreSentBefore s e =
    sync (s.seq.cog.setWidth 8) ++ dataPagesWire s.imem s.seq.cog (s.plan.lenBelow s.seq.cog) e (pagesOut s e) := rfl

/-- A page that starts at o comes after the data pages below o (R172). -/
theorem pagesOut_pageStarted (o : Address) (e : PlanEntry) {s : State} (hoff : s.seq.off = o) :
    pagesOut (pageStarted o e s) e = if o.toNat < e.len.toNat then o.toNat / 512 else pageCount e.len.toNat := by
  subst hoff
  by_cases hbytes : s.seq.off.toNat < e.len.toNat
  · rw [pageStarted_of_lt hbytes, if_pos hbytes]
    rfl
  · rw [pageStarted_of_le (Nat.not_lt.1 hbytes), if_neg hbytes]
    rfl

/-- The first page of a core starts with none of its pages out, whether or not the image has a byte. -/
theorem pagesOut_first (e : PlanEntry) {s : State} (hoff : s.seq.off = 0) : pagesOut (pageStarted 0 e s) e = 0 := by
  rw [pagesOut_pageStarted 0 e hoff]
  split
  · rfl
  · have hempty : e.len.toNat = 0 := by simp_all
    rw [hempty, pageCount_zero]

theorem pagesOut_pageDone {s : State} {e : PlanEntry} (hpage : PageOf s e) (hdata : s.seq.marker = false) (y : Byte) (rest : List Byte)
    (hk : s.seq.ackn.toNat < 3) :
    pagesOut (pageStarted (s.seq.off + s.seq.chunk.setWidth 24) e (offsetAdvanced (ackStored y rest s hk))) e = pagesOut s e + 1 := by
  obtain ⟨hlt, hoff, hchunk⟩ := hpage.data hdata
  have hthis : pagesOut s e = s.seq.off.toNat / 512 := if_neg (by simp [hdata])
  rw [pagesOut_pageStarted _ e (by rfl), hpage.toNat_off_add_chunk, hthis]
  split
  · omega
  · exact (div_add_one_eq_pageCount hoff hlt (by omega)).symm

/-- With the marker page out the current core is complete. -/
theorem sentSoFar_of_next {s : State} {e : PlanEntry} (hpage : PageOf s e) (hph : s.seq.ph = .next) (hmarker : s.seq.marker = true) :
    sentSoFar s = sync (BitVec.ofNat 8 s.plan.countValid) ++ coresBelowWire s.plan s.imem (s.seq.cog.toNat + 1) := by
  have hout : pagesOut s e = pageCount e.len.toNat := if_pos hmarker
  rw [sentSoFar_inPage (congrArg Phase.inPage hph) hpage.entry, pageSent_of_out (.inr hph), stuff_page_of_marker hpage hmarker,
    coresBelowWire_succ _ hpage.isValid, coreWire, hpage.entry, sentBeforePage, coreSentBefore_eq, hout]
  simp only [List.append_assoc]

/-! ### What a legal step sends -/

/-- From s to t the bytes bs go out, and they are what the grammar has between the two positions; a session that ends in SUCCESS has sent the
whole of it, and an end sends nothing (R72). -/
structure SendsGrammar (s t : State) (bs : List Byte) : Prop where
  tx : t.tx = s.tx ++ bs
  running : t.seq.st = .run → sentSoFar t = sentSoFar s ++ bs
  success : t.seq.st = .success → sessionWire s.plan s.imem = sentSoFar s
  ended : t.seq.st ≠ .run → bs = []

/-- A step inside the session has to fit the grammar only. -/
theorem sendsGrammar_of_running {s t : State} {bs : List Byte} (hrun : t.seq.st = .run) (htx : t.tx = s.tx ++ bs)
    (hsent : sentSoFar t = sentSoFar s ++ bs) : SendsGrammar s t bs :=
  ⟨htx, fun _ => hsent, fun h => absurd (hrun.symm.trans h) (by decide), fun h => absurd hrun h⟩

theorem sendsGrammar_of_silent {s t : State} (hrun : t.seq.st = .run) (htx : t.tx = s.tx) (hsent : sentSoFar t = sentSoFar s) :
    SendsGrammar s t [] :=
  sendsGrammar_of_running hrun (htx.trans (List.append_nil _).symm) (hsent.trans (List.append_nil _).symm)

/-- A step inside a page adds its bytes to the page. -/
theorem sentSoFar_of_pageSent {s t : State} {e : PlanEntry} {bs : List Byte} (hs : s.seq.ph.inPage = true) (ht : t.seq.ph.inPage = true)
    (he : s.plan.entry? s.seq.cog = some e) (he' : t.plan.entry? t.seq.cog = some e) (hbefore : sentBeforePage t e = sentBeforePage s e)
    (hpage : pageSent t e = pageSent s e ++ bs) : sentSoFar t = sentSoFar s ++ bs := by
  rw [sentSoFar_inPage hs he, sentSoFar_inPage ht he', hbefore, hpage, List.append_assoc]

section
variable {s : State} {e : PlanEntry}

theorem sessionSync_sends (hn : s.seq.n.toNat = s.plan.countValid) (hph : s.seq.ph = .ssync) (hscan : s.seq.scan = 1) :
    sentSoFar { s.txPut (sync (s.seq.n.setWidth 8)) with seq := { s.seq with ph := .csync } } = sentSoFar s ++ sync (s.seq.n.setWidth 8) := by
  have hcount : BitVec.ofNat 8 s.plan.countValid = s.seq.n.setWidth 8 := by rw [← hn, BitVec.ofNat_toNat]
  rw [sentSoFar_ssync hph, sentSoFar_csync rfl]
  change sync (BitVec.ofNat 8 s.plan.countValid) ++ coresBelowWire s.plan s.imem s.seq.scan.toNat = _
  rw [hcount, hscan, show (1 : CoreId).toNat = 1 from rfl, coresBelowWire_one, List.append_nil, List.nil_append]

theorem coreSync_sends {c : CoreId} (hph : s.seq.ph = .csync) (hnext : s.plan.nextValid s.seq.scan.toNat = some c)
    (he : s.plan.entry? c = some e) : sentSoFar (pageStarted 0 e (coreSynced c s)) = sentSoFar s ++ sync (c.setWidth 8) := by
  have hfirst : coreSentBefore (pageStarted 0 e (coreSynced c s)) e = sync (c.setWidth 8) := by
    rw [coreSentBefore_eq, pagesOut_first e rfl]
    exact List.append_nil _
  rw [sentSoFar_inPage rfl he, pageSent_hdr rfl, sentBeforePage, hfirst, sentSoFar_csync hph]
  change sync _ ++ coresBelowWire s.plan s.imem c.toNat ++ _ ++ [] = _
  rw [coresBelowWire_nextValid s.imem hnext, List.append_nil]
  rfl

theorem length_headerBytes (q : SeqRegs) : (headerBytes q).length = 8 := rfl

/-- One byte more of a list, stuffed. -/
theorem stuff_take_succ {bs : List Byte} {k : Nat} {b : Byte} (h : bs[k]? = some b) :
    stuff (bs.take (k + 1)) = stuff (bs.take k) ++ stuff1 b := by
  rw [List.take_add_one, h, stuff_append]
  simp

theorem header_sends {b : Byte} (hpage : PageOf s e) (hph : s.seq.ph = .hdr) (hidx : s.seq.idx.toNat < 7)
    (hb : (headerBytes s.seq)[s.seq.idx.toNat]? = some b) :
    sentSoFar (byteSent b { s.seq with idx := s.seq.idx + 1 } s) = sentSoFar s ++ stuff1 b := by
  have hinPage := congrArg Phase.inPage hph
  refine sentSoFar_of_pageSent hinPage hinPage hpage.entry hpage.entry rfl ?_
  refine (pageSent_hdr ?ph).trans ?_
  case ph => exact hph
  change stuff ((headerBytes s.seq).take (s.seq.idx + 1).toNat) = _
  rw [toNat_idx_succ (by omega), stuff_take_succ hb, pageSent_hdr hph]

/-- The eighth byte completes the header; no payload byte is out. -/
theorem headerDone_sends {b : Byte} (hpage : PageOf s e) (hph : s.seq.ph = .hdr) (hidx : s.seq.idx.toNat = 7)
    (hb : (headerBytes s.seq)[s.seq.idx.toNat]? = some b) :
    sentSoFar (byteSent b { s.seq with idx := 0, ackn := 0, ph := if s.seq.marker then .ack else .pay } s) = sentSoFar s ++ stuff1 b := by
  have hheader : stuff (headerBytes s.seq) = pageSent s e ++ stuff1 b := by
    rw [pageSent_hdr hph, ← stuff_take_succ hb, List.take_of_length_le (by rw [length_headerBytes, hidx])]
  rcases Bool.eq_false_or_eq_true s.seq.marker with hmarker | hdata
  · have hack : (if s.seq.marker then Phase.ack else .pay) = .ack := if_pos hmarker
    refine sentSoFar_of_pageSent (congrArg Phase.inPage hph) (congrArg Phase.inPage hack) hpage.entry hpage.entry rfl ?_
    refine (pageSent_of_out ?ph).trans ?_
    case ph => exact .inl hack
    change stuff (headerBytes s.seq) ++ stuff (s.imem.bytes _ s.seq.chunk.toNat) = _
    rw [(hpage.marker hmarker).2, hheader]
    exact List.append_nil _
  · have hpay : (if s.seq.marker then Phase.ack else .pay) = .pay := if_neg (by simp [hdata])
    refine sentSoFar_of_pageSent (congrArg Phase.inPage hph) (congrArg Phase.inPage hpay) hpage.entry hpage.entry rfl ?_
    refine (pageSent_pay ?ph).trans ?_
    case ph => exact hpay
    change stuff (headerBytes s.seq) ++ [] = _
    rw [hheader, List.append_nil]

theorem pageSent_pay_succ (hph : s.seq.ph = .pay) :
    pageSent s e ++ stuff1 (s.imem.byte (e.ptr.toNat + s.seq.off.toNat + s.seq.idx.toNat)) =
      stuff (headerBytes s.seq) ++ stuff (s.imem.bytes (e.ptr.toNat + s.seq.off.toNat) (s.seq.idx.toNat + 1)) := by
  rw [pageSent_pay hph, Memory.bytes_succ, stuff_append, stuff_cons, stuff_nil, List.append_nil, List.append_assoc]

theorem payload_sends (hpage : PageOf s e) (hph : s.seq.ph = .pay) (hmore : s.seq.idx.toNat + 1 < s.seq.chunk.toNat) :
    sentSoFar (payloadByteSent e { s.seq with idx := s.seq.idx + 1 } s) =
      sentSoFar s ++ stuff1 (s.imem.byte (e.ptr.toNat + s.seq.off.toNat + s.seq.idx.toNat)) := by
  have hinPage := congrArg Phase.inPage hph
  refine sentSoFar_of_pageSent hinPage hinPage hpage.entry hpage.entry rfl ?_
  rw [pageSent_pay_succ hph, ← toNat_idx_succ (hmore.trans s.seq.chunk.isLt)]
  exact pageSent_pay (s := payloadByteSent e _ s) hph

theorem payloadDone_sends (hpage : PageOf s e) (hph : s.seq.ph = .pay) (hlast : s.seq.idx.toNat + 1 = s.seq.chunk.toNat) :
    sentSoFar (payloadByteSent e { s.seq with idx := 0, ph := .ack } s) =
      sentSoFar s ++ stuff1 (s.imem.byte (e.ptr.toNat + s.seq.off.toNat + s.seq.idx.toNat)) := by
  refine sentSoFar_of_pageSent (congrArg Phase.inPage hph) rfl hpage.entry hpage.entry rfl ?_
  rw [pageSent_pay_succ hph, hlast]
  exact pageSent_of_out (s := payloadByteSent e _ s) (.inl rfl)

variable {y : Byte} {rest : List Byte} {hk : s.seq.ackn.toNat < 3}

/-- A step of phase ACK that neither starts a page nor ends the session sends nothing: the page is out. -/
theorem sentSoFar_of_out {t : State} (hpage : PageOf s e) (hph : s.seq.ph = .ack) (ht : t.seq.ph = .ack ∨ t.seq.ph = .next)
    (himem : t.imem = s.imem) (hseq : headerBytes t.seq = headerBytes s.seq) (hoff : t.seq.off = s.seq.off)
    (hchunk : t.seq.chunk = s.seq.chunk) (he : t.plan.entry? t.seq.cog = some e) (hbefore : sentBeforePage t e = sentBeforePage s e) :
    sentSoFar t = sentSoFar s := by
  have hinPage : t.seq.ph.inPage = true := by rcases ht with ht | ht <;> rw [ht] <;> rfl
  rw [sentSoFar_inPage (congrArg Phase.inPage hph) hpage.entry, sentSoFar_inPage hinPage he, pageSent_of_out (.inl hph),
    pageSent_of_out ht, hbefore, hseq, himem, hoff, hchunk]

/-- The page that is acknowledged joins the pages that are out. -/
theorem pageDone_sends (hpage : PageOf s e) (hph : s.seq.ph = .ack) (hdata : s.seq.marker = false) :
    sentSoFar (pageStarted (s.seq.off + s.seq.chunk.setWidth 24) e (offsetAdvanced (ackStored y rest s hk))) = sentSoFar s := by
  have hthis : pagesOut s e = s.seq.off.toNat / 512 := if_neg (by simp [hdata])
  have hout := pagesOut_pageDone hpage hdata y rest hk
  refine (sentSoFar_inPage (e := e) ?inPage ?entry).trans ?_
  case inPage => rfl
  case entry => exact hpage.entry
  rw [pageSent_pageStarted, List.append_nil, sentSoFar_inPage (congrArg Phase.inPage hph) hpage.entry, pageSent_of_out (.inl hph),
    stuff_page_of_data hpage hdata, sentBeforePage, coreSentBefore_eq, hout, dataPagesWire_succ, sentBeforePage, coreSentBefore_eq, hthis]
  simp only [List.append_assoc]
  rfl

theorem imageDone_sends (hpage : PageOf s e) (hph : s.seq.ph = .next) (hmarker : s.seq.marker = true) :
    sentSoFar { s with seq := { imageDone e s.seq with ph := .csync } } = sentSoFar s := by
  rw [sentSoFar_of_next hpage hph hmarker, sentSoFar_csync rfl, ← toNat_succ_core hpage.coreInRange]
  rfl

end

theorem legalStep_sendsGrammar {s t : State} (h : s.Inv) (hrun : s.seq.st = .run) (hstep : LegalStep s t) : ∃ bs, SendsGrammar s t bs := by
  obtain ⟨hn, -, -, -⟩ := h.session hrun
  cases hstep
  case sessionSync hph hscan hbase => exact ⟨_, sendsGrammar_of_running hrun rfl (sessionSync_sends hn hph hscan)⟩
  case coreSync hph hnext he hbase => exact ⟨_, sendsGrammar_of_running hrun rfl (coreSync_sends hph hnext he)⟩
  case header hpage hph hlrc hidx hb => exact ⟨_, sendsGrammar_of_running hrun rfl (header_sends hpage hph hidx hb)⟩
  case headerDone hpage hph hlrc hidx hb => exact ⟨_, sendsGrammar_of_running hrun rfl (headerDone_sends hpage hph hidx hb)⟩
  case payload hpage hph hdata hackn hlrc hmore => exact ⟨_, sendsGrammar_of_running hrun rfl (payload_sends hpage hph hmore)⟩
  case payloadDone hpage hph hdata hackn hlrc hlast => exact ⟨_, sendsGrammar_of_running hrun rfl (payloadDone_sends hpage hph hlast)⟩
  case ackHold => exact ⟨[], sendsGrammar_of_silent hrun rfl rfl⟩
  case ackByte hpage hph hlrc hrx hmore =>
    exact ⟨[], sendsGrammar_of_silent hrun rfl (sentSoFar_of_out hpage hph (.inl hph) rfl rfl rfl rfl hpage.entry rfl)⟩
  case ackAborted =>
    exact ⟨[], (List.append_nil _).symm, fun h => SessionState.noConfusion h, fun h => SessionState.noConfusion h, fun _ => rfl⟩
  case pageDone hpage hph hdata hrx hlast => exact ⟨[], sendsGrammar_of_silent hrun rfl (pageDone_sends hpage hph hdata)⟩
  case markerDone hpage hph hmarker hlrc hrx hlast =>
    exact ⟨[], sendsGrammar_of_silent hrun rfl (sentSoFar_of_out hpage hph (.inr rfl) rfl rfl rfl rfl hpage.entry rfl)⟩
  case imageDone hpage hph hmarker hnext => exact ⟨[], sendsGrammar_of_silent hrun rfl (imageDone_sends hpage hph hmarker)⟩
  case sessionDone hpage hph hmarker hnone =>
    refine ⟨[], (List.append_nil _).symm, fun h => SessionState.noConfusion h, fun _ => ?_, fun _ => rfl⟩
    rw [sentSoFar_of_next hpage hph hmarker, sessionWire_of_none s.imem hnone]

/-! ### The step of any agent -/

/-- A step of another agent sends nothing in a session, and a reset ends it. -/
theorem takeEvent_sendsGrammar {e : Event} {s t : State} (h : s.Inv) (hrun : s.seq.st = .run) (htake : takeEvent e s = .next t) :
    ∃ bs, SendsGrammar s t bs := by
  rcases takeEvent_cases htake with ⟨-, rfl⟩ | ⟨i, hi, hexec⟩ | rfl | ⟨-, hseq⟩ | ⟨b, rfl⟩
  · exact ⟨[], (List.append_nil _).symm, fun h => SessionState.noConfusion h, fun h => SessionState.noConfusion h, fun _ => rfl⟩
  · rw [exec_in_session (s := s.countCommand) hrun hi hexec]
    exact ⟨[], sendsGrammar_of_silent hrun rfl rfl⟩
  · exact ⟨[], sendsGrammar_of_silent hrun rfl rfl⟩
  · exact legalStep_sendsGrammar h hrun (legalStep_of_next hrun (h.session hrun) hseq)
  · exact ⟨[], sendsGrammar_of_silent hrun rfl rfl⟩

theorem step_sendsGrammar {s t : State} (h : s.Inv) (hrun : s.seq.st = .run) (hstep : step s = .next t) : ∃ bs, SendsGrammar s t bs := by
  have hnext := nextEvent_keepsPlan s
  have hsent : sentSoFar (nextEvent s).2 = sentSoFar s := by
    unfold nextEvent
    split <;> rfl
  have hrun' : (nextEvent s).2.seq.st = .run := by rw [nextEvent_seq, hrun]
  obtain ⟨bs, htx, hrunning, hsuccess, hended⟩ := takeEvent_sendsGrammar (nextEvent_inv h) hrun' hstep
  rw [(nextEvent_sameStreams s).tx] at htx
  rw [hsent] at hrunning hsuccess
  rw [hnext.plan, hnext.imem] at hsuccess
  exact ⟨bs, htx, hrunning, hsuccess, hended⟩

/-- Settles O56: the bytes of the step are what the grammar has between the two positions. -/
theorem sentBytesFollowTheGrammar : Obligations.SentBytesFollowTheGrammar := by
  intro s t before h hrun htx hstep
  obtain ⟨bs, htx', hrunning, hsuccess, hended⟩ := step_sendsGrammar h hrun hstep
  refine ⟨fun ht => ?running, fun ht => ?success, fun ht _ => ?ended⟩
  case running => rw [htx', hrunning ht, htx, List.append_assoc]
  case success => rw [htx', hended (by rw [ht]; decide), hsuccess ht, htx, List.append_nil]
  case ended => rw [htx', hended ht, List.append_nil]

end Sys2Proof.Machine
end

section
/-! The length of a session (95_test_vectors.md section 2.6): every legal step that does not abort counts it down by one. -/

namespace Sys2Proof.Machine

/-! ### The steps of a page, of an image, of the cores still to come -/

/-- The marker page alone: eight header bytes, its acknowledgment, NEXT. -/
theorem stepsFromPage_end (markerAck len : Nat) : stepsFromPage markerAck len len = 8 + markerAck + 1 := by
  simp [stepsFromPage, pageCount_zero]

/-- A data page: eight header bytes, its payload, three acknowledgment bytes, then the page after it. -/
theorem stepsFromPage_data {markerAck len o chunk : Nat} (ho : o < len) (hchunk : chunk = min 512 (len - o)) :
    stepsFromPage markerAck len o = 8 + chunk + 3 + stepsFromPage markerAck len (o + chunk) := by
  unfold stepsFromPage pageCount pageSize
  omega

section
variable {s : State}

theorem stepsFromCore_of_nextValid {k : Nat} {c : CoreId} {e : PlanEntry} (h : s.plan.nextValid k = some c) (he : s.plan.entry? c = some e) :
    stepsFromCore s k = 1 + stepsFromPage (markerAckCount s) e.len.toNat 0 + stepsFromCore s (c.toNat + 1) := by
  rw [stepsFromCore, Plan.from_next h, List.map_cons, List.sum_cons, Plan.lenOf_of_entry he, stepsFromCore]

theorem stepsFromCore_of_none {k : Nat} (h : s.plan.nextValid k = none) : stepsFromCore s k = 0 := by
  rw [stepsFromCore, Plan.from_of_none h]
  rfl

theorem stepsLeft_none (h : s.seq.ph = .none) : stepsLeft s = 0 := by
  simp only [stepsLeft, h]

theorem stepsLeft_ssync (h : s.seq.ph = .ssync) : stepsLeft s = 1 + stepsFromCore s 1 := by
  simp only [stepsLeft, h]

theorem stepsLeft_csync (h : s.seq.ph = .csync) : stepsLeft s = stepsFromCore s s.seq.scan.toNat := by
  simp only [stepsLeft, h]

theorem stepsLeft_next (h : s.seq.ph = .next) : stepsLeft s = 1 + stepsFromCore s (s.seq.cog.toNat + 1) := by
  simp only [stepsLeft, h]

variable {e : PlanEntry}

/-- The steps after the data page in progress: the rest of its image, then the cores above (section 2.6). -/
def stepsAfterPage (s : State) (e : PlanEntry) : Nat :=
  stepsFromPage (markerAckCount s) e.len.toNat (s.seq.off.toNat + s.seq.chunk.toNat) + stepsFromCore s (s.seq.cog.toNat + 1)

/-- The steps of a page's payload and acknowledgment, and all after it. -/
def stepsAfterHeader (s : State) (e : PlanEntry) : Nat :=
  if s.seq.marker then markerAckCount s + 1 + stepsFromCore s (s.seq.cog.toNat + 1) else s.seq.chunk.toNat + 3 + stepsAfterPage s e

theorem stepsLeft_hdr (h : s.seq.ph = .hdr) (he : s.plan.entry? s.seq.cog = some e) :
    stepsLeft s = 8 - s.seq.idx.toNat + stepsAfterHeader s e := by
  simp only [stepsLeft, h, Plan.lenOf_of_entry he, stepsAfterHeader, stepsAfterPage]
  split <;> omega

theorem stepsLeft_pay (h : s.seq.ph = .pay) (he : s.plan.entry? s.seq.cog = some e) :
    stepsLeft s = s.seq.chunk.toNat - s.seq.idx.toNat + 3 + stepsAfterPage s e := by
  simp only [stepsLeft, h, Plan.lenOf_of_entry he, stepsAfterPage]
  omega

theorem stepsLeft_ack_of_marker (h : s.seq.ph = .ack) (hmarker : s.seq.marker = true) :
    stepsLeft s = markerAckCount s - s.seq.ackn.toNat + 1 + stepsFromCore s (s.seq.cog.toNat + 1) := by
  simp only [stepsLeft, h, hmarker, if_true]

theorem stepsLeft_ack_of_data (h : s.seq.ph = .ack) (hdata : s.seq.marker = false) (he : s.plan.entry? s.seq.cog = some e) :
    stepsLeft s = 3 - s.seq.ackn.toNat + stepsAfterPage s e := by
  simp only [stepsLeft, h, hdata, Bool.false_eq_true, if_false, Plan.lenOf_of_entry he, stepsAfterPage]
  omega

/-- A page that starts at o has the steps from o on before it (R172). -/
theorem stepsLeft_pageStarted {o : Address} (he : s.plan.entry? s.seq.cog = some e) (hoff : s.seq.off = o) (hle : o.toNat ≤ e.len.toNat) :
    stepsLeft (pageStarted o e s) =
      stepsFromPage (markerAckCount s) e.len.toNat o.toNat + stepsFromCore s (s.seq.cog.toNat + 1) := by
  subst hoff
  by_cases hbytes : s.seq.off.toNat < e.len.toNat
  · have hchunk : (BitVec.ofNat 10 (min 512 (e.len.toNat - s.seq.off.toNat))).toNat = min 512 (e.len.toNat - s.seq.off.toNat) := by
      rw [BitVec.toNat_ofNat]
      omega
    rw [pageStarted_of_lt hbytes]
    refine (stepsLeft_hdr (e := e) ?ph ?entry).trans ?_
    case ph => rfl
    case entry => exact he
    change 8 - 0 + ((BitVec.ofNat 10 (min 512 (e.len.toNat - s.seq.off.toNat))).toNat + 3 + (stepsFromPage (markerAckCount s) e.len.toNat
      (s.seq.off.toNat + (BitVec.ofNat 10 (min 512 (e.len.toNat - s.seq.off.toNat))).toNat) + stepsFromCore s (s.seq.cog.toNat + 1))) = _
    rw [hchunk, stepsFromPage_data hbytes rfl]
    omega
  · have hend : s.seq.off.toNat = e.len.toNat := le_antisymm hle (Nat.not_lt.1 hbytes)
    rw [pageStarted_of_le (Nat.not_lt.1 hbytes), hend, stepsFromPage_end]
    refine (stepsLeft_hdr (e := e) ?ph ?entry).trans ?_
    case ph => rfl
    case entry => exact he
    change 8 - 0 + (markerAckCount s + 1 + stepsFromCore s (s.seq.cog.toNat + 1)) = _
    omega

end

/-! ### The countdown -/

section
variable {s : State} {e : PlanEntry}

theorem headerDone_countsDown (b : Byte) (hpage : PageOf s e) (hph : s.seq.ph = .hdr) (hidx : s.seq.idx.toNat = 7) :
    stepsLeft (byteSent b { s.seq with idx := 0, ackn := 0, ph := if s.seq.marker then .ack else .pay } s) + 1 = stepsLeft s := by
  rw [stepsLeft_hdr hph hpage.entry, hidx]
  rcases Bool.eq_false_or_eq_true s.seq.marker with hmarker | hdata
  · have hack : (if s.seq.marker then Phase.ack else .pay) = .ack := if_pos hmarker
    have hleft : stepsAfterHeader s e = markerAckCount s + 1 + stepsFromCore s (s.seq.cog.toNat + 1) := if_pos hmarker
    rw [hleft]
    refine (congrArg (· + 1) (stepsLeft_ack_of_marker ?ph ?marker)).trans ?_
    case ph => exact hack
    case marker => exact hmarker
    change markerAckCount s - 0 + 1 + stepsFromCore s (s.seq.cog.toNat + 1) + 1 = _
    omega
  · have hpay : (if s.seq.marker then Phase.ack else .pay) = .pay := if_neg (by simp [hdata])
    have hleft : stepsAfterHeader s e = s.seq.chunk.toNat + 3 + stepsAfterPage s e := if_neg (by simp [hdata])
    rw [hleft]
    refine (congrArg (· + 1) (stepsLeft_pay (e := e) ?ph ?entry)).trans ?_
    case ph => exact hpay
    case entry => exact hpage.entry
    change s.seq.chunk.toNat - 0 + 3 + stepsAfterPage s e + 1 = _
    omega

variable {y : Byte} {rest : List Byte} {hk : s.seq.ackn.toNat < 3}

theorem ackByte_countsDown (hpage : PageOf s e) (hph : s.seq.ph = .ack) (hmore : s.seq.ackn.toNat + 1 < ackNeed s) :
    stepsLeft (ackStored y rest s hk) + 1 = stepsLeft s := by
  have hackn := toNat_ackStored_ackn (y := y) (rest := rest) hk
  rw [ackNeed_eq] at hmore
  rcases Bool.eq_false_or_eq_true s.seq.marker with hmarker | hdata
  · rw [if_pos hmarker] at hmore
    rw [stepsLeft_ack_of_marker hph hmarker, stepsLeft_ack_of_marker (s := ackStored y rest s hk) hph hmarker, hackn]
    change markerAckCount s - _ + 1 + stepsFromCore s (s.seq.cog.toNat + 1) + 1 = _
    omega
  · rw [if_neg (by simp [hdata])] at hmore
    rw [stepsLeft_ack_of_data hph hdata hpage.entry, stepsLeft_ack_of_data (s := ackStored y rest s hk) hph hdata hpage.entry, hackn]
    change 3 - _ + stepsAfterPage s e + 1 = _
    omega

theorem pageDone_countsDown (hpage : PageOf s e) (hph : s.seq.ph = .ack) (hdata : s.seq.marker = false) (hlast : s.seq.ackn.toNat + 1 = 3) :
    stepsLeft (pageStarted (s.seq.off + s.seq.chunk.setWidth 24) e (offsetAdvanced (ackStored y rest s hk))) + 1 = stepsLeft s := by
  have hsum := hpage.toNat_off_add_chunk
  have hnext : stepsLeft (pageStarted (s.seq.off + s.seq.chunk.setWidth 24) e (offsetAdvanced (ackStored y rest s hk))) =
      stepsFromPage (markerAckCount s) e.len.toNat (s.seq.off + s.seq.chunk.setWidth 24).toNat + stepsFromCore s (s.seq.cog.toNat + 1) :=
    stepsLeft_pageStarted hpage.entry rfl (hsum ▸ hpage.off_add_chunk_le)
  rw [hnext, hsum, stepsLeft_ack_of_data hph hdata hpage.entry, stepsAfterPage]
  omega

theorem markerDone_countsDown (hph : s.seq.ph = .ack) (hmarker : s.seq.marker = true) (hlast : s.seq.ackn.toNat + 1 = ackNeed s) :
    stepsLeft { ackStored y rest s hk with seq := { (ackStored y rest s hk).seq with ph := .next } } + 1 = stepsLeft s := by
  rw [ackNeed_eq, if_pos hmarker] at hlast
  rw [stepsLeft_ack_of_marker hph hmarker, stepsLeft_next rfl]
  change 1 + stepsFromCore s (s.seq.cog.toNat + 1) + 1 = _
  omega

end

/-- Every legal step but a hold or an abort is one step less to go. -/
theorem legalStep_countsDown {s t : State} (henabled : sequencerEnabled s = true) (hstep : LegalStep s t) (hok : t.seq.st ≠ .aborted) :
    stepsLeft t + 1 = stepsLeft s := by
  cases hstep
  case sessionSync hph hscan hbase =>
    rw [stepsLeft_ssync hph, stepsLeft_csync rfl]
    change stepsFromCore s s.seq.scan.toNat + 1 = _
    rw [hscan, Nat.add_comm]
    rfl
  case coreSync c e hph hnext he hbase =>
    have hpage : stepsLeft (pageStarted 0 e (coreSynced c s)) =
        stepsFromPage (markerAckCount s) e.len.toNat 0 + stepsFromCore s (c.toNat + 1) := stepsLeft_pageStarted he rfl (Nat.zero_le _)
    rw [hpage, stepsLeft_csync hph, stepsFromCore_of_nextValid hnext he]
    omega
  case header e b hpage hph hlrc hidx hb =>
    have hafter := stepsLeft_hdr (s := byteSent b { s.seq with idx := s.seq.idx + 1 } s) hph hpage.entry
    change _ = 8 - (s.seq.idx + 1).toNat + stepsAfterHeader s e at hafter
    rw [hafter, stepsLeft_hdr hph hpage.entry, toNat_idx_succ (by omega)]
    omega
  case headerDone e b hpage hph hlrc hidx hb => exact headerDone_countsDown b hpage hph hidx
  case payload e hpage hph hdata hackn hlrc hmore =>
    have hafter := stepsLeft_pay (s := payloadByteSent e { s.seq with idx := s.seq.idx + 1 } s) hph hpage.entry
    change _ = s.seq.chunk.toNat - (s.seq.idx + 1).toNat + 3 + stepsAfterPage s e at hafter
    rw [hafter, stepsLeft_pay hph hpage.entry, toNat_idx_succ (hmore.trans s.seq.chunk.isLt)]
    omega
  case payloadDone e hpage hph hdata hackn hlrc hlast =>
    have hafter := stepsLeft_ack_of_data (s := payloadByteSent e { s.seq with idx := 0, ph := .ack } s) rfl hdata hpage.entry
    change _ = 3 - s.seq.ackn.toNat + stepsAfterPage s e at hafter
    rw [hafter, stepsLeft_pay hph hpage.entry, hackn]
    change 3 - 0 + _ + 1 = _
    omega
  case ackHold hph hrx => simp [sequencerEnabled, hph, hrx] at henabled
  case ackByte e y rest hk hpage hph hlrc hrx hmore => exact ackByte_countsDown hpage hph hmore
  case ackAborted => exact absurd rfl hok
  case pageDone e y rest hk hpage hph hdata hrx hlast => exact pageDone_countsDown hpage hph hdata hlast
  case markerDone hpage hph hmarker hlrc hrx hlast => exact markerDone_countsDown hph hmarker hlast
  case imageDone e c hpage hph hmarker hnext =>
    rw [stepsLeft_next hph, stepsLeft_csync rfl]
    change stepsFromCore s (s.seq.cog + 1).toNat + 1 = _
    rw [toNat_succ_core hpage.coreInRange, Nat.add_comm]
  case sessionDone hpage hph hmarker hnone => rw [stepsLeft_next hph, stepsLeft_none rfl, stepsFromCore_of_none hnone]

/-- A session in progress has a step to go. -/
theorem one_le_stepsLeft {s : State} (h : s.Inv) (hrun : s.seq.st = .run) : 1 ≤ stepsLeft s := by
  obtain ⟨-, -, -, hphase⟩ := h.session hrun
  cases hph : s.seq.ph
  case none => simp [State.phaseLegal, hph] at hphase
  case ssync => rw [stepsLeft_ssync hph]; omega
  case csync =>
    obtain ⟨hsome, -⟩ := (phaseLegal_csync hph).1 hphase
    obtain ⟨c, hc⟩ := Option.isSome_iff_exists.1 hsome
    obtain ⟨-, hvalid, -⟩ := Plan.nextValid_eq_some hc
    obtain ⟨e, he, -⟩ := Plan.isValid_iff.1 hvalid
    rw [stepsLeft_csync hph, stepsFromCore_of_nextValid hc he]
    omega
  all_goals obtain ⟨e, hpage, hprogress⟩ := (phaseLegal_inPage (congrArg Phase.inPage hph)).1 hphase
  case hdr =>
    obtain ⟨hidx, -⟩ := (progressLegal_hdr hph).1 hprogress
    rw [stepsLeft_hdr hph hpage.entry]
    omega
  case pay => rw [stepsLeft_pay hph hpage.entry]; omega
  case ack =>
    obtain ⟨hackn, -⟩ := (progressLegal_ack hph).1 hprogress
    rw [ackNeed_eq] at hackn
    rcases Bool.eq_false_or_eq_true s.seq.marker with hmarker | hdata
    · rw [stepsLeft_ack_of_marker hph hmarker]
      omega
    · rw [if_neg (by simp [hdata])] at hackn
      rw [stepsLeft_ack_of_data hph hdata hpage.entry]
      omega
  case next => rw [stepsLeft_next hph]; omega

/-- Settles O60: by the legal step taken; the position by the phase; the end of a session leaves phase NONE. -/
theorem sequencerStepsCountDown : Obligations.SequencerStepsCountDown := by
  refine ⟨fun s t h henabled hstep hok => ?countdown, fun s h hrun => one_le_stepsLeft h hrun, fun s t hstep hsuccess hrun => ?success⟩
  case countdown =>
    obtain ⟨hrun, -⟩ := sequencerEnabled_iff.1 henabled
    exact legalStep_countsDown henabled (legalStep_of_next hrun (h.session hrun) hstep) hok
  case success =>
    rcases sequencerStep_of_end hrun hstep (by rw [hsuccess]; decide) with ⟨-, -, e, -, rfl⟩ | ⟨-, y, rest, -, hk, r, -, rfl⟩
    · exact stepsLeft_none rfl
    · cases hsuccess

end Sys2Proof.Machine
end

section
/-! The session beside the ideal device (95_test_vectors.md section 4), and what any run of a session has sent (30_encoding.md R72). The device
delivers the acknowledgment that the block expects, so no step aborts, and the countdown of section 2.6 ends in SUCCESS; from that end, what a
session has sent at any position is a beginning of the grammar. -/

namespace Sys2Proof.Machine

open Host (Outcome)

/-! ### What is in RX beside the ideal device -/

/-- The acknowledgment bytes stored and those in RX are together the expected ones. -/
def AckDelivered (s : State) : Prop := ackReceived s ++ s.rx = ackExpected s

/-- Before the device's turn: RX is empty, or phase ACK is in the middle of the acknowledgment (section 4). -/
structure IdealRx (s : State) : Prop where
  empty : s.seq.ph ≠ .ack → s.rx = []
  ack : s.seq.ph = .ack → (s.seq.ackn = 0 ∧ s.rx = []) ∨ AckDelivered s

/-- After it: phase ACK has its acknowledgment in RX. -/
structure IdealDelivered (s : State) : Prop where
  empty : s.seq.ph ≠ .ack → s.rx = []
  ack : s.seq.ph = .ack → AckDelivered s

/-- The state after the ideal device's turn. -/
def delivered (s : State) : State := { s with rx := s.rx ++ idealAnswer s }

theorem delivered_keepsPlan (s : State) : KeepsPlan s (delivered s) := ⟨⟨rfl, rfl⟩, rfl⟩

theorem idealTurn_eq (s : State) : idealTurn s = sequencerStep (delivered s) := rfl

theorem idealAnswer_of_waiting {s : State} (hph : s.seq.ph = .ack) (hrx : s.rx = []) (hackn : s.seq.ackn = 0) :
    idealAnswer s = ackExpected s := if_pos ⟨hph, hrx, hackn⟩

theorem idealAnswer_of_busy {s : State} (h : ¬(s.seq.ph = .ack ∧ s.rx = [] ∧ s.seq.ackn = 0)) : idealAnswer s = [] := if_neg h

theorem idealDelivered {s : State} (h : IdealRx s) : IdealDelivered (delivered s) := by
  obtain ⟨hempty, hack⟩ := h
  refine ⟨fun hph => ?_, fun hph => ?_⟩
  · have hnothing : idealAnswer s = [] := idealAnswer_of_busy fun hwait => hph hwait.1
    rw [delivered, hnothing, hempty hph]
    rfl
  · by_cases hwait : s.seq.ackn = 0 ∧ s.rx = []
    · obtain ⟨hackn, hrx⟩ := hwait
      have hnone : ackReceived (delivered s) = [] := by
        change s.seq.ackb.toList.take s.seq.ackn.toNat = []
        rw [hackn]
        rfl
      rw [AckDelivered, hnone]
      change s.rx ++ idealAnswer s = ackExpected s
      rw [hrx, idealAnswer_of_waiting (s := s) hph hrx hackn, List.nil_append]
    · have hnothing : idealAnswer s = [] := idealAnswer_of_busy fun h => hwait ⟨h.2.2, h.2.1⟩
      have hsame : delivered s = s := by rw [delivered, hnothing, List.append_nil]
      rw [hsame]
      exact (hack hph).resolve_left hwait

theorem length_ackReceived (s : State) : (ackReceived s).length = s.seq.ackn.toNat := by
  have hlt := s.seq.ackn.isLt
  rw [ackReceived, List.length_take, Vector.length_toList]
  omega

/-- With the last expected byte RX is empty. -/
theorem rest_eq_nil {s : State} {y : Byte} {rest : List Byte} (h : AckDelivered s) (hrx : s.rx = y :: rest)
    (hlast : s.seq.ackn.toNat + 1 = ackNeed s) : rest = [] := by
  have hlen := congrArg List.length h
  rw [hrx, List.length_append, length_ackReceived, length_ackExpected, List.length_cons] at hlen
  exact List.eq_nil_of_length_eq_zero (by omega)

theorem ackDelivered_ackStored {s : State} {y : Byte} {rest : List Byte} (hk : s.seq.ackn.toNat < 3) (h : AckDelivered s)
    (hrx : s.rx = y :: rest) : AckDelivered (ackStored y rest s hk) := by
  rw [AckDelivered, ackReceived_ackStored]
  rw [AckDelivered, hrx, List.append_cons] at h
  exact h

/-! ### A turn beside the ideal device -/

theorem idealRx_of_empty {s : State} (hrx : s.rx = []) (hackn : s.seq.ph = .ack → s.seq.ackn = 0) : IdealRx s :=
  ⟨fun _ => hrx, fun hph => .inl ⟨hackn hph, hrx⟩⟩

theorem ne_aborted_of_run {s : State} (h : s.seq.st = .run) : s.seq.st ≠ .aborted := by
  rw [h]
  decide

/-- A legal step with the acknowledgment delivered does not abort, and leaves RX as the device's next turn finds it. -/
theorem legalStep_ideal {s t : State} (hrun : s.seq.st = .run) (hideal : IdealDelivered s) (hstep : LegalStep s t) :
    t.seq.st ≠ .aborted ∧ IdealRx t := by
  obtain ⟨hempty, hack⟩ := hideal
  have hnotAck : ∀ {p : Phase}, s.seq.ph = p → p ≠ .ack → s.rx = [] := fun hph hp => hempty fun h => hp (hph.symm.trans h)
  cases hstep
  case ackAborted y rest hk r hph hrx hlast hwrong hr =>
    have hdelivered : ackReceived (ackStored y rest s hk) ++ rest = ackExpected s := ackDelivered_ackStored hk (hack hph) hrx
    rw [rest_eq_nil (hack hph) hrx hlast, List.append_nil] at hdelivered
    exact absurd hdelivered hwrong
  case sessionDone hpage hph hmarker hnone =>
    exact ⟨SessionState.noConfusion, idealRx_of_empty (hnotAck hph Phase.noConfusion) Phase.noConfusion⟩
  all_goals refine ⟨ne_aborted_of_run hrun, ?_⟩
  case ackHold hph hrx => exact ⟨hempty, fun _ => .inr (hack hph)⟩
  case ackByte hk hpage hph hlrc hrx hmore => exact ⟨fun h => absurd hph h, fun _ => .inr (ackDelivered_ackStored hk (hack hph) hrx)⟩
  case pageDone hpage hph hdata hrx hlast =>
    have hneed : s.seq.ackn.toNat + 1 = ackNeed s := hlast.trans (by rw [ackNeed_eq, hdata]; rfl)
    exact idealRx_of_empty (rest_eq_nil (hack hph) hrx hneed) Phase.noConfusion
  case markerDone hpage hph hmarker hlrc hrx hlast => exact idealRx_of_empty (rest_eq_nil (hack hph) hrx hlast) Phase.noConfusion
  case sessionSync hph _ _ => exact idealRx_of_empty (hnotAck hph Phase.noConfusion) Phase.noConfusion
  case coreSync hph _ _ _ => exact idealRx_of_empty (hnotAck hph Phase.noConfusion) Phase.noConfusion
  case header hph _ _ _ => exact idealRx_of_empty (hnotAck hph Phase.noConfusion) fun h => absurd (hph.symm.trans h) Phase.noConfusion
  case headerDone hph _ _ _ => exact idealRx_of_empty (hnotAck hph Phase.noConfusion) fun _ => rfl
  case payload hph _ hackn _ _ => exact idealRx_of_empty (hnotAck hph Phase.noConfusion) fun _ => hackn
  case payloadDone hph _ hackn _ _ => exact idealRx_of_empty (hnotAck hph Phase.noConfusion) fun _ => hackn
  case imageDone hph _ _ => exact idealRx_of_empty (hnotAck hph Phase.noConfusion) Phase.noConfusion

/-- With its acknowledgment delivered, or with none needed, the sequencer has a step. -/
theorem sequencerEnabled_of_ideal {s : State} (h : s.Inv) (hrun : s.seq.st = .run) (hideal : IdealDelivered s) :
    sequencerEnabled s = true := by
  obtain ⟨-, -, -, hphase⟩ := h.session hrun
  refine sequencerEnabled_iff.2 ⟨hrun, ?_⟩
  cases hph : s.seq.ph
  case none => simp [State.phaseLegal, hph] at hphase
  case ack =>
    obtain ⟨e, -, hprogress⟩ := (phaseLegal_inPage (congrArg Phase.inPage hph)).1 hphase
    obtain ⟨hackn, -⟩ := (progressLegal_ack hph).1 hprogress
    have hrx : s.rx ≠ [] := by
      intro hnil
      have hlen := congrArg List.length (hideal.ack hph)
      rw [hnil, List.append_nil, length_ackReceived, length_ackExpected] at hlen
      omega
    simp [hrx]
  all_goals simp

/-- One turn beside the ideal device, from s to t: the session goes on or is done, one step nearer to its end. -/
structure IdealStep (s t : State) (bs : List Byte) : Prop where
  inv : t.Inv
  st : t.seq.st = .run ∨ t.seq.st = .success
  rx : IdealRx t
  flt : t.flt = s.flt
  keeps : KeepsPlan s t
  steps : stepsLeft t + 1 = stepsLeft s
  sends : SendsGrammar s t bs

theorem legalStep_flt {s t : State} (h : LegalStep s t) : t.flt = s.flt := by
  cases h <;> rfl

theorem legalStep_st {s t : State} (hrun : s.seq.st = .run) (h : LegalStep s t) (hok : t.seq.st ≠ .aborted) :
    t.seq.st = .run ∨ t.seq.st = .success := by
  cases h
  case ackAborted => exact absurd rfl hok
  case sessionDone => exact .inr rfl
  all_goals exact .inl hrun

theorem idealTurn_step {s : State} (h : s.Inv) (hrun : s.seq.st = .run) (hrx : IdealRx s) :
    ∃ t bs, idealTurn s = .next t ∧ IdealStep s t bs := by
  have h' : (delivered s).Inv := h
  have hrun' : (delivered s).seq.st = .run := hrun
  have hideal := idealDelivered hrx
  obtain ⟨t, ht, hstep⟩ := takesLegalStep hrun' (h'.session hrun')
  obtain ⟨hok, hrx'⟩ := legalStep_ideal hrun' hideal hstep
  have hflt : t.flt = s.flt := legalStep_flt (s := delivered s) hstep
  have hcount : stepsLeft t + 1 = stepsLeft s :=
    legalStep_countsDown (s := delivered s) (sequencerEnabled_of_ideal h' hrun' hideal) hstep hok
  have hkeeps : KeepsPlan s t := (delivered_keepsPlan s).trans (sequencerStep_keepsPlan ht)
  obtain ⟨bs, htx, hrunning, hsuccess, hended⟩ := legalStep_sendsGrammar h' hrun' hstep
  have hsends : SendsGrammar s t bs := ⟨htx, hrunning, hsuccess, hended⟩
  exact ⟨t, bs, ht, legalStep_inv h' hrun' hstep, legalStep_st hrun' hstep hok, hrx', hflt, hkeeps, hcount, hsends⟩

/-! ### The whole session -/

/-- Beside the ideal device a session runs to SUCCESS in the steps that are left, and sends what is left of the grammar. -/
theorem idealRun_success (n : Nat) {s : State} (h : s.Inv) (hrun : s.seq.st = .run) (hrx : IdealRx s) (hn : stepsLeft s = n) :
    ∃ t bs, idealRun n s = .next t ∧ t.seq.st = .success ∧ t.rx = [] ∧ t.flt = s.flt ∧ t.tx = s.tx ++ bs ∧
      sessionWire s.plan s.imem = sentSoFar s ++ bs := by
  induction n generalizing s with
  | zero =>
    have hpos := one_le_stepsLeft h hrun
    omega
  | succ n ih =>
    obtain ⟨t, bs, hturn, hideal⟩ := idealTurn_step h hrun hrx
    have hsteps := hideal.steps
    have hgo : idealRun (n + 1) s = idealRun n t := by rw [idealRun, hturn]
    rw [hgo]
    rcases hideal.st with hrun' | hsuccess
    · obtain ⟨u, bs', hidealRun, hsuccess, hrx', hflt, htx, hwire⟩ := ih hideal.inv hrun' hideal.rx (by omega)
      refine ⟨u, bs ++ bs', hidealRun, hsuccess, hrx', hflt.trans hideal.flt, ?_, ?_⟩
      · rw [htx, hideal.sends.tx, List.append_assoc]
      · rw [← hideal.keeps.plan, ← hideal.keeps.imem, hwire, hideal.sends.running hrun', List.append_assoc]
    · have hnot : t.seq.st ≠ .run := by rw [hsuccess]; decide
      obtain ⟨-, -, hphNone, -⟩ := hideal.inv
      have hph := hphNone hnot
      rw [stepsLeft_none hph] at hsteps
      obtain rfl : n = 0 := by omega
      refine ⟨t, bs, rfl, hsuccess, hideal.rx.empty (by rw [hph]; decide), hideal.flt, hideal.sends.tx, ?_⟩
      rw [hideal.sends.ended hnot, List.append_nil, hideal.sends.success hsuccess]

/-- Settles O59. -/
theorem idealDeviceSessionsSucceed : Obligations.IdealDeviceSessionsSucceed := by
  rintro s h ⟨hrun, hph⟩ hrx
  have hideal : IdealRx s := idealRx_of_empty hrx fun h => absurd (hph.symm.trans h) Phase.noConfusion
  obtain ⟨t, bs, hidealRun, hsuccess, hrx', hflt, htx, hwire⟩ := idealRun_success _ h hrun hideal rfl
  rw [sentSoFar_ssync hph, List.nil_append] at hwire
  exact ⟨t, hidealRun, hsuccess, hrx', hflt, hwire ▸ htx⟩

/-! ### Any run of a session -/

/-- The state with RX empty and no acknowledgment byte counted: the ideal device can take over from it. -/
def ackRewound (s : State) : State := { s with rx := [], seq := { s.seq with ackn := 0 } }

theorem ackRewound_inv {s : State} (h : s.Inv) (hrun : s.seq.st = .run) : (ackRewound s).Inv := by
  obtain ⟨-, -, -, hphase⟩ := h.session hrun
  refine inv_of_phaseLegal h ⟨⟨rfl, rfl⟩, rfl⟩ rfl hrun rfl rfl rfl ?_
  cases hph : s.seq.ph
  case none => simp [State.phaseLegal, hph] at hphase
  case ssync => exact (phaseLegal_ssync (s := ackRewound s) hph).2 ((phaseLegal_ssync hph).1 hphase)
  case csync => exact (phaseLegal_csync (s := ackRewound s) hph).2 ((phaseLegal_csync hph).1 hphase)
  all_goals
    obtain ⟨e, ⟨hentry, hvalid, hbase, hpage⟩, hprogress⟩ := (phaseLegal_inPage (congrArg Phase.inPage hph)).1 hphase
    have hpage' : PageOf (ackRewound s) e := ⟨hentry, hvalid, hbase, hpage⟩
  case hdr =>
    obtain ⟨hidx, hlrc⟩ := (progressLegal_hdr hph).1 hprogress
    exact phaseLegal_of_hdr hpage' hph hidx hlrc
  case pay =>
    obtain ⟨hdata, -, hidx, hlrc⟩ := (progressLegal_pay hph).1 hprogress
    exact phaseLegal_of_pay hpage' hph hdata rfl hidx hlrc
  case ack =>
    obtain ⟨-, hlrc⟩ := (progressLegal_ack hph).1 hprogress
    exact phaseLegal_of_ack hpage' hph (ackNeed_pos _) hlrc
  case next =>
    obtain ⟨hmarker, hlrc⟩ := (progressLegal_next hph).1 hprogress
    exact phaseLegal_of_next hpage' hph hmarker hlrc

/-- What a session has sent at any position is a beginning of the grammar: the ideal device would bring it to its end. -/
theorem sentSoFar_begins {s : State} (h : s.Inv) (hrun : s.seq.st = .run) : ∃ rest, sessionWire s.plan s.imem = sentSoFar s ++ rest := by
  obtain ⟨t, rest, -, -, -, -, -, hwire⟩ :=
    idealRun_success (s := ackRewound s) _ (ackRewound_inv h hrun) hrun (idealRx_of_empty rfl fun _ => rfl) rfl
  exact ⟨rest, hwire⟩

/-- Where a session that started in s stands in t: it is still running and has sent what the grammar has up to its position, or it has
ended, after a beginning of the grammar. -/
def SessionProgress (s t : State) : Prop :=
  (t.seq.st = .run ∧ t.plan = s.plan ∧ t.imem = s.imem ∧ t.tx = s.tx ++ sentSoFar t) ∨
    (t.seq.st ≠ .run ∧ ∃ sent rest, t.tx = s.tx ++ sent ∧ sessionWire s.plan s.imem = sent ++ rest ∧ (t.seq.st = .success → rest = []))

/-- A reset of either kind gives every register its reset value (R93, R210). -/
theorem takeEvent_of_isReset {e : Event} (s : State) (h : Event.isReset e) : takeEvent e s = .next s.countCommand.resetBlock := by
  rcases h with rfl | ⟨w, rfl, hdecode⟩
  · rfl
  · exact issueWord_of_decode hdecode s

/-- A step that goes on with a session is no reset, and so keeps the plan (R43, R92). -/
theorem step_keepsPlan_of_running {s t : State} (hrun : s.seq.st = .run) (hstep : step s = .next t) (hrun' : t.seq.st = .run) :
    t.plan = s.plan ∧ t.imem = s.imem := by
  obtain ⟨himem, -, hplan⟩ := imageMemoryAndPlanStayInSession s t hstep
  refine ⟨(hplan hrun).resolve_left fun hreset => ?_, himem⟩
  cases (takeEvent_of_isReset _ hreset).symm.trans hstep
  exact SessionState.noConfusion hrun'

theorem sessionProgress_step {s t u : State} (h : t.Inv) (hrun : t.seq.st = .run) (hprogress : SessionProgress s t) (hstep : step t = .next u) :
    SessionProgress s u := by
  obtain ⟨-, hplan, himem, htx⟩ := hprogress.resolve_right fun hended => hended.1 hrun
  obtain ⟨bs, htx', hrunning, hsuccess, hended⟩ := step_sendsGrammar h hrun hstep
  rw [htx, List.append_assoc] at htx'
  by_cases hrun' : u.seq.st = .run
  · obtain ⟨hplan', himem'⟩ := step_keepsPlan_of_running hrun hstep hrun'
    exact .inl ⟨hrun', hplan'.trans hplan, himem'.trans himem, (hrunning hrun').symm ▸ htx'⟩
  · obtain ⟨rest, hwire⟩ := sentSoFar_begins h hrun
    rw [hended hrun', List.append_nil] at htx'
    rw [hplan, himem] at hwire hsuccess
    refine .inr ⟨hrun', sentSoFar t, rest, htx', hwire, fun hsucc => ?_⟩
    exact List.append_right_eq_self.1 (hwire.symm.trans (hsuccess hsucc))

theorem sessionRun_progress {s t : State} (h : s.Inv) (hstarted : s.sessionStarted) (hreach : SessionRun s t) : t.Inv ∧ SessionProgress s t := by
  obtain ⟨hrun, hph⟩ := hstarted
  induction hreach with
  | start =>
    refine ⟨h, .inl ⟨hrun, rfl, rfl, ?_⟩⟩
    rw [sentSoFar_ssync hph, List.append_nil]
  | step _ hrun' hstep ih =>
    obtain ⟨hinv, hprogress⟩ := ih
    exact ⟨everyStepKeepsTheInvariant _ _ hinv hstep, sessionProgress_step hinv hrun' hprogress hstep⟩

/-- Settles O57: by induction on the run; a session in progress has sent a beginning of the grammar because it could still be brought to its end. -/
theorem successfulSessionSendsTheWholeGrammar : Obligations.SuccessfulSessionSendsTheWholeGrammar := by
  intro s t h hstarted hreach
  obtain ⟨hinv, ⟨hrun, hplan, himem, htx⟩ | ⟨-, hended⟩⟩ := sessionRun_progress h hstarted hreach
  · obtain ⟨rest, hwire⟩ := sentSoFar_begins hinv hrun
    rw [hplan, himem] at hwire
    exact ⟨sentSoFar t, rest, htx, hwire, fun hsuccess => absurd (hrun.symm.trans hsuccess) SessionState.noConfusion⟩
  · exact hended

end Sys2Proof.Machine
end
